-- ==== Sys2Proof/Word.lean ====
section
/-!
DEFINITION. The two word types of the engine (spec 00_scope.md R9, R11): every register value, descriptor word and
command word is an unsigned 32-bit integer; buffer memory is an array of bytes (20_memory.md R63).
-/
namespace Sys2Proof

/-- A register, command or descriptor word (REG_WIDTH = 32, R9). -/
abbrev Word := BitVec 32

/-- One byte of buffer memory (R63). -/
abbrev Byte := BitVec 8

end Sys2Proof
end

