-- ==== Sys2Proof/Config.lean ====
section
/-!
DEFINITION. The parameters of 00_scope.md R9 and R10 at the values the spec takes, and the one free value of the model:
what the other three agents (ENV, Time, the host; R8) do between two steps of the engine.
-/
namespace Sys2Proof

/-- Maximum bus clock in Hz (R9). -/
def Config.maxHz : Word := 48000000#32

/-- Minimum clock in Hz: floor(MAX_HZ / 32768), parameter MIN_HZ (R10, R182, decision D9). -/
def Config.minHz : Word := 1464#32

/-- WAIT_TIMEOUT_TICKS: 1000 ms in ticks of 1 µs (R10, R142). -/
def Config.waitTimeoutTicks : Nat := 1000000

/-- Register offsets from the window base (R10, R20, R61). -/
def Config.offConf : Word := 0x00#32
def Config.offStat : Word := 0x08#32
def Config.offFctl : Word := 0x10#32
def Config.offTxd  : Word := 0x18#32
def Config.offRxd  : Word := 0x20#32

/-- Values of the transfer-mode field (R25). -/
def Config.trmTxRx : Word := 0#32
def Config.trmRx   : Word := 1#32
def Config.trmTx   : Word := 2#32

/-- Value of the CONF fields that CONFIGURE does not name (R223, parameter CONF_INIT_OTHER). -/
def Config.confInitOther : Word := 0#32

/-- Whether a rejected message also gets a completion event (R183, parameter COMPLETE_ON_REJECT). -/
def Config.completeOnReject : Bool := false

/-- The values the five window registers show to a read (R20, R21): they belong to the controller (ENV). -/
structure Window where
  conf : Word
  stat : Word
  fctl : Word
  txd  : Word
  rxd  : Word
  deriving DecidableEq, Repr, Inhabited

/-- What the other agents do between two steps of the engine (R8, R16): Time advances `now` by `ticks`; ENV settles
what each window register will answer (R70); the host may attach the window (R37, R50), present a command (R50) and
write bytes of buffer memory (R52). -/
structure Input where
  ticks   : Nat
  win     : Window
  attach  : Option (Word × Word)
  present : Option (Word × Word)
  stores  : List (Word × Byte)
  deriving DecidableEq, Repr, Inhabited

/-- FREE VALUE (log 3): what the other agents do before the step numbered by the argument. Nothing is known of it. -/
opaque Config.freeInput : Nat → Input

end Sys2Proof
end

