-- ==== Sys2Proof/Syntax.lean ====
section
/-!
DEFINITION. The thirteen operations of 30_encoding.md R90, one constructor per row of spec/opcode_table.json, and the
operands they carry.
-/
namespace Sys2Proof

/-- Register identifiers of the window (R120). -/
inductive RegId where
  | conf | stat | fctl | txd | rxd
  deriving DecidableEq, Repr

/-- The five level flags of STAT (R27). -/
inductive StatFlag where
  | rxrdy | txrdy | eot | txfifo | rxfifo
  deriving DecidableEq, Repr

/-- The ten fields of CONF (R23). -/
inductive ConfField where
  | cpha | cpol | cspol | txen | wl | trm | csidx | wcnt | fifoen | spien
  deriving DecidableEq, Repr

/-- One field update `F := x` of a CONF.UPDATE (R12, R124). -/
structure FieldUpdate where
  field : ConfField
  value : Word
  deriving DecidableEq, Repr

/-- A decoded transfer, the abstract fields of R38. -/
structure Transfer where
  len    : Word
  txp    : Bool
  txaddr : Word
  rxp    : Bool
  rxaddr : Word
  bpw    : BitVec 6
  speed  : Word
  delay  : BitVec 16
  deriving DecidableEq, Repr

/-- The operand fields of a transfer descriptor other than the presence flags and LEN (R98, R99). -/
structure XferArgs where
  txaddr : Word
  rxaddr : Word
  speed  : Word
  bpw    : BitVec 6
  delay  : BitVec 16
  deriving DecidableEq, Repr

/-- The operation set (R90). -/
inductive Instr where
  /-- CONFIGURE (R93, R221). -/
  | configure (peer : BitVec 8) (cs : BitVec 2) (bpw : BitVec 6)
  /-- RELEASE (R94, R228). -/
  | release (peer : BitVec 8)
  /-- EXECUTE (R95, R180). -/
  | execute (peer : BitVec 8) (nxfer : BitVec 8) (descBase : Word)
  /-- XFER.TX (R100, R188): TXP = 1, RXP any, LEN ≠ 0. -/
  | xferTx (rxp : Bool) (len : Word) (a : XferArgs)
  /-- XFER.RX (R100, R189): TXP = 0, RXP = 1, LEN ≠ 0. -/
  | xferRx (len : Word) (a : XferArgs)
  /-- XFER.SKIP (R100, R187): LEN = 0. -/
  | xferSkip (txp : Bool) (rxp : Bool) (a : XferArgs)
  /-- REG.READ (R121). -/
  | regRead (r : RegId)
  /-- REG.WRITE (R122). -/
  | regWrite (r : RegId) (v : Word)
  /-- CONF.UPDATE (R124): the field updates that make up `f`, applied from the first to the last. -/
  | confUpdate (us : List FieldUpdate)
  /-- WAIT.BIT (R141). -/
  | waitBit (b : StatFlag)
  /-- PIO.RUN (R157): the transfer and the effective word length. -/
  | pioRun (t : Transfer) (wl : BitVec 6)
  /-- DELAY (R193). -/
  | delay (d : BitVec 16)
  /-- YIELD (R145). -/
  | yield
  deriving DecidableEq, Repr

end Sys2Proof
end

