-- ==== Sys2Proof/Machine/Operands.lean ====
section
/-!
DEFINITION. Operand assembly (30_encoding.md R101), transfer kinds (R100), the well-formedness of a descriptor (R103)
and the message validation of 43_message_sequencer.md R182.
-/
namespace Sys2Proof

/-- Offset of a window register from the window base (R61). -/
def RegId.offset : RegId → Word
  | .conf => Config.offConf
  | .stat => Config.offStat
  | .fctl => Config.offFctl
  | .txd  => Config.offTxd
  | .rxd  => Config.offRxd

/-- A word length in bits that the hardware admits: 4..32 (R9, R24). -/
def wordLengthLegal (w : BitVec 6) : Bool := 4 ≤ w.toNat && w.toNat ≤ 32

/-- A word-width override: 0 (none) or a legal word length (R99, R103). -/
def overrideLegal (w : BitVec 6) : Bool := w == 0#6 || wordLengthLegal w

/-- Unit size in bytes (R156): 1 up to 8 bits, 2 up to 16, 4 up to 32. -/
def unitBytes (w : BitVec 6) : BitVec 3 :=
  if w.toNat ≤ 8 then 1#3 else if w.toNat ≤ 16 then 2#3 else 4#3

/-- Unit count `len / U` (R101, R156). -/
def unitCount (len : Word) (u : BitVec 3) : Word := BitVec.ofNat 32 (len.toNat / u.toNat)

/-- Byte address of unit `c`: `(addr + c·U) mod 2^32` (R169). -/
def unitAddr (addr c : Word) (u : BitVec 3) : Word := addr + c * u.zeroExtend 32

/-- Bytes processed: `c · U` (R163). -/
def bytesProcessed (c : Word) (u : BitVec 3) : Word := c * u.zeroExtend 32

/-- Address of word `k` of a message, counted over its descriptors of five words each (R97): word `j` of descriptor `i`
is word `5·i + j` and lies at `(base + 20·i + 4·j) mod 2^32`. -/
def descWordAddr (base : Word) (k : Nat) : Word := base + BitVec.ofNat 32 (4 * k)

/-- Effective word length (R194): the override if there is one, else the record's. -/
def effectiveWordLength (bpw recLen : BitVec 6) : BitVec 6 := if bpw = 0#6 then recLen else bpw

/-- Value of the WL field for a word length (R24): the length minus one. -/
def wlValue (w : BitVec 6) : Word := w.zeroExtend 32 - 1#32

/-- Value of the TRM field for a transfer (R190): tx-only if a source buffer is present, else rx-only. -/
def trmValue (txp : Bool) : Word := if txp then Config.trmTx else Config.trmRx

/-- The transfer a XFER.TX constructor stands for. -/
def txTransfer (rxp : Bool) (len : Word) (a : XferArgs) : Transfer :=
  ⟨len, true, a.txaddr, rxp, a.rxaddr, a.bpw, a.speed, a.delay⟩

/-- The transfer a XFER.RX constructor stands for. -/
def rxTransfer (len : Word) (a : XferArgs) : Transfer :=
  ⟨len, false, a.txaddr, true, a.rxaddr, a.bpw, a.speed, a.delay⟩

/-- The transfer a XFER.SKIP constructor stands for. -/
def skipTransfer (txp rxp : Bool) (a : XferArgs) : Transfer :=
  ⟨0#32, txp, a.txaddr, rxp, a.rxaddr, a.bpw, a.speed, a.delay⟩

/-- The operand fields of a transfer. -/
def Transfer.args (t : Transfer) : XferArgs := ⟨t.txaddr, t.rxaddr, t.speed, t.bpw, t.delay⟩

/-- Kind selection (R100): LEN, TXP and RXP alone decide; a nonzero length with neither buffer is no kind. -/
def Transfer.instr (t : Transfer) : Option Instr :=
  if t.len = 0#32 then some (.xferSkip t.txp t.rxp t.args)
  else if t.txp then some (.xferTx t.rxp t.len t.args)
  else if t.rxp then some (.xferRx t.len t.args)
  else none

/-- A descriptor whose reserved bits are 0 is well-formed for a record of word length `recLen` (R103) iff its override
is 0 or 4..32 and LEN is a multiple of the unit size of its effective word length. -/
def Transfer.wellFormed (recLen : BitVec 6) (t : Transfer) : Bool :=
  overrideLegal t.bpw && t.len.toNat % (unitBytes (effectiveWordLength t.bpw recLen)).toNat == 0

/-- The checks V2, V3, V4 of R182 on one transfer. -/
def Transfer.valid (t : Transfer) : Bool :=
  !(t.speed != 0#32 && Config.maxHz < t.speed) &&
  !(t.len != 0#32 && !t.txp && !t.rxp) &&
  !(t.speed != 0#32 && t.speed < Config.minHz)

/-- Message validation (R182): V1, the list is not empty, and V2 to V4 on every transfer. -/
def validate (msg : List Transfer) : Bool := !msg.isEmpty && msg.all Transfer.valid

end Sys2Proof
end

