-- ==== Sys2Proof/Machine/Flags.lean ====
section
/-!
DEFINITION. The two packed registers: field positions, accessors and masks of CONF and STAT (10_state.md R23, R27;
40_register_interface.md R125; 00_scope.md R12) and the initial Configuration value (44_device_setup.md R223).
-/
namespace Sys2Proof

/-- Lowest bit of a CONF field (R23). -/
def ConfField.lo : ConfField → Nat
  | .cpha => 0 | .cpol => 1 | .cspol => 2 | .txen => 3 | .wl => 4
  | .trm => 12 | .csidx => 14 | .wcnt => 16 | .fifoen => 30 | .spien => 31

/-- Width of a CONF field (R23). -/
def ConfField.width : ConfField → Nat
  | .cpha => 1 | .cpol => 1 | .cspol => 1 | .txen => 1 | .wl => 8
  | .trm => 2 | .csidx => 2 | .wcnt => 14 | .fifoen => 1 | .spien => 1

/-- The ones of a field, at bit 0: `2^width − 1`. -/
def bitsOnes (width : Nat) : Word := BitVec.ofNat 32 (2 ^ width - 1)

/-- MASK_F of a field of `width` bits from bit `lo` (R125). -/
def bitsMask (lo width : Nat) : Word := bitsOnes width <<< lo

/-- `get_F(v)` (R125). -/
def getBits (lo width : Nat) (v : Word) : Word := (v >>> lo) &&& bitsOnes width

/-- `v with F := x` (R12): `x` truncated to the field, every other bit of `v` kept. -/
def setBits (lo width : Nat) (v x : Word) : Word := (v &&& ~~~bitsMask lo width) ||| ((x <<< lo) &&& bitsMask lo width)

/-- MASK_F of a CONF field (R23, R125). -/
def ConfField.mask (f : ConfField) : Word := bitsMask f.lo f.width

/-- `get_F(v)` of a CONF field (R125). -/
def getField (f : ConfField) (v : Word) : Word := getBits f.lo f.width v

/-- `v with F := x` of a CONF field (R12, R125). -/
def setField (f : ConfField) (v x : Word) : Word := setBits f.lo f.width v x

/-- The function `f` of a CONF.UPDATE (R124): its field updates in order. -/
def applyUpdates (us : List FieldUpdate) (v : Word) : Word :=
  us.foldl (fun v u => setField u.field v u.value) v

/-- Bit index of a STAT flag (R27). -/
def StatFlag.bit : StatFlag → Nat
  | .rxrdy => 0 | .txrdy => 1 | .eot => 2 | .txfifo => 3 | .rxfifo => 4

/-- MASK_F of a STAT flag (R27, R125). -/
def StatFlag.mask (b : StatFlag) : Word := bitsMask b.bit 1

/-- `get_F(v)` of a STAT flag (R125). -/
def getFlag (b : StatFlag) (v : Word) : Word := getBits b.bit 1 v

/-- `v with F := x` of a STAT flag (R12, R125). -/
def setFlag (b : StatFlag) (v x : Word) : Word := setBits b.bit 1 v x

/-- Whether a STAT value has the flag set: `x[b] = 1` (R141). -/
def StatFlag.isSet (b : StatFlag) (v : Word) : Bool := v.getLsbD b.bit

/-- `CONF_INIT(W, c)` (R223): WL, CSIDX, and TXEN, FIFOEN, SPIEN cleared, over CONF_INIT_OTHER. -/
def confInit (w : BitVec 6) (c : BitVec 2) : Word :=
  applyUpdates [⟨.wl, wlValue w⟩, ⟨.csidx, c.zeroExtend 32⟩, ⟨.txen, 0#32⟩, ⟨.fifoen, 0#32⟩, ⟨.spien, 0#32⟩]
    Config.confInitOther

/-- The Assert update (R184). -/
def assertUpdate : List FieldUpdate := [⟨.spien, 1#32⟩]

/-- The De-assert update (R195). -/
def deassertUpdate : List FieldUpdate := [⟨.spien, 0#32⟩]

/-- The per-transfer update (R190): TRM, WL and CSIDX at once. -/
def transferUpdate (txp : Bool) (wl : BitVec 6) (cs : BitVec 2) : List FieldUpdate :=
  [⟨.trm, trmValue txp⟩, ⟨.wl, wlValue wl⟩, ⟨.csidx, cs.zeroExtend 32⟩]

end Sys2Proof
end

