-- ==== Sys2Proof/WellFormed.lean ====
section
/-!
DEFINITION. Which instructions are well-formed: the operand ranges of 30_encoding.md R102, R103 that the constructors'
types do not already give, and the operand domains of the primitives (R121 to R193).
-/
namespace Sys2Proof

/-- Override range and, where the override alone gives the unit size, the length's divisibility (R103). The
divisibility against the record's word length needs the record and is `Transfer.wellFormed`. -/
def XferArgs.wf (len : Word) (a : XferArgs) : Bool :=
  overrideLegal a.bpw && (a.bpw == 0#6 || len.toNat % (unitBytes a.bpw).toNat == 0)

/-- A field update inserts a value that fits its field (R12). -/
def FieldUpdate.wf (u : FieldUpdate) : Bool := u.value &&& ~~~bitsOnes u.field.width == 0#32

/-- Well-formedness of an instruction. -/
def Instr.wf : Instr → Bool
  | .configure _ _ bpw => wordLengthLegal bpw                       -- R102: BPW in 4..32
  | .release _ => true
  | .execute _ _ base => base.toNat % 4 == 0                        -- R102: ARG a multiple of 4
  | .xferTx _ len a => len != 0#32 && a.wf len                      -- R100: LEN ≠ 0
  | .xferRx len a => len != 0#32 && a.wf len
  | .xferSkip _ _ a => overrideLegal a.bpw
  | .regRead _ => true
  | .regWrite _ _ => true
  | .confUpdate us => us.all FieldUpdate.wf
  | .waitBit b => b == .rxrdy || b == .txrdy || b == .eot           -- R141
  | .pioRun t wl =>                                                 -- R157
    t.len != 0#32 && wordLengthLegal wl && t.len.toNat % (unitBytes wl).toNat == 0
  | .delay d => d != 0#16                                           -- R193: 1..65535
  | .yield => true

end Sys2Proof
end

