-- ==== Sys2Proof/Decode.lean ====
section
/-!
DEFINITION. The decoders and the encoder of 30_encoding.md: the command decoder, total on any (CMD, ARG) (R92 to R96,
R102, R110), the descriptor decoder, total on any 20 bytes (R98 to R100, R103, R110), and the words of an instruction.
The primitives have no command encoding (R106).
-/
namespace Sys2Proof

/-- Which command an ill-formed command word asks for, by its OPC (R92). -/
inductive CmdClass where
  | configure | release | execute
  deriving DecidableEq, Repr

/-- Why words do not decode. -/
inductive DecodeError where
  /-- OPC is 0 or 4..15 (R102). -/
  | reservedOpcode
  /-- A reserved bit of CMD is 1 (R102). -/
  | reservedBits (c : CmdClass)
  /-- ARG is not 0 where it must be (R96, R102). -/
  | reservedArg (c : CmdClass)
  /-- A reserved bit of CTRL is 1 (R103). -/
  | reservedCtrl
  /-- A nonzero length with neither buffer: no row of R100 (rejected by validation, V3). -/
  | noBuffers
  /-- Neither 2 words (format H) nor 5 (format T) (R91). -/
  | wrongLength
  deriving DecidableEq, Repr

/-- The command an error concerns, if any. -/
def DecodeError.cmdClass : DecodeError → Option CmdClass
  | .reservedBits c => some c
  | .reservedArg c => some c
  | .reservedOpcode => none
  | .reservedCtrl => none
  | .noBuffers => none
  | .wrongLength => none

/-- The five words of a transfer descriptor (R98). -/
structure Td where
  ctrl   : Word
  len    : Word
  txaddr : Word
  rxaddr : Word
  speed  : Word
  deriving DecidableEq, Repr

/-- A row of the opcode table: the words it takes have `word AND mask = pattern`. -/
structure Row where
  mask    : Word
  pattern : Word
  deriving DecidableEq, Repr

/-- Whether a word is one of the row's. -/
def Row.hits (r : Row) (w : Word) : Bool := w &&& r.mask == r.pattern

def Row.configure : Row := ⟨0xFFC0C00F#32, 0x00000001#32⟩
def Row.release   : Row := ⟨0xFFFFF00F#32, 0x00000002#32⟩
def Row.execute   : Row := ⟨0xFF00F00F#32, 0x00000003#32⟩
def Row.xferTx    : Row := ⟨0x0000C0FD#32, 0x00000001#32⟩
def Row.xferRx    : Row := ⟨0x0000C0FF#32, 0x00000002#32⟩
def Row.xferSkip  : Row := ⟨0x0000C0FC#32, 0x00000000#32⟩

/-- The rows that the command decoder tests on CMD (R93 to R95). -/
def Row.commands : List Row := [Row.configure, Row.release, Row.execute]

/-- PEER, CMD[11:4] (R92). -/
def cmdPeer (cmd : Word) : BitVec 8 := cmd.extractLsb' 4 8
/-- CS, CMD[13:12] (R93). -/
def cmdCs (cmd : Word) : BitVec 2 := cmd.extractLsb' 12 2
/-- BPW, CMD[21:16] (R93). -/
def cmdBpw (cmd : Word) : BitVec 6 := cmd.extractLsb' 16 6
/-- NXFER, CMD[23:16] (R95). -/
def cmdNxfer (cmd : Word) : BitVec 8 := cmd.extractLsb' 16 8
/-- OPC, CMD[3:0] (R92). -/
def cmdOpc (cmd : Word) : BitVec 4 := cmd.extractLsb' 0 4

/-- The class of a command word, by OPC alone (R92, R110). -/
def cmdClass (cmd : Word) : Option CmdClass :=
  if cmdOpc cmd = 1#4 then some .configure
  else if cmdOpc cmd = 2#4 then some .release
  else if cmdOpc cmd = 3#4 then some .execute
  else none

/-- The command decoder (R110). It rejects reserved opcodes, reserved bits and a reserved ARG; the operand ranges of
R102 (BPW, alignment of ARG) are checked by the operations, which answer the same ST_EINVAL. -/
def decodeCommand (cmd arg : Word) : Except DecodeError Instr :=
  if Row.configure.hits cmd then
    if arg = 0#32 then .ok (.configure (cmdPeer cmd) (cmdCs cmd) (cmdBpw cmd)) else .error (.reservedArg .configure)
  else if Row.release.hits cmd then
    if arg = 0#32 then .ok (.release (cmdPeer cmd)) else .error (.reservedArg .release)
  else if Row.execute.hits cmd then .ok (.execute (cmdPeer cmd) (cmdNxfer cmd) arg)
  else match cmdClass cmd with
    | some c => .error (.reservedBits c)
    | none => .error .reservedOpcode

/-- The abstract transfer of a descriptor (R98, R99). -/
def Td.transfer (d : Td) : Transfer where
  len    := d.len
  txp    := d.ctrl.getLsbD 0
  txaddr := d.txaddr
  rxp    := d.ctrl.getLsbD 1
  rxaddr := d.rxaddr
  bpw    := d.ctrl.extractLsb' 8 6
  speed  := d.speed
  delay  := d.ctrl.extractLsb' 16 16

/-- The reserved bits of CTRL are 0 (R99, R103): the mask of XFER.SKIP's row. -/
def Td.reservedClear (d : Td) : Bool := Row.xferSkip.hits d.ctrl

/-- The descriptor decoder (R100, R103, R110). -/
def decodeDescriptor (d : Td) : Except DecodeError Instr :=
  if d.reservedClear then
    match d.transfer.instr with
    | some i => .ok i
    | none => .error .noBuffers
  else .error .reservedCtrl

/-- Decoding of the words of one instruction: two for format H, five for format T (R91). -/
def decodeWords : List Word → Except DecodeError Instr
  | [cmd, arg] => decodeCommand cmd arg
  | [ctrl, len, txaddr, rxaddr, speed] => decodeDescriptor ⟨ctrl, len, txaddr, rxaddr, speed⟩
  | _ => .error .wrongLength

/-- Little-endian words of a list of bytes (R67); bytes short of a word are dropped. -/
def wordsOfBytes : List Byte → List Word
  | b0 :: b1 :: b2 :: b3 :: t => (b3 ++ b2 ++ b1 ++ b0 : BitVec 32) :: wordsOfBytes t
  | _ => []

/-- Decoding of bytes, total. -/
def decodeBytes (bs : List Byte) : Except DecodeError Instr :=
  if bs.length % 4 = 0 then decodeWords (wordsOfBytes bs) else .error .wrongLength

/-- The CMD word of CONFIGURE (R93). -/
def encodeConfigure (peer : BitVec 8) (cs : BitVec 2) (bpw : BitVec 6) : Word :=
  0#10 ++ bpw ++ 0#2 ++ cs ++ peer ++ 1#4

/-- The CMD word of RELEASE (R94). -/
def encodeRelease (peer : BitVec 8) : Word := 0#20 ++ peer ++ 2#4

/-- The CMD word of EXECUTE (R95). -/
def encodeExecute (peer nxfer : BitVec 8) : Word := 0#8 ++ nxfer ++ 0#4 ++ peer ++ 3#4

/-- The CTRL word of a descriptor (R99). -/
def encodeCtrl (txp rxp : Bool) (a : XferArgs) : Word :=
  a.delay ++ 0#2 ++ a.bpw ++ 0#6 ++ BitVec.ofBool rxp ++ BitVec.ofBool txp

/-- The five words of a descriptor (R98). -/
def encodeTd (txp rxp : Bool) (len : Word) (a : XferArgs) : List Word :=
  [encodeCtrl txp rxp a, len, a.txaddr, a.rxaddr, a.speed]

/-- The words of an instruction; a primitive has none (R106). -/
def encode : Instr → List Word
  | .configure peer cs bpw => [encodeConfigure peer cs bpw, 0#32]
  | .release peer => [encodeRelease peer, 0#32]
  | .execute peer nxfer base => [encodeExecute peer nxfer, base]
  | .xferTx rxp len a => encodeTd true rxp len a
  | .xferRx len a => encodeTd false true len a
  | .xferSkip txp rxp a => encodeTd txp rxp 0#32 a
  | .regRead _ => []
  | .regWrite _ _ => []
  | .confUpdate _ => []
  | .waitBit _ => []
  | .pioRun _ _ => []
  | .delay _ => []
  | .yield => []

/-- Whether an instruction has a binary encoding (formats H and T; R91, R106). -/
def Instr.encodable (i : Instr) : Bool := !(encode i).isEmpty

/-- Word `k` of an instruction whose bits are the low `nbits` bits of `w`, bit 0 the least significant bit of the first
word; every bit above is 0. -/
def tableWord (nbits w k : Nat) : Word := BitVec.ofNat 32 ((w % 2 ^ nbits) / 2 ^ (32 * k))

/-- The instruction's bits as a descriptor. -/
def tableTd (nbits w : Nat) : Td :=
  ⟨tableWord nbits w 0, tableWord nbits w 1, tableWord nbits w 2, tableWord nbits w 3, tableWord nbits w 4⟩

/-- What the bits of a table row are: a command where they are at most the two words of format H and decode as one,
else a descriptor where they decode as one (log 21), else a command that the engine answers ST_EINVAL. -/
def tableIsCommand (nbits w : Nat) : Bool :=
  (nbits ≤ 64 && (decodeCommand (tableWord nbits w 0) (tableWord nbits w 1)).toOption.isSome) ||
  (decodeDescriptor (tableTd nbits w)).toOption.isNone

/-- The instruction the decoders read from a table row's bits. -/
def decodeTableWord (nbits w : Nat) : Option Instr :=
  if tableIsCommand nbits w then (decodeCommand (tableWord nbits w 0) (tableWord nbits w 1)).toOption
  else (decodeDescriptor (tableTd nbits w)).toOption

end Sys2Proof
end

