-- ==== Sys2Proof/Machine/State.lean ====
section
/-!
DEFINITION. The state of the engine: everything 10_state.md names (INVENTORY.md, section State), the two stop reasons,
and the state after reset (10_state.md R55 to R57, 70_reset_and_hazards.md R280, R281).
-/
namespace Sys2Proof.Machine

/-- Status codes (60_exceptions.md R240). -/
inductive Status where
  | ok | einval | etimedout | eio | enomem
  deriving DecidableEq, Repr

/-- Result of the last WAIT.BIT (R40). -/
inductive WaitResult where
  | ok | timeout
  deriving DecidableEq, Repr

/-- W.outcome, the terminal state last reached (R45). -/
inductive Terminal where
  | none | completed | failed
  deriving DecidableEq, Repr

/-- The NREC = 4 record slots (R10, R32). -/
inductive Slot where
  | s0 | s1 | s2 | s3
  deriving DecidableEq, Repr

/-- One Controller-Device Association with its ghost shadow (R32, R36). -/
structure Rec where
  valid       : Bool
  peer        : BitVec 8
  base        : Word
  phys        : Word
  cs          : BitVec 2
  wordLen     : BitVec 6
  cacheValid  : Bool
  cache       : Word
  shadowValid : Bool
  shadow      : Word
  deriving DecidableEq, Repr

/-- The record table (R32). -/
structure Recs where
  r0 : Rec
  r1 : Rec
  r2 : Rec
  r3 : Rec
  deriving DecidableEq, Repr

/-- SEQ (R43, R198, R231), one value per event the engine can be about to emit. The two response states of CONFIGURE and
RELEASE carry the status they will respond with (log 13). `fetchDesc` (about to read the next descriptor word, R81) and
`rejCpl` (about to emit the optional `Cpl` of a rejection, R183) are the model's names for two such points that the table
of R43 does not name (log 2). `xferHead` is internal (R43): no step rests there (R44 b). -/
inductive SeqState where
  | idle
  | cfgWr | cfgRsp (st : Status)
  | relRsp (st : Status)
  | fetchDesc
  | rejCpl | rejRsp
  | assertWr | assertWait | assertLog
  | xferHead | xferConfWr | xferPio | xferDelay
  | deassertWr | finalCpl | finalRsp
  deriving DecidableEq, Repr

/-- PIO (R43, R167). -/
inductive PioState where
  | none
  | txWait | txMemRd | txWr
  | rxDummy | rxWait | rxRd | rxMemWr
  | eotWait | eotLog
  deriving DecidableEq, Repr

/-- WAIT (R43, R148). -/
inductive WaitState where
  | none | sample | poll | yield | final
  deriving DecidableEq, Repr

/-- DLY (R43, R193). -/
inductive DlyState where
  | none | sample | wait
  deriving DecidableEq, Repr

/-- Inside a CONF.UPDATE whose read of CONF went to the bus: its write is still to come (R16, R124). The model's own
component of the control state (log 11). -/
inductive UpdState where
  | none | write
  deriving DecidableEq, Repr

/-- The control state, which plays the part of a program counter (R43). -/
structure Ctl where
  seq  : SeqState
  pio  : PioState
  wait : WaitState
  dly  : DlyState
  upd  : UpdState
  deriving DecidableEq, Repr

/-- The working registers (R40): `wl` is W.W, `unit` W.U, `count` W.N, `nRet` W.n_ret. `descBase` (ARG of the EXECUTE
being accepted) and `words` (the descriptor words read so far, oldest first) are the model's own (log 2). -/
structure Work where
  slot    : Slot
  msg     : List Transfer
  n       : BitVec 8
  xi      : BitVec 8
  status  : Status
  actual  : Word
  v       : Word
  wl      : BitVec 6
  unit    : BitVec 3
  count   : Word
  c       : Word
  u       : Word
  bit     : StatFlag
  t0      : Nat
  s       : Word
  wres    : WaitResult
  nRet    : Word
  outcome : Terminal
  descBase : Word
  words   : List Word
  deriving DecidableEq, Repr

/-- The two log events (R48). -/
inductive LogKind where
  | assertEotTimeout | postEotTimeout
  deriving DecidableEq, Repr

/-- The events of 00_scope.md R16. A window access carries the byte address put on the bus (R62) beside the offset. -/
inductive Event where
  | busRd (addr off val : Word)
  | busWr (addr off val : Word)
  | memRd (addr : Word) (n : Nat) (val : Word)
  | memWr (addr : Word) (n : Nat) (val : Word)
  | yield
  | sample
  | delayDone (d : BitVec 16)
  | log (k : LogKind)
  | cpl (st : Status) (actual : Word)
  | rsp (st : Status) (handle : BitVec 2)
  deriving DecidableEq, Repr

/-- A command on the command port (R50). -/
structure Command where
  cmd : Word
  arg : Word
  deriving DecidableEq, Repr

/-- Buffer memory (20_memory.md R63): the listed bytes, addresses strictly rising, none equal to the unlisted value. -/
abbrev Mem := List Host.Cell

/-- Why the machine stops with a fault. -/
inductive Fault where
  /-- Raised by an operation on a record slot (R121, R122, R141, R157: "record slot `s` with `REC[s].valid = 1`") whose
  slot is not valid: its fields hold no value (R57, U14). Safe. Unreachable from reset. -/
  | recordNotValid
  /-- Raised by the coherency checker when a step makes COH_OK false (R128, R129). Safe. Unreachable from reset. -/
  | coherencyViolation
  deriving DecidableEq, Repr

/-- Why the machine refuses to go on. -/
inductive Refusal where
  /-- An instruction with no meaning yet (exec's arms only). Safe. -/
  | notModelled (mnemonic : String)
  /-- Raised by the step when the host attached a window whose base is not a multiple of 8 (R68, U11). Safe. -/
  | misalignedWindow
  /-- Raised by the step when a command is presented before the host supplied the window (R52, R284). Safe. -/
  | notAttached
  deriving DecidableEq, Repr

/-- The state. The last five fields are the model's own (INVENTORY.md, section State). -/
structure State where
  ctl         : Ctl
  recs        : Recs
  w           : Work
  hwConf      : Word
  hwConfValid : Bool
  win         : Window
  windowBase  : Word
  windowPhys  : Word
  now         : Nat
  mem         : Mem
  port        : Option Command
  attached    : Bool
  ret         : Word
  trace       : List Event
  inputs      : List Input
  drawn       : Nat
  deriving DecidableEq, Repr

/-- The answer of one step. -/
abbrev Result := Host.Outcome State Fault Refusal

/-- A record slot after reset (R55): not valid; every other field DESIGN CHOICE 0 (log 7), unreadable while not valid. -/
def Rec.reset : Rec := ⟨false, 0#8, 0#32, 0#32, 0#2, 0#6, false, 0#32, false, 0#32⟩

/-- The control state after reset (R55). -/
def Ctl.reset : Ctl := ⟨.idle, .none, .none, .none, .none⟩

/-- The working registers after reset: W.outcome NONE (R55), the rest DESIGN CHOICE (log 8). -/
def Work.reset : Work where
  slot := .s0
  msg := []
  n := 0#8
  xi := 0#8
  status := .ok
  actual := 0#32
  v := 0#32
  wl := 0#6
  unit := 0#3
  count := 0#32
  c := 0#32
  u := 0#32
  bit := .rxrdy
  t0 := 0
  s := 0#32
  wres := .ok
  nRet := 0#32
  outcome := .none
  descBase := 0#32
  words := []

/-- The machine right after reset (R55 to R57, R280, R281; logs 3 to 10). -/
def State.reset : State where
  ctl := Ctl.reset
  recs := ⟨Rec.reset, Rec.reset, Rec.reset, Rec.reset⟩
  w := Work.reset
  hwConf := 0#32
  hwConfValid := false
  win := ⟨0#32, 0#32, 0#32, 0#32, 0#32⟩
  windowBase := 0#32
  windowPhys := 0#32
  now := 0
  mem := []
  port := none
  attached := false
  ret := 0#32
  trace := []
  inputs := []
  drawn := 0

end Sys2Proof.Machine
end

