-- ==== Sys2Proof/Machine/Ops.lean ====
section
/-!
DEFINITION. The named operations over the state: field updates, the record table, buffer memory (20_memory.md R73, R74),
the window bus (R60, R62, R70), the Register Interface (40_register_interface.md R121 to R124), and, in place of taking
an exception and returning from one, the error exits of 60_exceptions.md R254 and the response that closes a command
(R257).
-/
namespace Sys2Proof.Machine

/-! ## Field updates -/

def State.setCtl (s : State) (c : Ctl) : State := { s with ctl := c }
def State.setSeq (s : State) (q : SeqState) : State := { s with ctl := { s.ctl with seq := q } }
def State.setPio (s : State) (p : PioState) : State := { s with ctl := { s.ctl with pio := p } }
def State.setWait (s : State) (x : WaitState) : State := { s with ctl := { s.ctl with wait := x } }
def State.setDly (s : State) (d : DlyState) : State := { s with ctl := { s.ctl with dly := d } }
def State.setUpd (s : State) (x : UpdState) : State := { s with ctl := { s.ctl with upd := x } }
def State.setRecs (s : State) (r : Recs) : State := { s with recs := r }
def State.setW (s : State) (w : Work) : State := { s with w := w }
def State.setWin (s : State) (x : Window) : State := { s with win := x }
def State.setHwConf (s : State) (v : Word) : State := { s with hwConf := v, hwConfValid := true }
def State.setMem (s : State) (m : Mem) : State := { s with mem := m }
def State.setPort (s : State) (p : Option Command) : State := { s with port := p }
def State.setRet (s : State) (v : Word) : State := { s with ret := v }

/-- Emit one event (R16); the trace is kept newest first. -/
def State.emit (s : State) (e : Event) : State := { s with trace := e :: s.trace }

/-! ## The record table (10_state.md R32 to R34) -/

/-- All slots, lowest first. -/
def Slot.all : List Slot := [.s0, .s1, .s2, .s3]

/-- The slot index as the handle of a response (R51, R64). -/
def Slot.handle : Slot → BitVec 2
  | .s0 => 0#2 | .s1 => 1#2 | .s2 => 2#2 | .s3 => 3#2

/-- `REC[k]` (R13). -/
def Recs.get (rs : Recs) : Slot → Rec
  | .s0 => rs.r0 | .s1 => rs.r1 | .s2 => rs.r2 | .s3 => rs.r3

/-- `REC[k] <- r` (R13). -/
def Recs.set (rs : Recs) (k : Slot) (r : Rec) : Recs :=
  match k with
  | .s0 => { rs with r0 := r }
  | .s1 => { rs with r1 := r }
  | .s2 => { rs with r2 := r }
  | .s3 => { rs with r3 := r }

/-- `lookup(p)` (R34): the slot whose valid record belongs to the peer. -/
def Recs.lookup (rs : Recs) (p : BitVec 8) : Option Slot :=
  Slot.all.find? (fun k => (rs.get k).valid && (rs.get k).peer == p)

/-- The lowest slot that is not valid (R225). -/
def Recs.free (rs : Recs) : Option Slot := Slot.all.find? (fun k => !(rs.get k).valid)

/-- The record of the slot the command in progress runs on: `REC[W.slot]`. -/
def State.record (s : State) : Rec := s.recs.get s.w.slot

/-- `REC[W.slot] <- r`. -/
def State.setRec (s : State) (r : Rec) : State := s.setRecs (s.recs.set s.w.slot r)

/-- An operation on `REC[W.slot]` has a meaning only where that record is valid (R121, U14). -/
def State.onRecord (s : State) (t : State) : Result :=
  if s.record.valid then .next t else .fault .recordNotValid

/-- Record creation (R222): cache UNSET, shadow unset, base and phys copied from the controller's. -/
def createRecord (s : State) (k : Slot) (peer : BitVec 8) : State :=
  s.setRecs (s.recs.set k { s.recs.get k with
    valid := true, peer := peer, base := s.windowBase, phys := s.windowPhys,
    cacheValid := false, shadowValid := false })

/-! ## Buffer memory (20_memory.md R63, R66, R73, R74) -/

/-- What an address that is not listed reads as (log 6). -/
def Mem.unlisted : Byte := 0#8

/-- The byte at an address. -/
def Mem.read : Mem → Nat → Byte
  | [], _ => Mem.unlisted
  | (k, b) :: t, a => if k = a then b else Mem.read t a

/-- Store one byte, keeping the canonical form. -/
def Mem.write : Mem → Nat → Byte → Mem
  | [], a, b => if b = Mem.unlisted then [] else [(a, b)]
  | (k, c) :: t, a, b =>
    if a < k then (if b = Mem.unlisted then (k, c) :: t else (a, b) :: (k, c) :: t)
    else if a = k then (if b = Mem.unlisted then t else (a, b) :: t)
    else (k, c) :: Mem.write t a b

/-- The canonical form: addresses strictly rising and below 2^32, no byte equal to the unlisted value. -/
abbrev Mem.wf (m : Mem) : Prop :=
  m.Pairwise (fun x y => x.1 < y.1) ∧ ∀ c ∈ m, c.2 ≠ Mem.unlisted ∧ c.1 < 2 ^ 32

/-- `MemRead(a, n)` without its event (R73): little-endian, addresses modulo 2^32. -/
def Mem.readLE (m : Mem) (a : Word) : Nat → Word
  | 0 => 0#32
  | n + 1 => (Mem.readLE m (a + 1#32) n <<< 8) ||| (Mem.read m a.toNat).zeroExtend 32

/-- `MemWrite(a, n, v)` without its event (R74). -/
def Mem.writeLE (m : Mem) (a v : Word) : Nat → Mem
  | 0 => m
  | n + 1 => Mem.writeLE (Mem.write m a.toNat (v.truncate 8)) (a + 1#32) (v >>> 8) n

/-- The low `8n` bits of a word (R74, R160). -/
def lowBytes (n : Nat) (v : Word) : Word := v &&& BitVec.ofNat 32 (2 ^ (8 * n) - 1)

/-- `MemRead(a, n)` (R73): the value is returned in `ret`, the event emitted, MEM unchanged. -/
def memRead (a : Word) (n : Nat) (s : State) : State :=
  (s.setRet (s.mem.readLE a n)).emit (.memRd a n (s.mem.readLE a n))

/-- `MemWrite(a, n, v)` (R74). -/
def memWrite (a : Word) (n : Nat) (v : Word) (s : State) : State :=
  (s.setMem (s.mem.writeLE a v n)).emit (.memWr a n (lowBytes n v))

/-! ## The window bus (R60, R62, R70) -/

/-- What a window register shows to a read. -/
def readWindow (w : Window) : RegId → Word
  | .conf => w.conf | .stat => w.stat | .fctl => w.fctl | .txd => w.txd | .rxd => w.rxd

/-- A window register after a write to it. -/
def writeWindow (w : Window) (r : RegId) (v : Word) : Window :=
  match r with
  | .conf => { w with conf := v }
  | .stat => { w with stat := v }
  | .fctl => { w with fctl := v }
  | .txd  => { w with txd := v }
  | .rxd  => { w with rxd := v }

/-- The bus address of a register access: the base copied into the record, plus the offset (R62), 32 bits
(BUS_ADDR_WIDTH). DESIGN CHOICE (log 30): past 2^32 it wraps; the spec states wrap-around only for MEM. -/
def State.busAddr (s : State) (r : RegId) : Word := s.record.base + r.offset

/-- `BusRead`: the value ENV supplies now, returned in `ret` (R70). -/
def busRead (r : RegId) (s : State) : State :=
  (s.setRet (readWindow s.win r)).emit (.busRd (s.busAddr r) r.offset (readWindow s.win r))

/-- `BusWrite`: one whole 32-bit write (R65, R72). -/
def busWrite (r : RegId) (v : Word) (s : State) : State :=
  (s.setWin (writeWindow s.win r v)).emit (.busWr (s.busAddr r) r.offset v)

/-! ## The Register Interface (R121 to R124) -/

/-- REG.READ on W.slot (R121): the cache for CONF if it is set, else one bus read; the word is returned in `ret`. -/
def regRead (r : RegId) (s : State) : State :=
  if r = .conf ∧ s.record.cacheValid = true then s.setRet s.record.cache else busRead r s

/-- The cache, the shadow and HW_CONF after a write of CONF through W.slot (R122). -/
def cacheWrite (v : Word) (s : State) : State :=
  (s.setRec { s.record with cache := v, cacheValid := true, shadow := v, shadowValid := true }).setHwConf v

/-- REG.WRITE on W.slot (R122): write-through for CONF, in the same step. -/
def regWrite (r : RegId) (v : Word) (s : State) : State :=
  if r = .conf then cacheWrite v (busWrite r v s) else busWrite r v s

/-- The first half of CONF.UPDATE (R124): read CONF, modify it in W.v. -/
def confFetch (us : List FieldUpdate) (s : State) : State :=
  let t := regRead .conf s
  t.setW { t.w with v := applyUpdates us t.ret }

/-- The second half of CONF.UPDATE (R124): write W.v. -/
def confStore (s : State) : State := regWrite .conf s.w.v s

/-- The next step of CONF.UPDATE on W.slot (R124), one event each (R16): with the cache set the read emits none and one
step does it all; with the cache UNSET the read of the bus is a step of its own and the write is the next. -/
def confUpdate (us : List FieldUpdate) (s : State) : State :=
  match s.ctl.upd with
  | .none => if s.record.cacheValid then confStore (confFetch us s) else (confFetch us s).setUpd .write
  | .write => (confStore s).setUpd .none

/-- A row that is a CONF.UPDATE: one step of it and, where it wrote, on by `next`. -/
def updateThen (us : List FieldUpdate) (next : State → State) (s : State) : State :=
  let t := confUpdate us s
  if t.ctl.upd = .none then next t else t

/-! ## Error exits and the response (R254, R257) -/

/-- The non-sequential exits of R254: (a) rejection, (b) Assert timeout, (c) short transfer, (d) out of a PIO loop. -/
inductive Exit where
  | reject | assertTimeout | shortTransfer | pioBreak
  deriving DecidableEq, Repr

/-- Taking an error exit (R254). Nothing is saved and nothing is vectored (R255): control goes to the fixed place, and
only (c) changes a register, W.status. (W.outcome <- FAILED of (a) is latched with the response, R198; the completion of
a rejected message comes first where COMPLETE_ON_REJECT asks for one, R183.) -/
def State.takeExit (s : State) : Exit → State
  | .reject => s.setSeq (if Config.completeOnReject then .rejCpl else .rejRsp)
  | .assertTimeout => s.setSeq .assertLog
  | .shortTransfer => (s.setW { s.w with status := .eio }).setSeq .deassertWr
  | .pioBreak => (s.setPio .eotWait).setWait .sample

/-- The response that closes a command and returns to IDLE (R44, R51, R257). -/
def State.respond (s : State) (st : Status) (handle : BitVec 2) : State := (s.emit (.rsp st handle)).setSeq .idle

/-- Latching W.outcome (R45). -/
def State.setOutcome (s : State) (o : Terminal) : State := s.setW { s.w with outcome := o }

/-- The terminal state a reported status latches (R45). -/
def Status.terminal (st : Status) : Terminal := if st = .ok then .completed else .failed

/-- Numbers of the status codes (R240). -/
def Status.code : Status → BitVec 4
  | .ok => 0#4 | .einval => 1#4 | .etimedout => 2#4 | .eio => 3#4 | .enomem => 4#4

/-- The word of a response (R107): status in [3:0], handle in [9:8]. -/
def rspWord (st : Status) (handle : BitVec 2) : Word := 0#22 ++ handle ++ 0#4 ++ st.code

/-- The two words of a completion (R107). -/
def cplWords (st : Status) (actual : Word) : Word × Word := (0#28 ++ st.code, actual)

/-- The words an event drives on the response and completion ports (R107). -/
def Event.portWords : Event → List Word
  | .rsp st h => [rspWord st h]
  | .cpl st n => [(cplWords st n).1, (cplWords st n).2]
  | .busRd _ _ _ => []
  | .busWr _ _ _ => []
  | .memRd _ _ _ => []
  | .memWr _ _ _ => []
  | .yield => []
  | .sample => []
  | .delayDone _ => []
  | .log _ => []

end Sys2Proof.Machine
end

