-- ==== Sys2Proof/Machine/Checker.lean ====
section
/-!
DEFINITION. The cached register coherency checker (40_register_interface.md R126 to R129): COH_OK over the ghost state,
global coherence, and the fault a violation is.
-/
namespace Sys2Proof.Machine

/-- The checker's condition on one slot (R128). -/
def Rec.coherent (r : Rec) : Bool :=
  !r.valid || (r.cacheValid == r.shadowValid && (!r.cacheValid || r.cache == r.shadow))

/-- COH_OK (R128). -/
def State.cohOk (s : State) : Bool :=
  s.recs.r0.coherent && s.recs.r1.coherent && s.recs.r2.coherent && s.recs.r3.coherent

/-- `globally_coherent(k)` (R127). -/
def State.globallyCoherent (s : State) (k : Slot) : Bool :=
  (s.recs.get k).cacheValid && s.hwConfValid && (s.recs.get k).cache == s.hwConf

/-- The checker at the step boundary (R129): a step that makes COH_OK false is a fault. -/
def checkCoherency : Result → Result
  | .next s => if s.cohOk then .next s else .fault .coherencyViolation
  | .fault f => .fault f
  | .refused r => .refused r

end Sys2Proof.Machine
end

