-- ==== Sys2Proof/Machine/DeviceSetup.lean ====
section
/-!
DEFINITION. Per-Device Setup: CONFIGURE and RELEASE (44_device_setup.md R220 to R231), one step per row of the table of
R231. A command presented while the engine is busy is held by the host (R50): its meaning then leaves the state alone.
-/
namespace Sys2Proof.Machine

/-- The record and the state that a successful CONFIGURE leaves at acceptance (R221, R226, R231): `cs` and `word_len`
written, W.slot latched, the CONF write next. -/
def configureSlot (k : Slot) (cs : BitVec 2) (bpw : BitVec 6) (s : State) : State :=
  ((s.setRecs (s.recs.set k { s.recs.get k with cs := cs, wordLen := bpw })).setW { s.w with slot := k }).setSeq .cfgWr

/-- Acceptance of CONFIGURE (R221, R225, R231): form, lookup, allocation and creation. -/
def acceptConfigure (peer : BitVec 8) (cs : BitVec 2) (bpw : BitVec 6) (s : State) : State :=
  if wordLengthLegal bpw then
    match s.recs.lookup peer with
    | some k => configureSlot k cs bpw s
    | none =>
      match s.recs.free with
      | some k => configureSlot k cs bpw (createRecord s k peer)
      | none => s.setSeq (.cfgRsp .enomem)
  else s.setSeq (.cfgRsp .einval)

/-- Row CFG_WR (R223, R231): the initial Configuration value, through REG.WRITE. -/
def configureWrite (s : State) : State :=
  let v := confInit s.record.wordLen s.record.cs
  (regWrite .conf v (s.setW { s.w with v := v })).setSeq (.cfgRsp .ok)

/-- The handle of CONFIGURE's response (R51, R221): the slot on success, else 0. -/
def configureHandle (st : Status) (s : State) : BitVec 2 := if st = .ok then s.w.slot.handle else 0#2

/-- The rows of CONFIGURE after acceptance (R231). -/
def resumeConfigure (s : State) : Result :=
  match s.ctl.seq with
  | .cfgWr => s.onRecord (configureWrite s)
  | .cfgRsp st => .next (s.respond st (configureHandle st s))
  | .idle | .relRsp _ | .fetchDesc | .rejCpl | .rejRsp | .assertWr | .assertWait | .assertLog | .xferHead | .xferConfWr
  | .xferPio | .xferDelay | .deassertWr | .finalCpl | .finalRsp => .next s

/-- CONFIGURE (R221). -/
def execConfigure (peer : BitVec 8) (cs : BitVec 2) (bpw : BitVec 6) (s : State) : Result :=
  if s.ctl.seq = .idle then .next (acceptConfigure peer cs bpw s) else resumeConfigure s

/-- Acceptance of RELEASE (R228, R230, R231): the record ceases to exist, or there is none. -/
def acceptRelease (peer : BitVec 8) (s : State) : State :=
  match s.recs.lookup peer with
  | some k => (s.setRecs (s.recs.set k { s.recs.get k with valid := false })).setSeq (.relRsp .ok)
  | none => s.setSeq (.relRsp .einval)

/-- The row of RELEASE after acceptance (R231). -/
def resumeRelease (s : State) : Result :=
  match s.ctl.seq with
  | .relRsp st => .next (s.respond st 0#2)
  | .idle | .cfgWr | .cfgRsp _ | .fetchDesc | .rejCpl | .rejRsp | .assertWr | .assertWait | .assertLog | .xferHead
  | .xferConfWr | .xferPio | .xferDelay | .deassertWr | .finalCpl | .finalRsp => .next s

/-- RELEASE (R228). -/
def execRelease (peer : BitVec 8) (s : State) : Result :=
  if s.ctl.seq = .idle then .next (acceptRelease peer s) else resumeRelease s

end Sys2Proof.Machine
end

