-- ==== Sys2Proof/Machine/RegisterInterface.lean ====
section
/-!
DEFINITION. The three primitives of the Register Interface (40_register_interface.md R121, R122, R124), each on the
record of W.slot.
-/
namespace Sys2Proof.Machine

/-- REG.READ (R121). -/
def execRegRead (r : RegId) (s : State) : Result := s.onRecord (regRead r s)

/-- REG.WRITE (R122). -/
def execRegWrite (r : RegId) (v : Word) (s : State) : Result := s.onRecord (regWrite r v s)

/-- CONF.UPDATE (R124). -/
def execConfUpdate (us : List FieldUpdate) (s : State) : Result := s.onRecord (confUpdate us s)

end Sys2Proof.Machine
end

