-- ==== Sys2Proof/Machine/StatusWait.lean ====
section
/-!
DEFINITION. The Status Wait and the delay: WAIT.BIT and YIELD (41_status_wait.md R141 to R148) and DELAY
(43_message_sequencer.md R193). Each step is one row of the control tables.
-/
namespace Sys2Proof.Machine

/-- The deadline of the current wait has expired (R142). -/
def State.expired (s : State) : Bool := Config.waitTimeoutTicks ≤ s.now - s.w.t0

/-- W_SAMPLE (R148): latch `now` and the bit. -/
def waitSample (b : StatFlag) (s : State) : State :=
  ((s.setW { s.w with bit := b, t0 := s.now }).emit .sample).setWait .poll

/-- One read of STAT into W.s (R141). -/
def readStat (s : State) : State :=
  let t := regRead .stat s
  t.setW { t.w with s := t.ret }

/-- The wait returns (R141): the result is latched and control goes back to the caller. -/
def waitReturn (r : WaitResult) (s : State) : State := (s.setW { s.w with wres := r }).setWait .none

/-- W_POLL (R148): the bit is tested first, then the deadline (R253). -/
def waitPoll (b : StatFlag) (s : State) : State :=
  let t := readStat s
  if b.isSet t.w.s then waitReturn .ok t
  else if t.expired then t.setWait .final
  else t.setWait .yield

/-- W_FINAL (R143): exactly one final read decides. -/
def waitFinal (b : StatFlag) (s : State) : State :=
  let t := readStat s
  waitReturn (if b.isSet t.w.s then .ok else .timeout) t

/-- YIELD (R145): one event, no other effect. -/
def yieldOp (s : State) : State := s.emit .yield

/-- The next step of WAIT.BIT (R148); a wait that is not running starts. -/
def waitStep (b : StatFlag) (s : State) : State :=
  match s.ctl.wait with
  | .none => waitSample b s
  | .sample => waitSample b s
  | .poll => waitPoll b s
  | .yield => (yieldOp s).setWait .poll
  | .final => waitFinal b s

/-- D_SAMPLE (R193): latch `now`. -/
def delaySample (s : State) : State := ((s.setW { s.w with t0 := s.now }).emit .sample).setDly .wait

/-- The next step of DELAY (R193). The `DelayDone` step is enabled only once `d` ticks have passed; until then the
engine has no step and only Time goes on. -/
def delayStep (d : BitVec 16) (s : State) : State :=
  match s.ctl.dly with
  | .none => delaySample s
  | .sample => delaySample s
  | .wait => if d.toNat ≤ s.now - s.w.t0 then (s.emit (.delayDone d)).setDly .none else s

/-- WAIT.BIT (R141). -/
def execWaitBit (b : StatFlag) (s : State) : Result := s.onRecord (waitStep b s)

/-- YIELD (R145). -/
def execYield (s : State) : Result := .next (yieldOp s)

/-- DELAY (R193). -/
def execDelay (d : BitVec 16) (s : State) : Result := .next (delayStep d s)

end Sys2Proof.Machine
end

