-- ==== Sys2Proof/Machine/PioLoop.lean ====
section
/-!
DEFINITION. The PIO Transfer Loop: PIO.RUN (42_pio_transfer.md R155 to R169), one step per row of the table of R167.
-/
namespace Sys2Proof.Machine

/-- Entering a row that waits: the wait starts by latching the time (R43). -/
def enterPioWait (p : PioState) (s : State) : State := (s.setPio p).setWait .sample

/-- The state a PIO.RUN starts in (R167, row entry), given the transfer and the unit count. -/
def pioStart (t : Transfer) (count : Word) : PioState :=
  if t.txp then (if count = 0#32 then .eotWait else .txWait)
  else if t.rxp then (if count = 0#32 then .eotWait else .rxDummy)
  else .eotWait

/-- The state after unit `c` is done (R167). -/
def pioNext (first : PioState) (c count : Word) : PioState := if c < count then first else .eotWait

/-- Go to a PIO state, starting its wait if it waits. -/
def gotoPio (p : PioState) (s : State) : State :=
  if p = .txWait ∨ p = .rxWait ∨ p = .eotWait then enterPioWait p s else (s.setPio p)

/-- Row entry (R157, R167): W.U, W.N, W.c. -/
def pioEntry (t : Transfer) (wl : BitVec 6) (s : State) : State :=
  let u := unitBytes wl
  let count := unitCount t.len u
  gotoPio (pioStart t count) (s.setW { s.w with unit := u, count := count, c := 0#32 })

/-- Row TX_MEMRD (R158): read the unit from the source buffer. -/
def pioTxMemRd (t : Transfer) (s : State) : State :=
  let r := memRead (unitAddr t.txaddr s.w.c s.w.unit) s.w.unit.toNat s
  (r.setW { r.w with u := r.ret }).setPio .txWr

/-- Counting a unit and going on (R157): `c <- c + 1`. -/
def pioCount (first : PioState) (s : State) : State :=
  let t := s.setW { s.w with c := s.w.c + 1#32 }
  gotoPio (pioNext first t.w.c t.w.count) t

/-- Row TX_WR (R158, R159): write the unit, zero-extended, to TXD. -/
def pioTxWr (s : State) : State := pioCount .txWait (regWrite .txd s.w.u s)

/-- Row RX_DUMMY (R160): write 0 to TXD. -/
def pioRxDummy (s : State) : State := gotoPio .rxWait (regWrite .txd 0#32 s)

/-- Row RX_RD (R160): read RXD into W.u. -/
def pioRxRd (s : State) : State :=
  let r := regRead .rxd s
  (r.setW { r.w with u := r.ret }).setPio .rxMemWr

/-- Row RX_MEMWR (R160): store the low bytes of the unit in the destination buffer. -/
def pioRxMemWr (t : Transfer) (s : State) : State :=
  pioCount .rxDummy (memWrite (unitAddr t.rxaddr s.w.c s.w.unit) s.w.unit.toNat s.w.u s)

/-- The run returns the bytes processed (R163). -/
def pioReturn (s : State) : State :=
  (s.setW { s.w with nRet := bytesProcessed s.w.c s.w.unit }).setPio .none

/-- A row that waits on `b`: one step of WAIT.BIT, and where it returned, on to `ok` or the exit taken on TIMEOUT. -/
def pioWait (b : StatFlag) (ok timeout : State → State) (s : State) : State :=
  let t := waitStep b s
  if t.ctl.wait = .none then (if t.w.wres = .ok then ok t else timeout t) else t

/-- The next step of PIO.RUN (R157, R167); a run that is not going on starts. -/
def pioStep (t : Transfer) (wl : BitVec 6) (s : State) : State :=
  match s.ctl.pio with
  | .none => pioEntry t wl s
  | .txWait => pioWait .txrdy (State.setPio · .txMemRd) (State.takeExit · .pioBreak) s
  | .txMemRd => pioTxMemRd t s
  | .txWr => pioTxWr s
  | .rxDummy => pioRxDummy s
  | .rxWait => pioWait .rxrdy (State.setPio · .rxRd) (State.takeExit · .pioBreak) s
  | .rxRd => pioRxRd s
  | .rxMemWr => pioRxMemWr t s
  | .eotWait => pioWait .eot pioReturn (State.setPio · .eotLog) s
  | .eotLog => pioReturn (s.emit (.log .postEotTimeout))

/-- PIO.RUN (R157). -/
def execPioRun (t : Transfer) (wl : BitVec 6) (s : State) : Result := s.onRecord (pioStep t wl s)

end Sys2Proof.Machine
end

