-- ==== Sys2Proof/Machine/Transfers.lean ====
section
/-!
DEFINITION. The per-transfer loop and the three transfer kinds XFER.SKIP, XFER.TX and XFER.RX (43_message_sequencer.md
R186 to R194), one step per row of the table of R198. Row XFER_HEAD is internal (R43): what it decides is evaluated in the
step of the event before it (`selectTransfer`, R44 b), so no step rests there; a state placed there falls through to its
next event.
-/
namespace Sys2Proof.Machine

/-- The transfers still to run: W.xi to W.n - 1 of W.msg (R180, R186). -/
def State.remaining (s : State) : List Transfer := (s.w.msg.take s.w.n.toNat).drop s.w.xi.toNat

/-- The transfer W.xi, unless the list is exhausted (R186, R198). -/
def State.currentTransfer (s : State) : Option Transfer := s.remaining.head?

/-- Passing to the next transfer: W.xi + 1 (R186). -/
def countTransfer (s : State) : State := s.setW { s.w with xi := s.w.xi + 1#8 }

/-- XFER_HEAD for a nonzero length (R194, R198): the effective word length; the Configuration update is next. -/
def transferHead (t : Transfer) (s : State) : State :=
  (s.setW { s.w with wl := effectiveWordLength t.bpw s.record.wordLen }).setSeq .xferConfWr

/-- The delay after a transfer is next (R193, R198). -/
def enterDelay (s : State) : State := (s.setSeq .xferDelay).setDly .sample

/-- XFER_HEAD on the transfers still to run (R198): exhausted, on to De-assert; a transfer of length 0 and no delay is
passed over (R187); else the point before the transfer's first event. -/
def selectFrom : List Transfer → State → State
  | [], s => s.setSeq .deassertWr
  | t :: ts, s =>
    if t.len = 0#32 then (if t.delay = 0#16 then selectFrom ts (countTransfer s) else enterDelay s)
    else transferHead t s

/-- XFER_HEAD (R43, R44 b, R198). -/
def selectTransfer (s : State) : State := selectFrom s.remaining s

/-- The transfer is finished: on to the next one (R186, R198). -/
def nextTransfer (s : State) : State := selectTransfer (countTransfer s)

/-- The post-transfer delay, if there is one, then the next transfer (R193, R198). -/
def afterTransfer (t : Transfer) (s : State) : State := if t.delay = 0#16 then nextTransfer s else enterDelay s

/-- Row XFER_DELAY (R198). -/
def transferDelay (t : Transfer) (s : State) : State :=
  let r := delayStep t.delay s
  if r.ctl.dly = .none then nextTransfer r else r

/-- Row XFER_CONF_WR (R190, R198): the per-transfer Configuration update; PIO.RUN is entered in the step of its write. -/
def transferConfWr (t : Transfer) (s : State) : State :=
  updateThen (transferUpdate t.txp s.w.wl s.record.cs) (fun r => pioEntry t r.w.wl (r.setSeq .xferPio)) s

/-- What follows PIO.RUN (R191, R192): accumulate, then the short-transfer test. -/
def transferAccount (t : Transfer) (s : State) : State :=
  let r := s.setW { s.w with actual := s.w.actual + s.w.nRet }
  if r.w.nRet = t.len then afterTransfer t r else r.takeExit .shortTransfer

/-- Row XFER_PIO (R198): one step of PIO.RUN, and where it returned, the account. -/
def transferPio (t : Transfer) (s : State) : State :=
  let r := pioStep t s.w.wl s
  if r.ctl.pio = .none then transferAccount t r else r

/-- The next step of a transfer of nonzero length; a transfer that is not going on starts at its head. -/
def dataTransferStep (t : Transfer) (s : State) : State :=
  match s.ctl.seq with
  | .xferConfWr => transferConfWr t s
  | .xferPio => transferPio t s
  | .xferDelay => transferDelay t s
  | .xferHead | .idle | .cfgWr | .cfgRsp _ | .relRsp _ | .fetchDesc | .rejCpl | .rejRsp | .assertWr | .assertWait
  | .assertLog | .deassertWr | .finalCpl | .finalRsp => transferConfWr t (transferHead t s)

/-- The next step of a transfer of length 0 (R187): only its delay, if it has one. -/
def skipTransferStep (t : Transfer) (s : State) : State :=
  match s.ctl.seq with
  | .xferDelay => transferDelay t s
  | .xferHead | .xferConfWr | .xferPio | .idle | .cfgWr | .cfgRsp _ | .relRsp _ | .fetchDesc | .rejCpl | .rejRsp
  | .assertWr | .assertWait | .assertLog | .deassertWr | .finalCpl | .finalRsp =>
    if t.delay = 0#16 then nextTransfer s else transferDelay t (enterDelay s)

/-- One step of the loop body on a transfer (R180 step 3, R186). -/
def transferStep (t : Transfer) (s : State) : Result :=
  if t.len = 0#32 then .next (skipTransferStep t s) else s.onRecord (dataTransferStep t s)

/-- XFER.TX (R188). -/
def execXferTx (rxp : Bool) (len : Word) (a : XferArgs) (s : State) : Result := transferStep (txTransfer rxp len a) s

/-- XFER.RX (R189). -/
def execXferRx (len : Word) (a : XferArgs) (s : State) : Result := transferStep (rxTransfer len a) s

/-- XFER.SKIP (R187). -/
def execXferSkip (txp rxp : Bool) (a : XferArgs) (s : State) : Result := transferStep (skipTransfer txp rxp a) s

end Sys2Proof.Machine
end

