-- ==== Sys2Proof/Machine/Sequencer.lean ====
section
/-!
DEFINITION. The Message Sequencer: EXECUTE (43_message_sequencer.md R180 to R199), one step per row of the table of R198,
the descriptor reads of its acceptance one step each (00_scope.md R16, 20_memory.md R81).
-/
namespace Sys2Proof.Machine

/-- The descriptors that a list of words makes, five words each, in list order (R97, R98). -/
def descriptorsOf : List Word → List Td
  | w0 :: w1 :: w2 :: w3 :: w4 :: ws => ⟨w0, w1, w2, w3, w4⟩ :: descriptorsOf ws
  | _ => []

/-- A fetched message is accepted (R103, R111, R182): every descriptor well-formed for the record, and valid. -/
def messageAccepted (recLen : BitVec 6) (tds : List Td) : Bool :=
  tds.all (fun d => d.reservedClear && d.transfer.wellFormed recLen) && validate (tds.map Td.transfer)

/-- The fetch is done (R111, R180): the decoded message is latched and checked. -/
def judgeMessage (s : State) : State :=
  let tds := descriptorsOf s.w.words
  let t := s.setW { s.w with msg := tds.map Td.transfer }
  if messageAccepted s.record.wordLen tds then t.setSeq .assertWr else t.takeExit .reject

/-- All 5·W.n words read, the message is judged; else the next word is to be read. -/
def fetchOn (s : State) : State :=
  if s.w.words.length = 5 * s.w.n.toNat then judgeMessage s else s.setSeq .fetchDesc

/-- The next descriptor word (R67, R81, R97): word `k` of the message is at `ARG + 4·k`. -/
def fetchDescriptorWord (s : State) : State :=
  let r := memRead (descWordAddr s.w.descBase s.w.words.length) 4 s
  fetchOn (r.setW { r.w with words := r.w.words ++ [r.ret] })

/-- Acceptance of EXECUTE (R50, R111, R180): form, lookup, the operands latched; the descriptor reads are next. -/
def acceptExecute (peer nxfer : BitVec 8) (base : Word) (s : State) : State :=
  if base.toNat % 4 = 0 then
    match s.recs.lookup peer with
    | none => s.takeExit .reject
    | some k => fetchOn (s.setW { s.w with slot := k, n := nxfer, descBase := base, words := [] })
  else s.takeExit .reject

/-- The completion of a rejected message (R183), where COMPLETE_ON_REJECT asks for one. -/
def rejectComplete (s : State) : State := (s.emit (.cpl .einval 0#32)).setSeq .rejRsp

/-- Row REJ_RSP (R183, R198). -/
def rejectRespond (s : State) : State := (s.setOutcome .failed).respond .einval 0#2

/-- Row ASSERT_WR (R184): status and total start, then SPIEN is set. -/
def assertWrite (s : State) : State :=
  updateThen assertUpdate (fun t => (t.setSeq .assertWait).setWait .sample)
    (s.setW { s.w with status := .ok, actual := 0#32 })

/-- The per-transfer loop starts at transfer 0 (R186, R198). -/
def enterLoop (s : State) : State := selectTransfer (s.setW { s.w with xi := 0#8 })

/-- Row ASSERT_WAIT (R185, R198). -/
def assertWait (s : State) : State :=
  let t := waitStep .eot s
  if t.ctl.wait = .none then (if t.w.wres = .ok then enterLoop t else t.takeExit .assertTimeout) else t

/-- Row ASSERT_LOG (R185). -/
def assertLog (s : State) : State := (s.emit (.log .assertEotTimeout)).setSeq .deassertWr

/-- Row DEASSERT_WR (R195). -/
def deassertWrite (s : State) : State := updateThen deassertUpdate (State.setSeq · .finalCpl) s

/-- The rows XFER_* (R198): the loop body on transfer W.xi, or, the list exhausted, De-assert. -/
def loopStep (s : State) : Result :=
  match s.currentTransfer with
  | some t => transferStep t s
  | none => s.onRecord (deassertWrite (s.setSeq .deassertWr))

/-- Row FINAL_CPL (R196). -/
def finalComplete (s : State) : State := (s.emit (.cpl s.w.status s.w.actual)).setSeq .finalRsp

/-- Row FINAL_RSP (R196, R198): the outcome is latched with the response. -/
def finalRespond (s : State) : State := (s.setOutcome s.w.status.terminal).respond s.w.status 0#2

/-- The rows of EXECUTE after acceptance (R198). -/
def resumeExecute (s : State) : Result :=
  match s.ctl.seq with
  | .fetchDesc => s.onRecord (fetchDescriptorWord s)
  | .rejCpl => .next (rejectComplete s)
  | .rejRsp => .next (rejectRespond s)
  | .assertWr => s.onRecord (assertWrite s)
  | .assertWait => s.onRecord (assertWait s)
  | .assertLog => .next (assertLog s)
  | .xferHead | .xferConfWr | .xferPio | .xferDelay => loopStep s
  | .deassertWr => s.onRecord (deassertWrite s)
  | .finalCpl => .next (finalComplete s)
  | .finalRsp => .next (finalRespond s)
  | .idle | .cfgWr | .cfgRsp _ | .relRsp _ => .next s

/-- EXECUTE (R180). -/
def execExecute (peer nxfer : BitVec 8) (base : Word) (s : State) : Result :=
  if s.ctl.seq = .idle then .next (acceptExecute peer nxfer base s) else resumeExecute s

end Sys2Proof.Machine
end

