-- ==== Sys2Proof/Machine/Dispatch.lean ====
section
/-!
DEFINITION. The dispatch: one arm per operation of 30_encoding.md R90. Each meaning is the next step of its operation.
-/
namespace Sys2Proof.Machine

def exec (i : Instr) (s : State) : Host.Outcome State Fault Refusal :=
  match i with
  | .configure peer cs bpw => Sys2Proof.Machine.execConfigure peer cs bpw s
  | .release peer => Sys2Proof.Machine.execRelease peer s
  | .execute peer nxfer base => Sys2Proof.Machine.execExecute peer nxfer base s
  | .xferTx rxp len a => Sys2Proof.Machine.execXferTx rxp len a s
  | .xferRx len a => Sys2Proof.Machine.execXferRx len a s
  | .xferSkip txp rxp a => Sys2Proof.Machine.execXferSkip txp rxp a s
  | .regRead r => Sys2Proof.Machine.execRegRead r s
  | .regWrite r v => Sys2Proof.Machine.execRegWrite r v s
  | .confUpdate us => Sys2Proof.Machine.execConfUpdate us s
  | .waitBit b => Sys2Proof.Machine.execWaitBit b s
  | .pioRun t wl => Sys2Proof.Machine.execPioRun t wl s
  | .delay d => Sys2Proof.Machine.execDelay d s
  | .yield => Sys2Proof.Machine.execYield s

end Sys2Proof.Machine
end

