-- ==== Sys2Proof/Machine/Fetch.lean ====
section
/-!
DEFINITION. What surrounds the operations in a step: the moves of the other agents (00_scope.md R8, R16), the launch
conditions (10_state.md R52, 20_memory.md R68), what the engine runs next (10_state.md R44, R50), the answer to an
ill-formed command (30_encoding.md R102), and placing an instruction where it is fetched next.
-/
namespace Sys2Proof.Machine

/-- What the other agents do before the coming step: the head of the tape, or past its end the free value (log 3). -/
def State.nextInput (s : State) : Input :=
  match s.inputs with
  | [] => Config.freeInput s.drawn
  | i :: _ => i

/-- The host's writes to buffer memory (R52, R82). -/
def hostStores (stores : List (Word × Byte)) (m : Mem) : Mem :=
  stores.foldl (fun m x => Mem.write m x.1.toNat x.2) m

/-- The host attaches the window once (R37, R50). -/
def attachedBase (s : State) (i : Input) : Word :=
  if s.attached then s.windowBase else (i.attach.map Prod.fst).getD s.windowBase

def attachedPhys (s : State) (i : Input) : Word :=
  if s.attached then s.windowPhys else (i.attach.map Prod.snd).getD s.windowPhys

/-- The command port (R50): a presented command stays until it is accepted; the host presents one at a time. -/
def presentedPort (s : State) (i : Input) : Option Command :=
  match s.port with
  | some c => some c
  | none => i.present.map (fun p => ⟨p.1, p.2⟩)

/-- The moves of Time, ENV and the host between two engine steps (R8, R16, R46, R70). -/
def State.arrive (s : State) : State :=
  { s with
    now := s.now + s.nextInput.ticks
    win := s.nextInput.win
    windowBase := attachedBase s s.nextInput
    windowPhys := attachedPhys s s.nextInput
    attached := s.attached || s.nextInput.attach.isSome
    port := presentedPort s s.nextInput
    mem := hostStores s.nextInput.stores s.mem
    inputs := s.inputs.tail
    drawn := s.drawn + 1 }

/-- A launch the model refuses: a window base that is not a multiple of 8 (R68, U11), or a command before the host
supplied the window (R52). -/
def launchRefusal (s : State) : Option Refusal :=
  if s.attached then (if s.windowBase.toNat % 8 = 0 then none else some .misalignedWindow)
  else if s.ctl.seq = .idle ∧ s.port.isSome = true then some .notAttached
  else none

/-- Accepting the command at the port frees the port (R50). -/
def State.takeCommand (s : State) : State := s.setPort none

/-- The answer to a command the decoder rejects (R102): ST_EINVAL by the response row of the command its OPC names;
for a reserved OPC the response itself (log 12). -/
def answerIllFormed (e : DecodeError) (s : State) : State :=
  match e.cmdClass with
  | some .configure => s.setSeq (.cfgRsp .einval)
  | some .release => s.setSeq (.relRsp .einval)
  | some .execute => s.takeExit .reject
  | none => s.respond .einval 0#2

/-- What the engine does next. -/
inductive Fetched where
  /-- IDLE with no command presented: the engine waits (R44). -/
  | nothing
  /-- An instruction to run, and the state it runs in. -/
  | instr (i : Instr) (s : State)
  /-- An ill-formed command. -/
  | illFormed (e : DecodeError)
  /-- The command in progress goes on. -/
  | resume
  deriving DecidableEq, Repr

/-- The command at the port (R50). -/
def fetchCommand (s : State) : Fetched :=
  match s.port with
  | none => .nothing
  | some c =>
    match decodeCommand c.cmd c.arg with
    | .ok i => .instr i s.takeCommand
    | .error e => .illFormed e

/-- The transfer W.xi of the message (R186), as the instruction of its kind (R100). -/
def fetchTransfer (s : State) : Fetched :=
  match s.currentTransfer.bind Transfer.instr with
  | some i => .instr i s
  | none => .resume

/-- What the engine runs next, by its control state (R44). -/
def fetch (s : State) : Fetched :=
  match s.ctl.seq with
  | .idle => fetchCommand s
  | .xferHead | .xferConfWr | .xferPio | .xferDelay => fetchTransfer s
  | .cfgWr | .cfgRsp _ | .relRsp _ | .fetchDesc | .rejCpl | .rejRsp | .assertWr | .assertWait | .assertLog | .deassertWr
  | .finalCpl | .finalRsp => .resume

/-- The next row of the command in progress (R198, R231). -/
def resume (s : State) : Result :=
  match s.ctl.seq with
  | .cfgWr | .cfgRsp _ => resumeConfigure s
  | .relRsp _ => resumeRelease s
  | .idle | .fetchDesc | .rejCpl | .rejRsp | .assertWr | .assertWait | .assertLog | .xferHead | .xferConfWr | .xferPio
  | .xferDelay | .deassertWr | .finalCpl | .finalRsp => resumeExecute s

/-- `s` with a command at the port of an idle, attached engine. -/
def placeCommand (s : State) (cmd arg : Word) : State :=
  { s with port := some ⟨cmd, arg⟩, ctl := Ctl.reset, attached := true }

/-- `s` about to run a message of the one transfer `t`, with a record for the slot where the transfer needs one. -/
def placeTransfer (s : State) (t : Transfer) : State :=
  let r := if t.len = 0#32 ∨ s.record.valid = true then s else createRecord s s.w.slot s.record.peer
  { r with
    ctl := { Ctl.reset with seq := .xferHead }
    w := { s.w with msg := [t], n := 1#8, xi := 0#8 }
    attached := true }

end Sys2Proof.Machine
end

