-- ==== Sys2Proof/Machine/Step.lean ====
section
/-!
DEFINITION. One step: the other agents move (00_scope.md R16), then the engine makes one step, and the coherency checker
looks at the state it leaves (40_register_interface.md R128).
-/
namespace Sys2Proof.Machine

/-- One step of the engine alone. -/
def engineStep (s : State) : Host.Outcome State Fault Refusal :=
  match fetch s with
  | .nothing => .next s
  | .instr i t => exec i t
  | .illFormed e => .next (answerIllFormed e s.takeCommand)
  | .resume => resume s

/-- One step of the machine. -/
def step (s : State) : Host.Outcome State Fault Refusal :=
  match launchRefusal s.arrive with
  | some r => .refused r
  | none => checkCoherency (engineStep s.arrive)

/-- `s` with the instruction of a table row's bits placed where the very next step fetches it (logs 1, 21). -/
def State.withFetchWord (s : State) (nbits w : Nat) : State :=
  if tableIsCommand nbits w then placeCommand s (tableWord nbits w 0) (tableWord nbits w 1)
  else placeTransfer s (tableTd nbits w).transfer

end Sys2Proof.Machine
end

