-- ==== Sys2Proof/Safety.lean ====
section
/-!
DEFINITION. What counts as a safe run: the predicates of the spec's whole-machine sentences, in whose terms the
obligations speak.
-/
namespace Sys2Proof.Machine

/-- The rows that run on `REC[W.slot]`: the CONF write of CONFIGURE, and of EXECUTE the descriptor reads and the rows from
Assert to De-assert. -/
def SeqState.usesRecord : SeqState → Bool
  | .cfgWr | .fetchDesc | .assertWr | .assertWait | .assertLog | .xferHead | .xferConfWr | .xferPio | .xferDelay
  | .deassertWr => true
  | .idle | .cfgRsp _ | .relRsp _ | .rejCpl | .rejRsp | .finalCpl | .finalRsp => false

/-- The rows of an accepted message, from Assert to De-assert (R198). -/
def SeqState.inMessage : SeqState → Bool
  | .assertWr | .assertWait | .assertLog | .xferHead | .xferConfWr | .xferPio | .xferDelay | .deassertWr => true
  | .idle | .cfgWr | .cfgRsp _ | .relRsp _ | .fetchDesc | .rejCpl | .rejRsp | .finalCpl | .finalRsp => false

/-- The rows between the Assert write and the De-assert write: the chip-select assertion window (R17). -/
def SeqState.asserted : SeqState → Bool
  | .assertWait | .assertLog | .xferHead | .xferConfWr | .xferPio | .xferDelay | .deassertWr => true
  | .idle | .cfgWr | .cfgRsp _ | .relRsp _ | .fetchDesc | .rejCpl | .rejRsp | .assertWr | .finalCpl | .finalRsp => false

/-- The PIO rows that wait (R43). -/
def PioState.waits : PioState → Bool
  | .txWait | .rxWait | .eotWait => true
  | .none | .txMemRd | .txWr | .rxDummy | .rxRd | .rxMemWr | .eotLog => false

/-- The control tuple is one R43 admits between two steps: PIO, WAIT and DLY are NONE except where the table states, and
the internal XFER_HEAD is never rested in (R44 b). -/
abbrev Ctl.wf (c : Ctl) : Prop :=
  c.seq ≠ .xferHead ∧
  (c.pio ≠ .none ↔ c.seq = .xferPio) ∧ (c.dly ≠ .none ↔ c.seq = .xferDelay) ∧
  (c.wait ≠ .none ↔ c.seq = .assertWait ∨ c.pio.waits = true)

/-- No two records belong to one peer (R34). -/
def State.PeersDistinct (s : State) : Prop :=
  ∀ j k : Slot, (s.recs.get j).valid = true → (s.recs.get k).valid = true →
    (s.recs.get j).peer = (s.recs.get k).peer → j = k

/-- A command that runs on a record has one (R121), every record's cache is set but for the record of a CONFIGURE that is
about to write CONF (R131, R222), and so no CONF.UPDATE waits for its write (R124 b). -/
def State.RecordsReady (s : State) : Prop :=
  s.ctl.upd = .none ∧
  (s.ctl.seq.usesRecord = true → s.record.valid = true) ∧
  ∀ k : Slot, (s.recs.get k).valid = true →
    (s.recs.get k).cacheValid = true ∨ (s.ctl.seq = .cfgWr ∧ k = s.w.slot)

/-- SPI-enable in the caches and in the last CONF value written: set exactly on the slot of a message between its Assert
and its De-assert (R195, R199, R249). -/
def State.SpienDisciplined (s : State) : Prop :=
  (∀ k : Slot, (s.recs.get k).valid = true → (s.recs.get k).cacheValid = true →
    getField .spien (s.recs.get k).cache = (if s.ctl.seq.asserted = true ∧ k = s.w.slot then 1#32 else 0#32)) ∧
  (s.hwConfValid = true → getField .spien s.hwConf = (if s.ctl.seq.asserted = true then 1#32 else 0#32))

/-- From the Assert write to the response the running record's cache is what CONF was last written with (R127 c). -/
def State.RunGloballyCoherent (s : State) : Prop :=
  (s.ctl.seq.asserted = true ∨ s.ctl.seq = .finalCpl ∨ s.ctl.seq = .finalRsp) →
    s.globallyCoherent s.w.slot = true

/-- Every valid record's word length is 4..32 (R32). -/
def State.WordLengthsLegal (s : State) : Prop :=
  ∀ k : Slot, (s.recs.get k).valid = true → wordLengthLegal (s.recs.get k).wordLen = true

/-- While descriptors are read a word is still to come (R81); and the message of a running EXECUTE is one that passed
every check (R103, R182): its length is W.n, each transfer is well-formed for the record and valid, and the transfer being
run is one of the list. -/
def State.MessageChecked (s : State) : Prop :=
  (s.ctl.seq = .fetchDesc → s.w.words.length < 5 * s.w.n.toNat) ∧
  (s.ctl.seq.inMessage = true →
    s.w.n.toNat = s.w.msg.length ∧
    (∀ t ∈ s.w.msg, t.wellFormed s.record.wordLen = true ∧ t.valid = true) ∧
    ((s.ctl.seq = .xferConfWr ∨ s.ctl.seq = .xferPio) →
      ∃ t, s.currentTransfer = some t ∧ t.len ≠ 0#32 ∧
        s.w.wl = effectiveWordLength t.bpw s.record.wordLen) ∧
    (s.ctl.seq = .xferDelay → ∃ t, s.currentTransfer = some t ∧ t.delay ≠ 0#16))

/-- A CONF value with no reserved field value (R104) and none of the bits that no operation sets (R23, R290). -/
def confClean (v : Word) : Bool :=
  3 ≤ (getField .wl v).toNat && (getField .wl v).toNat ≤ 31 && getField .trm v != 3#32 &&
  getField .txen v == 0#32 && getField .fifoen v == 0#32 && getField .wcnt v == 0#32 &&
  getField .cpha v == 0#32 && getField .cpol v == 0#32 && getField .cspol v == 0#32

/-- Every cache that is set, and the last CONF value written, is clean. -/
def State.ConfsClean (s : State) : Prop :=
  (∀ k : Slot, (s.recs.get k).valid = true → (s.recs.get k).cacheValid = true →
    confClean (s.recs.get k).cache = true) ∧
  (s.hwConfValid = true → confClean s.hwConf = true)

/-- While PIO.RUN goes on, the unit size, the count and the number of units done fit the transfer, and a unit is left
wherever one is being moved (R156, R157). -/
def State.PioCounted (s : State) : Prop :=
  s.ctl.seq = .xferPio → ∀ t, s.currentTransfer = some t →
    s.w.unit = unitBytes s.w.wl ∧ s.w.count = unitCount t.len s.w.unit ∧ s.w.c.toNat ≤ s.w.count.toNat ∧
    ((s.ctl.pio = .txWait ∨ s.ctl.pio = .txMemRd ∨ s.ctl.pio = .txWr ∨ s.ctl.pio = .rxDummy ∨ s.ctl.pio = .rxWait ∨
      s.ctl.pio = .rxRd ∨ s.ctl.pio = .rxMemWr) → s.w.c.toNat < s.w.count.toNat)

/-- Every valid record's base is the window base, and nothing has run before the host attached the window (R37, R62). -/
def State.BasesCopied (s : State) : Prop :=
  (∀ k : Slot, (s.recs.get k).valid = true → (s.recs.get k).base = s.windowBase) ∧
  (s.attached = false → s.ctl.seq = .idle ∧ ∀ k : Slot, (s.recs.get k).valid = false)

/-- The final read of a wait is made only after the deadline (R142, R143). -/
def State.FinalAfterDeadline (s : State) : Prop :=
  s.ctl.wait = .final → Config.waitTimeoutTicks ≤ s.now - s.w.t0

/-- A bus transaction no operation of the engine makes (R29, R106, U17): a write of STAT, RXD or FCTL, a read of TXD or
FCTL, and a read of CONF (R131). -/
def Event.forbidden : Event → Bool
  | .busRd _ off _ => off == Config.offTxd || off == Config.offFctl || off == Config.offConf
  | .busWr _ off _ => off == Config.offStat || off == Config.offRxd || off == Config.offFctl
  | .rsp st _ => st == .etimedout
  | .cpl st _ => st == .etimedout
  | .memRd _ _ _ | .memWr _ _ _ | .yield | .sample | .delayDone _ | .log _ => false

/-- The status registers that Cpl and Rsp report never hold ST_ETIMEDOUT (R196, R243). -/
def State.StatusReportable (s : State) : Prop :=
  (s.ctl.seq.inMessage = true ∨ s.ctl.seq = .finalCpl ∨ s.ctl.seq = .finalRsp →
    s.w.status ≠ .etimedout ∨ s.ctl.seq = .assertWr) ∧
  s.ctl.seq ≠ .cfgRsp .etimedout ∧ s.ctl.seq ≠ .relRsp .etimedout

end Sys2Proof.Machine
end

