-- ==== Sys2Proof/Certificates/Slice0/Obligations.lean ====
section
/-!
DEFINITION. The statements for the provers, file by file of the spec. Where a statement's conclusion is an equation with
a record update, everything the update does not name is unchanged: the equation is the instruction's frame as well.
-/
open Sys2Proof Sys2Proof.Machine

/-! ## Operations, formats and encodings (30_encoding.md) -/

/-- R92 to R100, R110: no bit of an encoding is dropped. -/
def Obligations.DecodeOfEncodedInstructionIsTheInstruction : Prop :=
  ∀ i : Instr, i.wf = true → i.encodable = true → decodeWords (encode i) = .ok i

/-- R110 with R93 to R96 and R98 to R100: a command or a descriptor that decodes has no other words. -/
def Obligations.EncodeOfDecodedWordsIsThoseWords : Prop :=
  ∀ (ws : List Word) (i : Instr), decodeWords ws = .ok i → encode i = ws

/-- R110, R102: the command decoder takes exactly the words of the three command rows, no word is of two rows, and a
word of none is rejected by its OPC. -/
def Obligations.CommandDecoderTakesExactlyTheTableRows : Prop :=
  ∀ cmd arg : Word,
    ((∃ i, decodeCommand cmd arg = .ok i) ↔
      (cmd &&& 0xFFC0C00F#32 = 1#32 ∧ arg = 0#32) ∨ (cmd &&& 0xFFFFF00F#32 = 2#32 ∧ arg = 0#32) ∨
      cmd &&& 0xFF00F00F#32 = 3#32) ∧
    ¬(cmd &&& 0xFFC0C00F#32 = 1#32 ∧ cmd &&& 0xFFFFF00F#32 = 2#32) ∧
    ¬(cmd &&& 0xFFC0C00F#32 = 1#32 ∧ cmd &&& 0xFF00F00F#32 = 3#32) ∧
    ¬(cmd &&& 0xFFFFF00F#32 = 2#32 ∧ cmd &&& 0xFF00F00F#32 = 3#32) ∧
    ((decodeCommand cmd arg = .error .reservedOpcode) ↔
      cmd.toNat % 16 ≠ 1 ∧ cmd.toNat % 16 ≠ 2 ∧ cmd.toNat % 16 ≠ 3)

/-- R100: the kind of a descriptor, by LEN, TXP and RXP alone, and by match and mask of CTRL with the condition on
LEN. -/
def Obligations.DescriptorKindFollowsLengthAndBuffers : Prop :=
  (∀ t : Transfer,
    (t.len = 0#32 → t.instr = some (.xferSkip t.txp t.rxp t.args)) ∧
    (t.len ≠ 0#32 → t.txp = true → t.instr = some (.xferTx t.rxp t.len t.args)) ∧
    (t.len ≠ 0#32 → t.txp = false → t.rxp = true → t.instr = some (.xferRx t.len t.args)) ∧
    (t.len ≠ 0#32 → t.txp = false → t.rxp = false → t.instr = none)) ∧
  (∀ d : Td,
    ((∃ r l a, decodeDescriptor d = .ok (.xferTx r l a)) ↔ d.ctrl &&& 0x0000C0FD#32 = 1#32 ∧ d.len ≠ 0#32) ∧
    ((∃ l a, decodeDescriptor d = .ok (.xferRx l a)) ↔ d.ctrl &&& 0x0000C0FF#32 = 2#32 ∧ d.len ≠ 0#32) ∧
    ((∃ t r a, decodeDescriptor d = .ok (.xferSkip t r a)) ↔ d.ctrl &&& 0x0000C0FC#32 = 0#32 ∧ d.len = 0#32))

/-- A few words of 95_test_vectors.md section 3.6, written out from R93 to R99. -/
def Obligations.SpecWordsDecodeToTheirInstructions : Prop :=
  decodeWords [0x00081051#32, 0#32] = .ok (.configure 5#8 1#2 8#6) ∧
  decodeWords [0x00000052#32, 0#32] = .ok (.release 5#8) ∧
  decodeWords [0x00010053#32, 0x1000#32] = .ok (.execute 5#8 1#8 0x1000#32) ∧
  decodeWords [0x00000001#32, 4#32, 0x2000#32, 0#32, 0#32] =
    .ok (.xferTx false 4#32 ⟨0x2000#32, 0#32, 0#32, 0#6, 0#16⟩) ∧
  decodeWords [0x00641002#32, 4#32, 0#32, 0x3000#32, 0#32] =
    .ok (.xferRx 4#32 ⟨0#32, 0x3000#32, 0#32, 16#6, 100#16⟩) ∧
  decodeWords [0x00320000#32, 0#32, 0#32, 0#32, 0#32] =
    .ok (.xferSkip false false ⟨0#32, 0#32, 0#32, 0#6, 50#16⟩) ∧
  decodeWords [0x00000004#32, 0#32] = .error .reservedOpcode ∧
  decodeWords [0x00011003#32, 0#32] = .error (.reservedBits .execute) ∧
  decodeWords [0x00004001#32, 4#32, 0#32, 0#32, 0#32] = .error .reservedCtrl

/-- R102: an ill-formed command at an idle engine changes no record, no memory and no window register and emits no bus
or memory event: a reserved OPC is answered at once, the others go to the response of ST_EINVAL. That a reserved OPC is
answered in the acceptance step is the model's choice (log 12). -/
def Obligations.IllFormedCommandIsAnsweredInvalid : Prop :=
  ∀ s : State, s.ctl.seq = .idle →
    (∀ c e, s.port = some c → decodeCommand c.cmd c.arg = .error e →
      engineStep s = .next
        (if e = .reservedOpcode then { s with port := none, trace := .rsp .einval 0#2 :: s.trace }
         else if e.cmdClass = some .configure then { s with port := none, ctl := { s.ctl with seq := .cfgRsp .einval } }
         else if e.cmdClass = some .release then { s with port := none, ctl := { s.ctl with seq := .relRsp .einval } }
         else { s with port := none, ctl := { s.ctl with seq := .rejRsp } })) ∧
    (∀ peer cs bpw, ¬(4 ≤ bpw.toNat ∧ bpw.toNat ≤ 32) →
      exec (.configure peer cs bpw) s = .next { s with ctl := { s.ctl with seq := .cfgRsp .einval } }) ∧
    (∀ peer n base, base.toNat % 4 ≠ 0 →
      exec (.execute peer n base) s = .next { s with ctl := { s.ctl with seq := .rejRsp } })

/-! ## The step (00_scope.md R8, R16; 10_state.md R44, R50) -/

/-- A step runs the decoded instruction. When a command that decodes stands at the port of an idle, attached engine, the
step is exec of it at the state the other agents leave, with the port freed; in the rows of a transfer it is exec of the
instruction that the current descriptor stands for; each under the coherency checker. -/
def Obligations.StepRunsTheDecodedInstruction : Prop :=
  ∀ (s : State) (i : Instr), s.attached = true → s.windowBase.toNat % 8 = 0 →
    (∀ c : Command, s.ctl.seq = .idle → s.port = some c → decodeCommand c.cmd c.arg = .ok i →
      step s = checkCoherency (exec i { s.arrive with port := none })) ∧
    (∀ t : Transfer,
      s.ctl.seq = .xferHead ∨ s.ctl.seq = .xferConfWr ∨ s.ctl.seq = .xferPio ∨ s.ctl.seq = .xferDelay →
      s.currentTransfer = some t → t.instr = some i → step s = checkCoherency (exec i s.arrive))

/-- In every row after acceptance the step is exec of the command in progress, whatever operands it is given: they were
latched at acceptance (R44, R198, R231). -/
def Obligations.StepContinuesTheCommandInProgress : Prop :=
  ∀ s : State, s.attached = true → s.windowBase.toNat % 8 = 0 →
    ((s.ctl.seq = .cfgWr ∨ ∃ st, s.ctl.seq = .cfgRsp st) →
      ∀ peer cs bpw, step s = checkCoherency (exec (.configure peer cs bpw) s.arrive)) ∧
    ((∃ st, s.ctl.seq = .relRsp st) → ∀ peer, step s = checkCoherency (exec (.release peer) s.arrive)) ∧
    ((s.ctl.seq.inMessage = true ∨ s.ctl.seq = .fetchDesc ∨ s.ctl.seq = .rejCpl ∨ s.ctl.seq = .rejRsp ∨
        s.ctl.seq = .finalCpl ∨ s.ctl.seq = .finalRsp) →
      ∀ peer n base, step s = checkCoherency (exec (.execute peer n base) s.arrive))

/-- Between two engine steps the other agents leave the engine's own state alone: time does not go back, a command at
the port stays, the window does not move once attached, and memory changes only in the bytes the host stores to (R8, R37,
R46, R50, R52). -/
def Obligations.OtherAgentsLeaveTheEngineAlone : Prop :=
  ∀ s : State,
    s.arrive.ctl = s.ctl ∧ s.arrive.recs = s.recs ∧ s.arrive.w = s.w ∧ s.arrive.hwConf = s.hwConf ∧
    s.arrive.hwConfValid = s.hwConfValid ∧ s.arrive.trace = s.trace ∧ s.arrive.ret = s.ret ∧
    s.now ≤ s.arrive.now ∧ (∀ c, s.port = some c → s.arrive.port = some c) ∧
    (s.attached = true → s.arrive.attached = true ∧ s.arrive.windowBase = s.windowBase ∧
      s.arrive.windowPhys = s.windowPhys) ∧
    (s.nextInput.stores = [] → s.arrive.mem = s.mem) ∧
    (Mem.wf s.mem → Mem.wf s.arrive.mem ∧
      ∀ a : Nat, (∀ x ∈ s.nextInput.stores, x.1.toNat ≠ a) → s.arrive.mem.read a = s.mem.read a)

/-- The step stops where the host did not do its duty: a window base that is not a multiple of 8 (R68, U11), a command
before the window was attached (R52; the model's choice, log 5). Otherwise an idle engine waits. -/
def Obligations.StepRefusesAViolatedLaunchAndWaitsWhenIdle : Prop :=
  ∀ s : State,
    (s.attached = true → s.windowBase.toNat % 8 ≠ 0 → step s = .refused .misalignedWindow) ∧
    (s.arrive.attached = false → s.ctl.seq = .idle → s.port ≠ none → step s = .refused .notAttached) ∧
    (s.ctl.seq = .idle → s.arrive.port = none → s.cohOk = true →
      (s.arrive.attached = true → s.arrive.windowBase.toNat % 8 = 0) → step s = .next s.arrive)

/-! ## State and reset (10_state.md) -/

/-- What reset leaves, as far as the spec gives it (R55). -/
def Obligations.ResetLeavesWhatTheSpecGives : Prop :=
  State.reset.ctl = ⟨.idle, .none, .none, .none, .none⟩ ∧ (∀ k, (State.reset.recs.get k).valid = false) ∧
  (∀ k, (State.reset.recs.get k).shadowValid = false) ∧ State.reset.hwConfValid = false ∧
  State.reset.w.outcome = .none ∧ State.reset.port = none ∧ State.reset.trace = []

/-- Reset meets every invariant stated below. -/
def Obligations.ResetMeetsTheInvariants : Prop :=
  State.reset.ctl.wf ∧ Mem.wf State.reset.mem ∧ State.reset.PeersDistinct ∧ State.reset.RecordsReady ∧
  State.reset.cohOk = true ∧ State.reset.SpienDisciplined ∧ State.reset.RunGloballyCoherent ∧
  State.reset.WordLengthsLegal ∧ State.reset.MessageChecked ∧ State.reset.ConfsClean ∧ State.reset.PioCounted ∧
  State.reset.BasesCopied ∧ State.reset.FinalAfterDeadline ∧ State.reset.StatusReportable

/-- R12: a field update changes exactly its field, bit by bit. -/
def Obligations.FieldUpdateChangesExactlyItsField : Prop :=
  ∀ (f : ConfField) (v x : Word) (i : Nat), i < 32 →
    (setField f v x).getLsbD i =
      if f.lo ≤ i ∧ i < f.lo + f.width then x.getLsbD (i - f.lo) else v.getLsbD i

/-- R125, R23, R27: what the accessors of the fields of CONF and STAT give, their laws, and the fifteen masks. -/
def Obligations.FieldAccessorsObeyTheirLaws : Prop :=
  (∀ (f g : ConfField) (v x y : Word),
    (getField f v).toNat = v.toNat / 2 ^ f.lo % 2 ^ f.width ∧
    f.mask.toNat = (2 ^ f.width - 1) * 2 ^ f.lo ∧
    (getField f (setField f v x)).toNat = x.toNat % 2 ^ f.width ∧
    (g ≠ f → getField g (setField f v x) = getField g v) ∧
    setField f (setField f v x) y = setField f v y) ∧
  (∀ (f g : StatFlag) (v x y : Word),
    (getFlag f v).toNat = v.toNat / 2 ^ f.bit % 2 ∧
    f.mask.toNat = 2 ^ f.bit ∧
    (getFlag f (setFlag f v x)).toNat = x.toNat % 2 ∧
    (g ≠ f → getFlag g (setFlag f v x) = getFlag g v) ∧
    setFlag f (setFlag f v x) y = setFlag f v y ∧
    (f.isSet v = true ↔ getFlag f v = 1#32)) ∧
  ConfField.mask .cpha = 0x00000001#32 ∧ ConfField.mask .cpol = 0x00000002#32 ∧
  ConfField.mask .cspol = 0x00000004#32 ∧ ConfField.mask .txen = 0x00000008#32 ∧
  ConfField.mask .wl = 0x00000FF0#32 ∧ ConfField.mask .trm = 0x00003000#32 ∧
  ConfField.mask .csidx = 0x0000C000#32 ∧ ConfField.mask .wcnt = 0x3FFF0000#32 ∧
  ConfField.mask .fifoen = 0x40000000#32 ∧ ConfField.mask .spien = 0x80000000#32 ∧
  StatFlag.mask .rxrdy = 0x01#32 ∧ StatFlag.mask .txrdy = 0x02#32 ∧ StatFlag.mask .eot = 0x04#32 ∧
  StatFlag.mask .txfifo = 0x08#32 ∧ StatFlag.mask .rxfifo = 0x10#32

/-- The control tuple stays one that R43 admits between two steps. -/
def Obligations.StepKeepsTheControlTupleWellFormed : Prop :=
  ∀ s t : State, s.MessageChecked → s.ctl.wf → step s = .next t → t.ctl.wf

/-- R34: no two records belong to one peer, at reset and after every step; `lookup` answers the unique slot of the peer, or
none. -/
def Obligations.NoTwoRecordsAliasOnePeer : Prop :=
  State.reset.PeersDistinct ∧
  (∀ s t : State, s.PeersDistinct → step s = .next t → t.PeersDistinct) ∧
  (∀ (s : State) (p : BitVec 8) (k : Slot), s.PeersDistinct →
    (s.recs.lookup p = some k ↔ (s.recs.get k).valid = true ∧ (s.recs.get k).peer = p)) ∧
  (∀ (s : State) (p : BitVec 8),
    s.recs.lookup p = none ↔ ∀ k : Slot, (s.recs.get k).valid = true → (s.recs.get k).peer ≠ p)

/-- R62, R37: every record's base is the window base. That nothing runs before the window is attached is the host's duty of
R52, which the step holds it to by refusing a command before (the model's choice, log 5). -/
def Obligations.StepKeepsBasesCopied : Prop :=
  ∀ s t : State, s.BasesCopied → step s = .next t → t.BasesCopied

/-! ## Memory (20_memory.md) -/

/-- R73: MemRead assembles its bytes little-endian, addresses modulo 2^32, and leaves MEM alone. -/
def Obligations.MemReadAssemblesLittleEndianBytes : Prop :=
  ∀ (a : Word) (s : State) (n : Nat), n = 1 ∨ n = 2 ∨ n = 4 →
    (s.mem.readLE a n).toNat =
      ((List.range n).map fun k => (s.mem.read ((a.toNat + k) % 2 ^ 32)).toNat * 2 ^ (8 * k)).sum ∧
    (s.mem.readLE a n).toNat < 2 ^ (8 * n) ∧
    memRead a n s = { s with
      ret := s.mem.readLE a n, trace := .memRd a n (s.mem.readLE a n) :: s.trace }

/-- R74: MemWrite stores the low bytes of the value, little-endian, addresses modulo 2^32, and changes no other byte. -/
def Obligations.MemWriteStoresExactlyItsBytes : Prop :=
  ∀ (a v : Word) (s : State) (n : Nat), Mem.wf s.mem → n = 1 ∨ n = 2 ∨ n = 4 →
    (∀ k < n, ((s.mem.writeLE a v n).read ((a.toNat + k) % 2 ^ 32)).toNat = v.toNat / 2 ^ (8 * k) % 256) ∧
    (∀ x : Nat, (∀ k < n, x ≠ (a.toNat + k) % 2 ^ 32) → (s.mem.writeLE a v n).read x = s.mem.read x) ∧
    ∃ w : Word, w.toNat = v.toNat % 2 ^ (8 * n) ∧
      memWrite a n v s = { s with mem := s.mem.writeLE a v n, trace := .memWr a n w :: s.trace }

/-- Every step keeps buffer memory in its canonical form, so that equal memories are equal data. -/
def Obligations.StepKeepsMemoryCanonical : Prop :=
  ∀ s t : State, Mem.wf s.mem → step s = .next t → Mem.wf t.mem

/-! ## Register Interface and coherency checker (40_register_interface.md) -/

/-- R121: REG.READ serves CONF from a set cache with no event; every other read is one bus read whose value ENV gives,
and no read fills the cache. -/
def Obligations.RegReadServesTheCacheOrReadsTheBus : Prop :=
  ∀ (r : RegId) (s : State), s.record.valid = true →
    (r = .conf → s.record.cacheValid = true → exec (.regRead r) s = .next { s with ret := s.record.cache }) ∧
    (r ≠ .conf ∨ s.record.cacheValid = false →
      exec (.regRead r) s = .next { s with
        ret := readWindow s.win r
        trace := .busRd (s.record.base + r.offset) r.offset (readWindow s.win r) :: s.trace })

/-- R122: REG.WRITE is one bus write; for CONF the cache, the shadow and HW_CONF follow in the same step; no other record
changes. -/
def Obligations.RegWriteIsOneBusWriteAndWritesThrough : Prop :=
  ∀ (r : RegId) (v : Word) (s : State), s.record.valid = true →
    exec (.regWrite r v) s = .next
      (if r = .conf then { s with
          win := writeWindow s.win r v
          trace := .busWr (s.record.base + r.offset) r.offset v :: s.trace
          recs := s.recs.set s.w.slot { s.record with cache := v, cacheValid := true, shadow := v, shadowValid := true }
          hwConf := v, hwConfValid := true }
       else { s with
          win := writeWindow s.win r v
          trace := .busWr (s.record.base + r.offset) r.offset v :: s.trace })

/-- R124, R16: CONF.UPDATE writes f of the cache in one step with one event; with the cache UNSET its first step reads CONF
from the bus into W.v, and the next one writes W.v. The component of the control state between the two is the model's own
(log 11). -/
def Obligations.ConfUpdateWritesTheModifiedValue : Prop :=
  ∀ (us : List FieldUpdate) (s : State), s.record.valid = true →
    (s.ctl.upd = .none → s.record.cacheValid = true →
      ∃ v, v = applyUpdates us s.record.cache ∧ exec (.confUpdate us) s = .next { s with
        w := { s.w with v := v }
        ret := s.record.cache
        win := { s.win with conf := v }
        trace := .busWr s.record.base 0x00#32 v :: s.trace
        recs := s.recs.set s.w.slot { s.record with cache := v, cacheValid := true, shadow := v, shadowValid := true }
        hwConf := v, hwConfValid := true }) ∧
    (s.ctl.upd = .none → s.record.cacheValid = false →
      exec (.confUpdate us) s = .next { s with
        w := { s.w with v := applyUpdates us s.win.conf }
        ret := s.win.conf
        trace := .busRd s.record.base 0x00#32 s.win.conf :: s.trace
        ctl := { s.ctl with upd := .write } }) ∧
    (s.ctl.upd = .write →
      exec (.confUpdate us) s = .next { s with
        win := { s.win with conf := s.w.v }
        trace := .busWr s.record.base 0x00#32 s.w.v :: s.trace
        recs := s.recs.set s.w.slot
          { s.record with cache := s.w.v, cacheValid := true, shadow := s.w.v, shadowValid := true }
        hwConf := s.w.v, hwConfValid := true
        ctl := { s.ctl with upd := .none } })

/-- R57, U14: an operation on a slot that holds no record faults by name. -/
def Obligations.OperationsOnAnInvalidRecordFault : Prop :=
  ∀ s : State, s.record.valid = false →
    (∀ r, exec (.regRead r) s = .fault .recordNotValid) ∧
    (∀ r v, exec (.regWrite r v) s = .fault .recordNotValid) ∧
    (∀ us, exec (.confUpdate us) s = .fault .recordNotValid) ∧
    (∀ b, exec (.waitBit b) s = .fault .recordNotValid) ∧
    (∀ t wl, exec (.pioRun t wl) s = .fault .recordNotValid) ∧
    (∀ rxp len a, len ≠ 0#32 → exec (.xferTx rxp len a) s = .fault .recordNotValid) ∧
    (∀ len a, len ≠ 0#32 → exec (.xferRx len a) s = .fault .recordNotValid)

/-- R126, R128, R129: whatever is executed, COH_OK stays true, so the checker never faults. -/
def Obligations.EveryOperationKeepsTheCachesCoherent : Prop :=
  (∀ (i : Instr) (s t : State), s.cohOk = true → exec i s = .next t → t.cohOk = true) ∧
  (∀ s : State, s.cohOk = true → step s ≠ .fault .coherencyViolation)

/-- R127 (a) and (c): a CONF write makes its slot globally coherent, and a running message's slot stays so from its
Assert write to its response. -/
def Obligations.RunningMessageStaysGloballyCoherent : Prop :=
  (∀ (s t : State) (v : Word), exec (.regWrite .conf v) s = .next t → t.globallyCoherent s.w.slot = true) ∧
  (∀ s t : State, s.RunGloballyCoherent → step s = .next t → t.RunGloballyCoherent)

/-- R121, R131: a running command has a valid record, and every record's cache is set once its CONFIGURE has written
CONF. -/
def Obligations.StepKeepsRecordsReady : Prop :=
  ∀ s t : State, s.RecordsReady → step s = .next t → t.RecordsReady

/-- R250, R265: no step of the engine faults. -/
def Obligations.NoStepFaults : Prop :=
  ∀ (s : State) (f : Fault), s.RecordsReady → s.cohOk = true → step s ≠ .fault f

/-- R259, R262, R122 (d): a command touches only the record of its peer, and a running one only the record of its
slot. -/
def Obligations.OtherRecordsAreLeftAlone : Prop :=
  ∀ (s t : State) (k : Slot),
    (∀ peer cs bpw, s.ctl.seq = .idle → exec (.configure peer cs bpw) s = .next t →
      (s.recs.get k).valid = true → (s.recs.get k).peer ≠ peer → t.recs.get k = s.recs.get k) ∧
    (∀ peer, s.ctl.seq = .idle → exec (.release peer) s = .next t →
      (s.recs.get k).valid = true → (s.recs.get k).peer ≠ peer → t.recs.get k = s.recs.get k) ∧
    (∀ peer n base, s.ctl.seq = .idle → exec (.execute peer n base) s = .next t → t.recs.get k = s.recs.get k) ∧
    (s.ctl.seq ≠ .idle → k ≠ s.w.slot → step s = .next t → t.recs.get k = s.recs.get k)

/-! ## Status Wait and delay (41_status_wait.md, 43_message_sequencer.md) -/

/-- R148, R145: the rows of WAIT.BIT, and YIELD, which emits one event and changes nothing else. -/
def Obligations.WaitBitAndYieldFollowTheirControlTable : Prop :=
  (∀ s : State, exec .yield s = .next { s with trace := .yield :: s.trace }) ∧
  ∀ (b : StatFlag) (s : State), s.record.valid = true →
    (s.ctl.wait = .none ∨ s.ctl.wait = .sample → exec (.waitBit b) s = .next { s with
      w := { s.w with bit := b, t0 := s.now }, trace := .sample :: s.trace
      ctl := { s.ctl with wait := .poll } }) ∧
    (s.ctl.wait = .poll → exec (.waitBit b) s = .next { s with
      ret := s.win.stat
      trace := .busRd (s.record.base + 0x08#32) 0x08#32 s.win.stat :: s.trace
      w := { s.w with s := s.win.stat, wres := if s.win.stat.getLsbD b.bit then .ok else s.w.wres }
      ctl := { s.ctl with wait :=
        if s.win.stat.getLsbD b.bit then .none else if 1000000 ≤ s.now - s.w.t0 then .final else .yield } }) ∧
    (s.ctl.wait = .yield → exec (.waitBit b) s = .next { s with
      trace := .yield :: s.trace, ctl := { s.ctl with wait := .poll } }) ∧
    (s.ctl.wait = .final → exec (.waitBit b) s = .next { s with
      ret := s.win.stat
      trace := .busRd (s.record.base + 0x08#32) 0x08#32 s.win.stat :: s.trace
      w := { s.w with s := s.win.stat, wres := if s.win.stat.getLsbD b.bit then .ok else .timeout }
      ctl := { s.ctl with wait := .none } })

/-- R142, R143, R151: in every step the final read is made only after the deadline; a wait that returns TIMEOUT does so
from its final read, after the deadline, with the bit clear, and one that returns OK saw the bit set. -/
def Obligations.TimeoutOnlyAfterTheDeadlineWithTheBitClear : Prop :=
  (∀ s t : State, s.ctl.wf → s.MessageChecked → s.FinalAfterDeadline → step s = .next t → t.FinalAfterDeadline) ∧
  ∀ (b : StatFlag) (s t : State), s.FinalAfterDeadline → s.ctl.wait ≠ .none → exec (.waitBit b) s = .next t →
    t.ctl.wait = .none →
    (t.w.wres = .timeout → s.ctl.wait = .final ∧ Config.waitTimeoutTicks ≤ s.now - s.w.t0 ∧
      s.win.stat.getLsbD b.bit = false) ∧
    (t.w.wres = .ok → s.win.stat.getLsbD b.bit = true)

/-- R193: the rows of DELAY; `DelayDone` comes not before `d` ticks have passed. -/
def Obligations.DelayLastsAtLeastItsTicks : Prop :=
  ∀ (d : BitVec 16) (s : State),
    (s.ctl.dly = .none ∨ s.ctl.dly = .sample → exec (.delay d) s = .next { s with
      w := { s.w with t0 := s.now }, trace := .sample :: s.trace, ctl := { s.ctl with dly := .wait } }) ∧
    (s.ctl.dly = .wait → s.now - s.w.t0 < d.toNat → exec (.delay d) s = .next s) ∧
    (s.ctl.dly = .wait → d.toNat ≤ s.now - s.w.t0 → exec (.delay d) s = .next { s with
      trace := .delayDone d :: s.trace, ctl := { s.ctl with dly := .none } })

/-! ## PIO Transfer Loop (42_pio_transfer.md) -/

/-- R156: unit sizes, and the exact unit count. -/
def Obligations.UnitSizeFollowsTheWordLength : Prop :=
  ∀ (w : BitVec 6) (len : Word), 4 ≤ w.toNat → w.toNat ≤ 32 →
    (w.toNat ≤ 8 → (unitBytes w).toNat = 1) ∧
    (9 ≤ w.toNat → w.toNat ≤ 16 → (unitBytes w).toNat = 2) ∧
    (17 ≤ w.toNat → (unitBytes w).toNat = 4) ∧
    (unitCount len (unitBytes w)).toNat = len.toNat / (unitBytes w).toNat ∧
    (len.toNat % (unitBytes w).toNat = 0 →
      (unitCount len (unitBytes w)).toNat * (unitBytes w).toNat = len.toNat ∧
      bytesProcessed (unitCount len (unitBytes w)) (unitBytes w) = len)

/-- R157, R167 (entry), R165, R166: where a run starts, by direction; transmit has priority. -/
def Obligations.PioRunStartsInItsDirection : Prop :=
  ∀ (t : Transfer) (wl : BitVec 6) (s : State), s.record.valid = true → s.ctl.pio = .none →
    ∃ u, exec (.pioRun t wl) s = .next u ∧
      u = { s with
        w := { s.w with unit := unitBytes wl, count := unitCount t.len (unitBytes wl), c := 0#32 }
        ctl := u.ctl } ∧
      u.ctl.seq = s.ctl.seq ∧ u.ctl.dly = s.ctl.dly ∧
      (t.txp = true → u.w.count ≠ 0#32 → u.ctl.pio = .txWait ∧ u.ctl.wait = .sample) ∧
      (t.txp = false → t.rxp = true → u.w.count ≠ 0#32 → u.ctl.pio = .rxDummy ∧ u.ctl.wait = s.ctl.wait) ∧
      ((t.txp = false ∧ t.rxp = false) ∨ u.w.count = 0#32 → u.ctl.pio = .eotWait ∧ u.ctl.wait = .sample)

/-- R158, R159, R160, R167: the rows that move a unit, of the transmit and of the receive path. -/
def Obligations.PioDataRowsMoveOneUnit : Prop :=
  ∀ (t : Transfer) (wl : BitVec 6) (s : State), s.record.valid = true →
    (s.ctl.pio = .txMemRd →
      ∃ u, u = s.mem.readLE (t.txaddr + s.w.c * s.w.unit.zeroExtend 32) s.w.unit.toNat ∧
        exec (.pioRun t wl) s = .next { s with
          ret := u, w := { s.w with u := u }, ctl := { s.ctl with pio := .txWr }
          trace := .memRd (t.txaddr + s.w.c * s.w.unit.zeroExtend 32) s.w.unit.toNat u :: s.trace }) ∧
    (s.ctl.pio = .txWr →
      exec (.pioRun t wl) s = .next { s with
        win := { s.win with txd := s.w.u }
        trace := .busWr (s.record.base + 0x18#32) 0x18#32 s.w.u :: s.trace
        w := { s.w with c := s.w.c + 1#32 }
        ctl := { s.ctl with pio := if s.w.c + 1#32 < s.w.count then .txWait else .eotWait, wait := .sample } }) ∧
    (s.ctl.pio = .rxDummy →
      exec (.pioRun t wl) s = .next { s with
        win := { s.win with txd := 0#32 }
        trace := .busWr (s.record.base + 0x18#32) 0x18#32 0#32 :: s.trace
        ctl := { s.ctl with pio := .rxWait, wait := .sample } }) ∧
    (s.ctl.pio = .rxRd →
      exec (.pioRun t wl) s = .next { s with
        ret := s.win.rxd, w := { s.w with u := s.win.rxd }
        trace := .busRd (s.record.base + 0x20#32) 0x20#32 s.win.rxd :: s.trace
        ctl := { s.ctl with pio := .rxMemWr } }) ∧
    (s.ctl.pio = .rxMemWr →
      exec (.pioRun t wl) s = .next { s with
        mem := s.mem.writeLE (t.rxaddr + s.w.c * s.w.unit.zeroExtend 32) s.w.u s.w.unit.toNat
        trace := .memWr (t.rxaddr + s.w.c * s.w.unit.zeroExtend 32) s.w.unit.toNat
          (lowBytes s.w.unit.toNat s.w.u) :: s.trace
        w := { s.w with c := s.w.c + 1#32 }
        ctl := { s.ctl with
          pio := if s.w.c + 1#32 < s.w.count then .rxDummy else .eotWait
          wait := if s.w.c + 1#32 < s.w.count then s.ctl.wait else .sample } })

/-- R158, R160, R162, R163, R167: a run's three waits are WAIT.BIT on their bit: the step of the run is the step of the
wait and, where that returned, what follows it; where they lead when they return, from a poll or a final read, and what
the run returns. -/
def Obligations.PioWaitsLeadOnOrEndTheRun : Prop :=
  ∀ (t : Transfer) (wl : BitVec 6) (s : State), s.record.valid = true →
    (∀ b, s.ctl.pio = .txWait ∧ b = .txrdy ∨ s.ctl.pio = .rxWait ∧ b = .rxrdy ∨ s.ctl.pio = .eotWait ∧ b = .eot →
      ∃ w, exec (.waitBit b) s = .next w ∧
        w.w.c = s.w.c ∧ w.w.unit = s.w.unit ∧ w.w.count = s.w.count ∧ w.w.u = s.w.u ∧ w.ctl.pio = s.ctl.pio ∧
        (s.ctl.wait = .poll ∨ s.ctl.wait = .final →
          w.w.s = s.win.stat ∧ w.trace = .busRd (s.record.base + 0x08#32) 0x08#32 s.win.stat :: s.trace) ∧
        exec (.pioRun t wl) s = .next
          (if w.ctl.wait ≠ .none then w
           else if w.w.wres = .ok then
             (if b = .txrdy then { w with ctl := { w.ctl with pio := .txMemRd } }
              else if b = .rxrdy then { w with ctl := { w.ctl with pio := .rxRd } }
              else { w with
                w := { w.w with nRet := w.w.c * w.w.unit.zeroExtend 32 }, ctl := { w.ctl with pio := .none } })
           else if b = .eot then { w with ctl := { w.ctl with pio := .eotLog } }
           else { w with ctl := { w.ctl with pio := .eotWait, wait := .sample } })) ∧
    (s.ctl.wait = .poll ∨ s.ctl.wait = .final →
      (s.ctl.pio = .txWait → s.win.stat.getLsbD 1 = true →
        ∃ u, exec (.pioRun t wl) s = .next u ∧ u.ctl = { s.ctl with pio := .txMemRd, wait := .none }) ∧
      (s.ctl.pio = .rxWait → s.win.stat.getLsbD 0 = true →
        ∃ u, exec (.pioRun t wl) s = .next u ∧ u.ctl = { s.ctl with pio := .rxRd, wait := .none }) ∧
      (s.ctl.pio = .eotWait → s.win.stat.getLsbD 2 = true →
        ∃ u, exec (.pioRun t wl) s = .next u ∧ u.ctl = { s.ctl with pio := .none, wait := .none } ∧
          u.w.nRet = s.w.c * s.w.unit.zeroExtend 32)) ∧
    (s.ctl.wait = .final →
      (s.ctl.pio = .txWait → s.win.stat.getLsbD 1 = false →
        ∃ u, exec (.pioRun t wl) s = .next u ∧ u.ctl = { s.ctl with pio := .eotWait, wait := .sample } ∧
          u.w.c = s.w.c) ∧
      (s.ctl.pio = .rxWait → s.win.stat.getLsbD 0 = false →
        ∃ u, exec (.pioRun t wl) s = .next u ∧ u.ctl = { s.ctl with pio := .eotWait, wait := .sample } ∧
          u.w.c = s.w.c) ∧
      (s.ctl.pio = .eotWait → s.win.stat.getLsbD 2 = false →
        ∃ u, exec (.pioRun t wl) s = .next u ∧ u.ctl = { s.ctl with pio := .eotLog, wait := .none })) ∧
    (s.ctl.pio = .eotLog →
      exec (.pioRun t wl) s = .next { s with
        trace := .log .postEotTimeout :: s.trace
        w := { s.w with nRet := s.w.c * s.w.unit.zeroExtend 32 }, ctl := { s.ctl with pio := .none } })

/-- R157 ("Not written"), R169, R165: the frame of PIO.RUN. No record, no CONF, no register of the message changes; memory
changes only in the bytes of the unit being stored; RXD and CONF of the window are never written. With a source buffer
present a run outside the receive path never enters it and never writes memory. -/
def Obligations.PioRunFrame : Prop :=
  ∀ (t : Transfer) (wl : BitVec 6) (s u : State), exec (.pioRun t wl) s = .next u →
    (t.txp = true → s.ctl.pio ≠ .rxDummy → s.ctl.pio ≠ .rxWait → s.ctl.pio ≠ .rxRd → s.ctl.pio ≠ .rxMemWr →
      u.ctl.pio ≠ .rxDummy ∧ u.ctl.pio ≠ .rxWait ∧ u.ctl.pio ≠ .rxRd ∧ u.ctl.pio ≠ .rxMemWr ∧ u.mem = s.mem) ∧
    u.recs = s.recs ∧ u.hwConf = s.hwConf ∧ u.hwConfValid = s.hwConfValid ∧ u.now = s.now ∧ u.port = s.port ∧
    u.ctl.seq = s.ctl.seq ∧ u.ctl.dly = s.ctl.dly ∧ u.ctl.upd = s.ctl.upd ∧ u.w.slot = s.w.slot ∧ u.w.msg = s.w.msg ∧ u.w.n = s.w.n ∧
    u.w.xi = s.w.xi ∧ u.w.status = s.w.status ∧ u.w.actual = s.w.actual ∧ u.w.v = s.w.v ∧ u.w.wl = s.w.wl ∧
    u.w.outcome = s.w.outcome ∧ u.w.descBase = s.w.descBase ∧ u.w.words = s.w.words ∧
    u.win.conf = s.win.conf ∧ u.win.stat = s.win.stat ∧ u.win.fctl = s.win.fctl ∧ u.win.rxd = s.win.rxd ∧
    (s.ctl.pio ≠ .rxMemWr → u.mem = s.mem) ∧
    (s.ctl.pio = .rxMemWr → Mem.wf s.mem → ∀ x : Nat,
      (∀ k < s.w.unit.toNat,
        x ≠ (t.rxaddr + s.w.c * s.w.unit.zeroExtend 32 + BitVec.ofNat 32 k).toNat) → u.mem.read x = s.mem.read x)

/-- R156, R157: the counters of a running PIO.RUN stay within the transfer's units. -/
def Obligations.StepKeepsPioCounted : Prop :=
  ∀ s t : State, s.PioCounted → step s = .next t → t.PioCounted

/-! ## Message Sequencer (43_message_sequencer.md) -/

/-- R182: what validation accepts. -/
def Obligations.ValidationAcceptsExactlyTheGoodMessages : Prop :=
  ∀ msg : List Transfer, validate msg = true ↔
    msg ≠ [] ∧ ∀ t ∈ msg,
      (t.speed.toNat = 0 ∨ (1464 ≤ t.speed.toNat ∧ t.speed.toNat ≤ 48000000)) ∧
      (t.len ≠ 0#32 → t.txp = true ∨ t.rxp = true)

/-- R103, R111, R180, R181: EXECUTE for a known peer latches the slot and the operands and goes on to the descriptor
reads; the step that reads the last word latches the decoded message and, where every descriptor is well-formed and the
list valid, goes on to the Assert write. No record, no other memory and no window register changes. -/
def Obligations.ExecuteAcceptsAGoodMessage : Prop :=
  (∀ (peer n : BitVec 8) (base : Word) (k : Slot) (s : State), s.ctl.seq = .idle → base.toNat % 4 = 0 →
    s.recs.lookup peer = some k → n ≠ 0#8 →
    exec (.execute peer n base) s = .next { s with
      ctl := { s.ctl with seq := .fetchDesc }
      w := { s.w with slot := k, n := n, descBase := base, words := [] } }) ∧
  (∀ (peer n : BitVec 8) (base v : Word) (ws : List Word) (s : State), s.ctl.seq = .fetchDesc →
    s.record.valid = true → s.w.words.length + 1 = 5 * s.w.n.toNat →
    v = s.mem.readLE (s.w.descBase + BitVec.ofNat 32 (4 * s.w.words.length)) 4 → ws = s.w.words ++ [v] →
    (∀ d ∈ descriptorsOf ws, d.ctrl &&& 0x0000C0FC#32 = 0#32 ∧ d.transfer.wellFormed s.record.wordLen = true) →
    validate ((descriptorsOf ws).map Td.transfer) = true →
    exec (.execute peer n base) s = .next { s with
      ctl := { s.ctl with seq := .assertWr }
      w := { s.w with words := ws, msg := (descriptorsOf ws).map Td.transfer }
      ret := v
      trace := .memRd (s.w.descBase + BitVec.ofNat 32 (4 * s.w.words.length)) 4 v :: s.trace })

/-- R16, R81, R97, R98: each step of the fetch reads the next word, once, one MemRd of four bytes at ARG + 4 k for word k,
and no other step of the fetch or of acceptance reads memory; five words in list order make a descriptor. -/
def Obligations.ExecuteFetchesEveryDescriptorOnceInOrder : Prop :=
  (∀ (peer n : BitVec 8) (base : Word) (s : State), s.ctl.seq = .fetchDesc → s.record.valid = true →
    ∃ t v, exec (.execute peer n base) s = .next t ∧
      v = s.mem.readLE (s.w.descBase + BitVec.ofNat 32 (4 * s.w.words.length)) 4 ∧
      t.trace = .memRd (s.w.descBase + BitVec.ofNat 32 (4 * s.w.words.length)) 4 v :: s.trace ∧
      t.w.words = s.w.words ++ [v] ∧ t.w.descBase = s.w.descBase ∧ t.w.n = s.w.n ∧ t.w.slot = s.w.slot ∧
      t.mem = s.mem ∧ t.recs = s.recs ∧ t.win = s.win ∧ t.hwConf = s.hwConf ∧
      (s.w.words.length + 1 ≠ 5 * s.w.n.toNat → t = { s with
        ret := v, trace := t.trace, w := { s.w with words := s.w.words ++ [v] } }) ∧
      (t.ctl.seq = .fetchDesc ↔ s.w.words.length + 1 ≠ 5 * s.w.n.toNat)) ∧
  (∀ (peer n : BitVec 8) (base : Word) (s t : State), s.ctl.seq = .idle → exec (.execute peer n base) s = .next t →
    t.trace = s.trace) ∧
  (∀ (n : Nat) (ws : List Word), ws.length = 5 * n → (descriptorsOf ws).length = n ∧
    ∀ i < n, ∃ d : Td, (descriptorsOf ws)[i]? = some d ∧ ws[5 * i]? = some d.ctrl ∧ ws[5 * i + 1]? = some d.len ∧
      ws[5 * i + 2]? = some d.txaddr ∧ ws[5 * i + 3]? = some d.rxaddr ∧ ws[5 * i + 4]? = some d.speed)

/-- R102, R103, R111, R181 to R183: a command that fails a check before the fetch, an empty message, and a message whose
last word makes it ill-formed or invalid go to the rejection row with no record, memory, window or cache change and no
bus event; the rejection row answers ST_EINVAL and latches FAILED. -/
def Obligations.ExecuteRejectionTouchesNoHardware : Prop :=
  ∀ (peer n : BitVec 8) (base : Word) (s : State),
    (s.ctl.seq = .idle → base.toNat % 4 ≠ 0 ∨ s.recs.lookup peer = none →
      exec (.execute peer n base) s = .next { s with ctl := { s.ctl with seq := .rejRsp } }) ∧
    (∀ k, s.ctl.seq = .idle → base.toNat % 4 = 0 → s.recs.lookup peer = some k → n = 0#8 →
      exec (.execute peer n base) s = .next { s with
        ctl := { s.ctl with seq := .rejRsp }
        w := { s.w with slot := k, n := n, descBase := base, words := [], msg := [] } }) ∧
    (∀ v ws, s.ctl.seq = .fetchDesc → s.record.valid = true → s.w.words.length + 1 = 5 * s.w.n.toNat →
      v = s.mem.readLE (s.w.descBase + BitVec.ofNat 32 (4 * s.w.words.length)) 4 → ws = s.w.words ++ [v] →
      (∃ d ∈ descriptorsOf ws,
          ¬(d.ctrl &&& 0x0000C0FC#32 = 0#32 ∧ d.transfer.wellFormed s.record.wordLen = true)) ∨
        validate ((descriptorsOf ws).map Td.transfer) = false →
      exec (.execute peer n base) s = .next { s with
        ctl := { s.ctl with seq := .rejRsp }
        w := { s.w with words := ws, msg := (descriptorsOf ws).map Td.transfer }
        ret := v
        trace := .memRd (s.w.descBase + BitVec.ofNat 32 (4 * s.w.words.length)) 4 v :: s.trace }) ∧
    (s.ctl.seq = .rejCpl → exec (.execute peer n base) s = .next { s with
      ctl := { s.ctl with seq := .rejRsp }, trace := .cpl .einval 0#32 :: s.trace }) ∧
    (s.ctl.seq = .rejRsp → exec (.execute peer n base) s = .next { s with
      ctl := { s.ctl with seq := .idle }, w := { s.w with outcome := .failed }
      trace := .rsp .einval 0#2 :: s.trace })

/-- R184: the Assert row starts the status and the total and writes the cache with SPIEN set, nothing else. -/
def Obligations.AssertWritesTheCacheWithSpienSet : Prop :=
  ∀ (peer n : BitVec 8) (base : Word) (s : State), s.ctl.seq = .assertWr → s.record.valid = true →
    s.record.cacheValid = true → s.ctl.upd = .none →
    ∃ t v, exec (.execute peer n base) s = .next t ∧ v = s.record.cache ||| 0x80000000#32 ∧
      t = { s with
        ctl := { s.ctl with seq := .assertWait, wait := .sample }
        w := { s.w with status := .ok, actual := 0#32, v := v }
        ret := s.record.cache
        win := { s.win with conf := v }
        trace := .busWr s.record.base 0x00#32 v :: s.trace
        recs := s.recs.set s.w.slot { s.record with cache := v, cacheValid := true, shadow := v, shadowValid := true }
        hwConf := v, hwConfValid := true }

/-- R185, R198, R44 b: the Assert wait is WAIT.BIT on EOT; where it returned, the same step selects the first transfer of
the loop, or, on timeout, the log and then the De-assert follow, with status and total untouched. -/
def Obligations.AssertWaitEntersTheLoopOrSkipsIt : Prop :=
  ∀ (peer n : BitVec 8) (base : Word) (s : State),
    (s.ctl.seq = .assertWait → s.record.valid = true →
      ∃ t, exec (.waitBit .eot) s = .next t ∧ t.recs = s.recs ∧ t.mem = s.mem ∧ t.win = s.win ∧
        t.w.status = s.w.status ∧ t.w.actual = s.w.actual ∧
        exec (.execute peer n base) s = .next
          (if t.ctl.wait ≠ .none then t
           else if t.w.wres = .ok then selectTransfer { t with w := { t.w with xi := 0#8 } }
           else { t with ctl := { t.ctl with seq := .assertLog } }) ∧
        ((s.ctl.wait = .poll ∨ s.ctl.wait = .final) → s.win.stat.getLsbD 2 = true →
          t.ctl.wait = .none ∧ t.w.wres = .ok) ∧
        (s.ctl.wait = .final → s.win.stat.getLsbD 2 = false → t.ctl.wait = .none ∧ t.w.wres = .timeout)) ∧
    (s.ctl.seq = .assertLog → exec (.execute peer n base) s = .next { s with
      ctl := { s.ctl with seq := .deassertWr }, trace := .log .assertEotTimeout :: s.trace })

/-- R186, R194, R198, R44 b: transfer W.xi is the list's, up to W.n; selecting one of nonzero length latches its effective
word length and leads to its Configuration update, and an exhausted list leads to De-assert; nothing else changes. A
transfer placed at its head falls through to the Configuration update in the same step (R43). -/
def Obligations.DataTransferStartsWithItsWordLength : Prop :=
  (∀ s : State, s.currentTransfer =
    if s.w.xi.toNat < s.w.n.toNat then s.w.msg[s.w.xi.toNat]? else none) ∧
  (∀ (s : State) (x : Transfer), s.currentTransfer = some x → x.len ≠ 0#32 →
    selectTransfer s = { s with
      ctl := { s.ctl with seq := .xferConfWr }
      w := { s.w with wl := if x.bpw = 0#6 then s.record.wordLen else x.bpw } }) ∧
  (∀ s : State, s.currentTransfer = none →
    selectTransfer s = { s with ctl := { s.ctl with seq := .deassertWr } }) ∧
  (∀ (rxp : Bool) (len : Word) (a : XferArgs) (s : State) (i : Instr), s.ctl.seq = .xferHead →
    s.record.valid = true → len ≠ 0#32 → i = .xferTx rxp len a ∨ i = .xferRx len a →
    exec i s = exec i { s with
      ctl := { s.ctl with seq := .xferConfWr }
      w := { s.w with wl := if a.bpw = 0#6 then s.record.wordLen else a.bpw } })

/-- R190, R157, R167: the per-transfer Configuration update: TRM by direction, WL, CSIDX; every other field as cached; one
bus write; in the same step PIO.RUN starts, with its counters at their entry values, on the transmit path for XFER.TX and on
the receive path for XFER.RX. -/
def Obligations.TransferConfigurationUpdateSetsThreeFields : Prop :=
  ∀ (len : Word) (a : XferArgs) (s : State) (i : Instr) (trm : Word), s.ctl.seq = .xferConfWr →
    s.record.valid = true → s.record.cacheValid = true → s.ctl.upd = .none → len ≠ 0#32 →
    4 ≤ s.w.wl.toNat → s.w.wl.toNat ≤ 32 →
    ((∃ rxp, i = .xferTx rxp len a) ∧ trm = 2#32 ∨ i = .xferRx len a ∧ trm = 1#32) →
    ∃ t v, exec i s = .next t ∧
      getField .trm v = trm ∧ (getField .wl v).toNat = s.w.wl.toNat - 1 ∧
      (getField .csidx v).toNat = s.record.cs.toNat ∧
      (∀ f, f ≠ .trm → f ≠ .wl → f ≠ .csidx → getField f v = getField f s.record.cache) ∧
      t = { s with
        ctl := t.ctl
        w := { s.w with v := v, unit := unitBytes s.w.wl, count := unitCount len (unitBytes s.w.wl), c := 0#32 }
        ret := s.record.cache
        win := { s.win with conf := v }
        trace := .busWr s.record.base 0x00#32 v :: s.trace
        recs := s.recs.set s.w.slot { s.record with cache := v, cacheValid := true, shadow := v, shadowValid := true }
        hwConf := v, hwConfValid := true } ∧
      t.ctl.seq = .xferPio ∧ t.ctl.dly = s.ctl.dly ∧ t.ctl.upd = .none ∧
      (t.w.count ≠ 0#32 → trm = 2#32 → t.ctl.pio = .txWait ∧ t.ctl.wait = .sample) ∧
      (t.w.count ≠ 0#32 → trm = 1#32 → t.ctl.pio = .rxDummy ∧ t.ctl.wait = s.ctl.wait) ∧
      (t.w.count = 0#32 → t.ctl.pio = .eotWait ∧ t.ctl.wait = .sample)

/-- R191, R192, R193, R198: the PIO row of a transfer is PIO.RUN on it; where the run returned, its bytes are added; a
short transfer sets ST_EIO and goes to the De-assert, its delay not taken; a whole one goes on to its delay or, in the same
step, to the selection of the next transfer. -/
def Obligations.TransferAccountsForItsBytes : Prop :=
  ∀ (len : Word) (a : XferArgs) (s : State) (i : Instr) (x : Transfer) (rxp : Bool),
    (i = .xferTx rxp len a ∧ x = ⟨len, true, a.txaddr, rxp, a.rxaddr, a.bpw, a.speed, a.delay⟩) ∨
      (i = .xferRx len a ∧ x = ⟨len, false, a.txaddr, true, a.rxaddr, a.bpw, a.speed, a.delay⟩) →
    s.ctl.seq = .xferPio → s.record.valid = true → len ≠ 0#32 →
    ∃ u, exec (.pioRun x s.w.wl) s = .next u ∧
      (u.ctl.pio ≠ .none → exec i s = .next u) ∧
      (u.ctl.pio = .none → u.w.nRet ≠ len → exec i s = .next { u with
        w := { u.w with actual := u.w.actual + u.w.nRet, status := .eio }
        ctl := { u.ctl with seq := .deassertWr } }) ∧
      (u.ctl.pio = .none → u.w.nRet = len → a.delay ≠ 0#16 → exec i s = .next { u with
        w := { u.w with actual := u.w.actual + u.w.nRet }
        ctl := { u.ctl with seq := .xferDelay, dly := .sample } }) ∧
      (u.ctl.pio = .none → u.w.nRet = len → a.delay = 0#16 → exec i s = .next (selectTransfer { u with
        w := { u.w with actual := u.w.actual + u.w.nRet, xi := u.w.xi + 1#8 } })) ∧
      (s.ctl.pio = .eotLog → u.ctl.pio = .none ∧ u.w.nRet = s.w.c * s.w.unit.zeroExtend 32)

/-- R187, R193, R198, R44 b: a transfer of length 0 takes only its delay: no bus or memory event, no register but W.xi and
the latch; selecting one leads to its delay, or passes over it where it has none. The delay row is one for the three kinds:
DELAY, and in the step of DelayDone the selection of the next transfer. -/
def Obligations.TransferTakesItsDelayThenTheNextFollows : Prop :=
  (∀ (s : State) (x : Transfer), s.currentTransfer = some x → x.len = 0#32 →
    (x.delay = 0#16 → selectTransfer s = selectTransfer { s with w := { s.w with xi := s.w.xi + 1#8 } }) ∧
    (x.delay ≠ 0#16 → selectTransfer s = { s with ctl := { s.ctl with seq := .xferDelay, dly := .sample } })) ∧
  ∀ (txp rxp : Bool) (len : Word) (a : XferArgs) (s : State) (i : Instr),
    (s.ctl.seq = .xferHead → a.delay = 0#16 →
      exec (.xferSkip txp rxp a) s = .next (selectTransfer { s with w := { s.w with xi := s.w.xi + 1#8 } })) ∧
    (s.ctl.seq = .xferHead → a.delay ≠ 0#16 →
      exec (.xferSkip txp rxp a) s = .next { s with
        w := { s.w with t0 := s.now }, trace := .sample :: s.trace
        ctl := { s.ctl with seq := .xferDelay, dly := .wait } }) ∧
    (s.ctl.seq = .xferDelay →
      i = .xferSkip txp rxp a ∨ (s.record.valid = true ∧ len ≠ 0#32 ∧ (i = .xferTx rxp len a ∨ i = .xferRx len a)) →
      (s.ctl.dly = .sample → exec i s = .next { s with
        w := { s.w with t0 := s.now }, trace := .sample :: s.trace, ctl := { s.ctl with dly := .wait } }) ∧
      (s.ctl.dly = .wait → s.now - s.w.t0 < a.delay.toNat → exec i s = .next s) ∧
      (s.ctl.dly = .wait → a.delay.toNat ≤ s.now - s.w.t0 → exec i s = .next (selectTransfer { s with
        w := { s.w with xi := s.w.xi + 1#8 }, trace := .delayDone a.delay :: s.trace
        ctl := { s.ctl with dly := .none } })))

/-- R195, R196, R45: De-assert writes the cache with SPIEN clear; then exactly one Cpl with the status and the total;
then Rsp, with the outcome latched and the engine idle. -/
def Obligations.DeassertThenCompletionThenResponse : Prop :=
  ∀ (peer n : BitVec 8) (base : Word) (s : State),
    (s.ctl.seq = .deassertWr → s.record.valid = true → s.record.cacheValid = true → s.ctl.upd = .none →
      ∃ v, v = s.record.cache &&& 0x7FFFFFFF#32 ∧
        exec (.execute peer n base) s = .next { s with
          ctl := { s.ctl with seq := .finalCpl }
          w := { s.w with v := v }
          ret := s.record.cache
          win := { s.win with conf := v }
          trace := .busWr s.record.base 0x00#32 v :: s.trace
          recs := s.recs.set s.w.slot
            { s.record with cache := v, cacheValid := true, shadow := v, shadowValid := true }
          hwConf := v, hwConfValid := true }) ∧
    (s.ctl.seq = .finalCpl → exec (.execute peer n base) s = .next { s with
      ctl := { s.ctl with seq := .finalRsp }, trace := .cpl s.w.status s.w.actual :: s.trace }) ∧
    (s.ctl.seq = .finalRsp → exec (.execute peer n base) s = .next { s with
      ctl := { s.ctl with seq := .idle }
      w := { s.w with outcome := if s.w.status = .ok then .completed else .failed }
      trace := .rsp s.w.status 0#2 :: s.trace })

/-- R103, R182, R194: the message of a running EXECUTE stays one that passed the checks, and the transfer being run stays
in it with its effective word length. -/
def Obligations.StepKeepsTheMessageChecked : Prop :=
  ∀ s t : State, s.MessageChecked → step s = .next t → t.MessageChecked

/-- R195, R199 (P-idle, P-spien), R249: SPI-enable is set in a record's cache, and in the last CONF value written, exactly
between a message's Assert write and its De-assert write. -/
def Obligations.StepKeepsSpienDisciplined : Prop :=
  ∀ s t : State, s.RecordsReady → s.SpienDisciplined → step s = .next t → t.SpienDisciplined

/-- R104, R290, R23: no step leaves a reserved value in CONF or sets a bit that no operation of the source sets. -/
def Obligations.StepKeepsConfigurationsClean : Prop :=
  ∀ s t : State, s.RecordsReady → s.WordLengthsLegal → s.MessageChecked → s.ConfsClean → step s = .next t →
    t.WordLengthsLegal ∧ t.ConfsClean

/-- R8, R16, R44 b: every step of a command after its acceptance emits exactly one event, but for a DELAY that has not
elapsed, in which the engine has no step; an idle step emits none, or the answer to a reserved OPC. And R29, R106, R131,
R196, R243: no step writes STAT, RXD or FCTL, reads TXD, FCTL or CONF on the bus, or reports ST_ETIMEDOUT. -/
def Obligations.StepEmitsNoForbiddenEvent : Prop :=
  (∀ s t : State, s.RecordsReady → s.StatusReportable → step s = .next t →
    t.StatusReportable ∧ ∃ es : List Event, t.trace = es ++ s.trace ∧ ∀ e ∈ es, e.forbidden = false) ∧
  (∀ s t : State, s.ctl.wf → s.MessageChecked → s.ctl.seq ≠ .idle → step s = .next t →
    (∃ e : Event, t.trace = e :: s.trace) ∨ (s.ctl.dly = .wait ∧ t = s.arrive)) ∧
  (∀ s t : State, s.ctl.seq = .idle → step s = .next t →
    t.trace = s.trace ∨ t.trace = .rsp .einval 0#2 :: s.trace)

/-! ## Per-Device Setup and release (44_device_setup.md) -/

/-- R223: the initial Configuration value, as a number, and field by field. -/
def Obligations.InitialConfigurationValue : Prop :=
  ∀ (w : BitVec 6) (c : BitVec 2), 4 ≤ w.toNat → w.toNat ≤ 32 →
    (confInit w c).toNat = (w.toNat - 1) * 16 + c.toNat * 16384 ∧
    (getField .wl (confInit w c)).toNat = w.toNat - 1 ∧ (getField .csidx (confInit w c)).toNat = c.toNat ∧
    ∀ f, f ≠ .wl → f ≠ .csidx → getField f (confInit w c) = 0#32

/-- R221, R222, R224 to R226, R245: CONFIGURE for a new peer creates a record in the lowest free slot; for a peer that has a
record it reuses it and rewrites only `cs` and `word_len`; with every slot in use and no record for the peer it changes
nothing and will answer ST_ENOMEM. No other record changes. -/
def Obligations.ConfigureCreatesOrReusesOneRecord : Prop :=
  ∀ (peer : BitVec 8) (cs : BitVec 2) (bpw : BitVec 6) (k : Slot) (s : State), s.ctl.seq = .idle →
    4 ≤ bpw.toNat → bpw.toNat ≤ 32 →
    ((∀ j, (s.recs.get j).valid = true → (s.recs.get j).peer ≠ peer) → (s.recs.get k).valid = false →
      (∀ j : Slot, j.handle < k.handle → (s.recs.get j).valid = true) →
      exec (.configure peer cs bpw) s = .next { s with
        recs := s.recs.set k { s.recs.get k with
          valid := true, peer := peer, base := s.windowBase, phys := s.windowPhys, cs := cs, wordLen := bpw
          cacheValid := false, shadowValid := false }
        w := { s.w with slot := k }, ctl := { s.ctl with seq := .cfgWr } }) ∧
    (s.PeersDistinct → (s.recs.get k).valid = true → (s.recs.get k).peer = peer →
      exec (.configure peer cs bpw) s = .next { s with
        recs := s.recs.set k { s.recs.get k with cs := cs, wordLen := bpw }
        w := { s.w with slot := k }, ctl := { s.ctl with seq := .cfgWr } }) ∧
    ((∀ j, (s.recs.get j).valid = true ∧ (s.recs.get j).peer ≠ peer) →
      exec (.configure peer cs bpw) s = .next { s with ctl := { s.ctl with seq := .cfgRsp .enomem } })

/-- R223, R227, R231, R51: the two rows after CONFIGURE's acceptance: the initial value through REG.WRITE with no read,
then the response with the slot as handle; W.outcome is not changed. -/
def Obligations.ConfigureWritesTheInitialValueThenResponds : Prop :=
  ∀ (peer : BitVec 8) (cs : BitVec 2) (bpw : BitVec 6) (s : State),
    (s.ctl.seq = .cfgWr → s.record.valid = true →
      ∃ v, v = confInit s.record.wordLen s.record.cs ∧
        exec (.configure peer cs bpw) s = .next { s with
          ctl := { s.ctl with seq := .cfgRsp .ok }
          w := { s.w with v := v }
          win := { s.win with conf := v }
          trace := .busWr s.record.base 0x00#32 v :: s.trace
          recs := s.recs.set s.w.slot
            { s.record with cache := v, cacheValid := true, shadow := v, shadowValid := true }
          hwConf := v, hwConfValid := true }) ∧
    (∀ st, s.ctl.seq = .cfgRsp st →
      exec (.configure peer cs bpw) s = .next { s with
        ctl := { s.ctl with seq := .idle }
        trace := .rsp st (if st = .ok then s.w.slot.handle else 0#2) :: s.trace })

/-- R221 to R227, R231 as a run: from an idle engine with CONFIGURE at its port three steps write the initial value once,
answer ST_OK with the slot, leave the record with that value cached, and leave every other record alone, whatever the
other agents do meanwhile. -/
def Obligations.ConfigureRunsToItsResponseInThreeSteps : Prop :=
  ∀ (peer : BitVec 8) (cs : BitVec 2) (bpw : BitVec 6) (k : Slot) (s : State), s.attached = true →
    s.windowBase.toNat % 8 = 0 → s.cohOk = true → s.ctl.seq = .idle → 4 ≤ bpw.toNat → bpw.toNat ≤ 32 →
    s.port = some ⟨encodeConfigure peer cs bpw, 0#32⟩ →
    (s.recs.lookup peer = some k ∨ (s.recs.lookup peer = none ∧ s.recs.free = some k)) →
    ∃ t : State, Host.Core.run Sys2Proof.core 3 s = .next t ∧ t.ctl = s.ctl ∧
      t.trace = .rsp .ok k.handle :: .busWr (t.recs.get k).base 0x00#32 (confInit bpw cs) :: s.trace ∧
      (t.recs.get k).valid = true ∧ (t.recs.get k).peer = peer ∧ (t.recs.get k).cs = cs ∧
      (t.recs.get k).wordLen = bpw ∧ (t.recs.get k).cacheValid = true ∧
      (t.recs.get k).cache = confInit bpw cs ∧
      (∀ j, j ≠ k → t.recs.get j = s.recs.get j) ∧ t.w.outcome = s.w.outcome

/-- R228 to R230, R231: RELEASE clears the record of its peer and touches nothing else; for a peer with no record it
changes nothing and will answer ST_EINVAL; then it responds. -/
def Obligations.ReleaseClearsThePeersRecordThenResponds : Prop :=
  ∀ (peer : BitVec 8) (s : State),
    (∀ k, s.ctl.seq = .idle → s.PeersDistinct → (s.recs.get k).valid = true → (s.recs.get k).peer = peer →
      exec (.release peer) s = .next { s with
        recs := s.recs.set k { s.recs.get k with valid := false }, ctl := { s.ctl with seq := .relRsp .ok } }) ∧
    (s.ctl.seq = .idle → (∀ k, (s.recs.get k).valid = true → (s.recs.get k).peer ≠ peer) →
      exec (.release peer) s = .next { s with ctl := { s.ctl with seq := .relRsp .einval } }) ∧
    (∀ st, s.ctl.seq = .relRsp st →
      exec (.release peer) s = .next { s with
        ctl := { s.ctl with seq := .idle }, trace := .rsp st 0#2 :: s.trace })

/-! ## Busy engine and status codes (10_state.md R50, 60_exceptions.md) -/

/-- R50: a host command met by a busy engine is held: it stays at the port in every step until the engine is idle, and exec
of it has no effect (the model's form of it, log 15). -/
def Obligations.HostCommandsAreHeldWhileAnotherRuns : Prop :=
  (∀ (s t : State) (c : Command), s.ctl.seq ≠ .idle → s.port = some c → step s = .next t → t.port = some c) ∧
  ∀ s : State,
    (s.ctl.seq.inMessage = true ∨ (∃ st, s.ctl.seq = .relRsp st) ∨ s.ctl.seq = .fetchDesc ∨ s.ctl.seq = .rejCpl ∨
        s.ctl.seq = .rejRsp ∨ s.ctl.seq = .finalCpl ∨ s.ctl.seq = .finalRsp →
      ∀ peer cs bpw, exec (.configure peer cs bpw) s = .next s) ∧
    (s.ctl.seq.inMessage = true ∨ s.ctl.seq = .cfgWr ∨ (∃ st, s.ctl.seq = .cfgRsp st) ∨ s.ctl.seq = .fetchDesc ∨
        s.ctl.seq = .rejCpl ∨ s.ctl.seq = .rejRsp ∨ s.ctl.seq = .finalCpl ∨ s.ctl.seq = .finalRsp →
      ∀ peer, exec (.release peer) s = .next s) ∧
    (s.ctl.seq = .cfgWr ∨ (∃ st, s.ctl.seq = .cfgRsp st) ∨ (∃ st, s.ctl.seq = .relRsp st) →
      ∀ peer n base, exec (.execute peer n base) s = .next s)

/-- R107, R240: the response and completion words. -/
def Obligations.ResponseWordsCarryStatusAndHandle : Prop :=
  ∀ (st : Status) (h : BitVec 2) (n : Word),
    Event.portWords (.rsp st h) = [rspWord st h] ∧ (rspWord st h).toNat = st.code.toNat + 256 * h.toNat ∧
    Event.portWords (.cpl st n) = [st.code.zeroExtend 32, n] ∧
    Status.code .ok = 0#4 ∧ Status.code .einval = 1#4 ∧ Status.code .etimedout = 2#4 ∧ Status.code .eio = 3#4 ∧
    Status.code .enomem = 4#4
end

