-- ==== Sys2Proof/Laws/State.lean ====
section
/-!
SUPPORT. The small lemmas of the state's updates: what each field is after each update.
-/
namespace Sys2Proof.Machine

variable (s : State)

@[simp] theorem State.setCtl_ctl (c : Ctl) : (s.setCtl c).ctl = c := rfl
@[simp] theorem State.setCtl_recs (c : Ctl) : (s.setCtl c).recs = s.recs := rfl
@[simp] theorem State.setCtl_w (c : Ctl) : (s.setCtl c).w = s.w := rfl
@[simp] theorem State.setCtl_hwConf (c : Ctl) : (s.setCtl c).hwConf = s.hwConf := rfl
@[simp] theorem State.setCtl_hwConfValid (c : Ctl) : (s.setCtl c).hwConfValid = s.hwConfValid := rfl
@[simp] theorem State.setCtl_win (c : Ctl) : (s.setCtl c).win = s.win := rfl
@[simp] theorem State.setCtl_windowBase (c : Ctl) : (s.setCtl c).windowBase = s.windowBase := rfl
@[simp] theorem State.setCtl_windowPhys (c : Ctl) : (s.setCtl c).windowPhys = s.windowPhys := rfl
@[simp] theorem State.setCtl_now (c : Ctl) : (s.setCtl c).now = s.now := rfl
@[simp] theorem State.setCtl_mem (c : Ctl) : (s.setCtl c).mem = s.mem := rfl
@[simp] theorem State.setCtl_port (c : Ctl) : (s.setCtl c).port = s.port := rfl
@[simp] theorem State.setCtl_attached (c : Ctl) : (s.setCtl c).attached = s.attached := rfl
@[simp] theorem State.setCtl_ret (c : Ctl) : (s.setCtl c).ret = s.ret := rfl
@[simp] theorem State.setCtl_trace (c : Ctl) : (s.setCtl c).trace = s.trace := rfl
@[simp] theorem State.setCtl_inputs (c : Ctl) : (s.setCtl c).inputs = s.inputs := rfl
@[simp] theorem State.setCtl_drawn (c : Ctl) : (s.setCtl c).drawn = s.drawn := rfl

@[simp] theorem State.setSeq_ctl (q : SeqState) : (s.setSeq q).ctl = { s.ctl with seq := q } := rfl
@[simp] theorem State.setSeq_recs (q : SeqState) : (s.setSeq q).recs = s.recs := rfl
@[simp] theorem State.setSeq_w (q : SeqState) : (s.setSeq q).w = s.w := rfl
@[simp] theorem State.setSeq_hwConf (q : SeqState) : (s.setSeq q).hwConf = s.hwConf := rfl
@[simp] theorem State.setSeq_hwConfValid (q : SeqState) : (s.setSeq q).hwConfValid = s.hwConfValid := rfl
@[simp] theorem State.setSeq_win (q : SeqState) : (s.setSeq q).win = s.win := rfl
@[simp] theorem State.setSeq_windowBase (q : SeqState) : (s.setSeq q).windowBase = s.windowBase := rfl
@[simp] theorem State.setSeq_windowPhys (q : SeqState) : (s.setSeq q).windowPhys = s.windowPhys := rfl
@[simp] theorem State.setSeq_now (q : SeqState) : (s.setSeq q).now = s.now := rfl
@[simp] theorem State.setSeq_mem (q : SeqState) : (s.setSeq q).mem = s.mem := rfl
@[simp] theorem State.setSeq_port (q : SeqState) : (s.setSeq q).port = s.port := rfl
@[simp] theorem State.setSeq_attached (q : SeqState) : (s.setSeq q).attached = s.attached := rfl
@[simp] theorem State.setSeq_ret (q : SeqState) : (s.setSeq q).ret = s.ret := rfl
@[simp] theorem State.setSeq_trace (q : SeqState) : (s.setSeq q).trace = s.trace := rfl
@[simp] theorem State.setSeq_inputs (q : SeqState) : (s.setSeq q).inputs = s.inputs := rfl
@[simp] theorem State.setSeq_drawn (q : SeqState) : (s.setSeq q).drawn = s.drawn := rfl

@[simp] theorem State.setPio_ctl (p : PioState) : (s.setPio p).ctl = { s.ctl with pio := p } := rfl
@[simp] theorem State.setPio_recs (p : PioState) : (s.setPio p).recs = s.recs := rfl
@[simp] theorem State.setPio_w (p : PioState) : (s.setPio p).w = s.w := rfl
@[simp] theorem State.setPio_hwConf (p : PioState) : (s.setPio p).hwConf = s.hwConf := rfl
@[simp] theorem State.setPio_hwConfValid (p : PioState) : (s.setPio p).hwConfValid = s.hwConfValid := rfl
@[simp] theorem State.setPio_win (p : PioState) : (s.setPio p).win = s.win := rfl
@[simp] theorem State.setPio_windowBase (p : PioState) : (s.setPio p).windowBase = s.windowBase := rfl
@[simp] theorem State.setPio_windowPhys (p : PioState) : (s.setPio p).windowPhys = s.windowPhys := rfl
@[simp] theorem State.setPio_now (p : PioState) : (s.setPio p).now = s.now := rfl
@[simp] theorem State.setPio_mem (p : PioState) : (s.setPio p).mem = s.mem := rfl
@[simp] theorem State.setPio_port (p : PioState) : (s.setPio p).port = s.port := rfl
@[simp] theorem State.setPio_attached (p : PioState) : (s.setPio p).attached = s.attached := rfl
@[simp] theorem State.setPio_ret (p : PioState) : (s.setPio p).ret = s.ret := rfl
@[simp] theorem State.setPio_trace (p : PioState) : (s.setPio p).trace = s.trace := rfl
@[simp] theorem State.setPio_inputs (p : PioState) : (s.setPio p).inputs = s.inputs := rfl
@[simp] theorem State.setPio_drawn (p : PioState) : (s.setPio p).drawn = s.drawn := rfl

@[simp] theorem State.setWait_ctl (x : WaitState) : (s.setWait x).ctl = { s.ctl with wait := x } := rfl
@[simp] theorem State.setWait_recs (x : WaitState) : (s.setWait x).recs = s.recs := rfl
@[simp] theorem State.setWait_w (x : WaitState) : (s.setWait x).w = s.w := rfl
@[simp] theorem State.setWait_hwConf (x : WaitState) : (s.setWait x).hwConf = s.hwConf := rfl
@[simp] theorem State.setWait_hwConfValid (x : WaitState) : (s.setWait x).hwConfValid = s.hwConfValid := rfl
@[simp] theorem State.setWait_win (x : WaitState) : (s.setWait x).win = s.win := rfl
@[simp] theorem State.setWait_windowBase (x : WaitState) : (s.setWait x).windowBase = s.windowBase := rfl
@[simp] theorem State.setWait_windowPhys (x : WaitState) : (s.setWait x).windowPhys = s.windowPhys := rfl
@[simp] theorem State.setWait_now (x : WaitState) : (s.setWait x).now = s.now := rfl
@[simp] theorem State.setWait_mem (x : WaitState) : (s.setWait x).mem = s.mem := rfl
@[simp] theorem State.setWait_port (x : WaitState) : (s.setWait x).port = s.port := rfl
@[simp] theorem State.setWait_attached (x : WaitState) : (s.setWait x).attached = s.attached := rfl
@[simp] theorem State.setWait_ret (x : WaitState) : (s.setWait x).ret = s.ret := rfl
@[simp] theorem State.setWait_trace (x : WaitState) : (s.setWait x).trace = s.trace := rfl
@[simp] theorem State.setWait_inputs (x : WaitState) : (s.setWait x).inputs = s.inputs := rfl
@[simp] theorem State.setWait_drawn (x : WaitState) : (s.setWait x).drawn = s.drawn := rfl

@[simp] theorem State.setDly_ctl (d : DlyState) : (s.setDly d).ctl = { s.ctl with dly := d } := rfl
@[simp] theorem State.setDly_recs (d : DlyState) : (s.setDly d).recs = s.recs := rfl
@[simp] theorem State.setDly_w (d : DlyState) : (s.setDly d).w = s.w := rfl
@[simp] theorem State.setDly_hwConf (d : DlyState) : (s.setDly d).hwConf = s.hwConf := rfl
@[simp] theorem State.setDly_hwConfValid (d : DlyState) : (s.setDly d).hwConfValid = s.hwConfValid := rfl
@[simp] theorem State.setDly_win (d : DlyState) : (s.setDly d).win = s.win := rfl
@[simp] theorem State.setDly_windowBase (d : DlyState) : (s.setDly d).windowBase = s.windowBase := rfl
@[simp] theorem State.setDly_windowPhys (d : DlyState) : (s.setDly d).windowPhys = s.windowPhys := rfl
@[simp] theorem State.setDly_now (d : DlyState) : (s.setDly d).now = s.now := rfl
@[simp] theorem State.setDly_mem (d : DlyState) : (s.setDly d).mem = s.mem := rfl
@[simp] theorem State.setDly_port (d : DlyState) : (s.setDly d).port = s.port := rfl
@[simp] theorem State.setDly_attached (d : DlyState) : (s.setDly d).attached = s.attached := rfl
@[simp] theorem State.setDly_ret (d : DlyState) : (s.setDly d).ret = s.ret := rfl
@[simp] theorem State.setDly_trace (d : DlyState) : (s.setDly d).trace = s.trace := rfl
@[simp] theorem State.setDly_inputs (d : DlyState) : (s.setDly d).inputs = s.inputs := rfl
@[simp] theorem State.setDly_drawn (d : DlyState) : (s.setDly d).drawn = s.drawn := rfl

@[simp] theorem State.setUpd_ctl (x : UpdState) : (s.setUpd x).ctl = { s.ctl with upd := x } := rfl
@[simp] theorem State.setUpd_recs (x : UpdState) : (s.setUpd x).recs = s.recs := rfl
@[simp] theorem State.setUpd_w (x : UpdState) : (s.setUpd x).w = s.w := rfl
@[simp] theorem State.setUpd_hwConf (x : UpdState) : (s.setUpd x).hwConf = s.hwConf := rfl
@[simp] theorem State.setUpd_hwConfValid (x : UpdState) : (s.setUpd x).hwConfValid = s.hwConfValid := rfl
@[simp] theorem State.setUpd_win (x : UpdState) : (s.setUpd x).win = s.win := rfl
@[simp] theorem State.setUpd_windowBase (x : UpdState) : (s.setUpd x).windowBase = s.windowBase := rfl
@[simp] theorem State.setUpd_windowPhys (x : UpdState) : (s.setUpd x).windowPhys = s.windowPhys := rfl
@[simp] theorem State.setUpd_now (x : UpdState) : (s.setUpd x).now = s.now := rfl
@[simp] theorem State.setUpd_mem (x : UpdState) : (s.setUpd x).mem = s.mem := rfl
@[simp] theorem State.setUpd_port (x : UpdState) : (s.setUpd x).port = s.port := rfl
@[simp] theorem State.setUpd_attached (x : UpdState) : (s.setUpd x).attached = s.attached := rfl
@[simp] theorem State.setUpd_ret (x : UpdState) : (s.setUpd x).ret = s.ret := rfl
@[simp] theorem State.setUpd_trace (x : UpdState) : (s.setUpd x).trace = s.trace := rfl
@[simp] theorem State.setUpd_inputs (x : UpdState) : (s.setUpd x).inputs = s.inputs := rfl
@[simp] theorem State.setUpd_drawn (x : UpdState) : (s.setUpd x).drawn = s.drawn := rfl

@[simp] theorem State.setRecs_ctl (r : Recs) : (s.setRecs r).ctl = s.ctl := rfl
@[simp] theorem State.setRecs_recs (r : Recs) : (s.setRecs r).recs = r := rfl
@[simp] theorem State.setRecs_w (r : Recs) : (s.setRecs r).w = s.w := rfl
@[simp] theorem State.setRecs_hwConf (r : Recs) : (s.setRecs r).hwConf = s.hwConf := rfl
@[simp] theorem State.setRecs_hwConfValid (r : Recs) : (s.setRecs r).hwConfValid = s.hwConfValid := rfl
@[simp] theorem State.setRecs_win (r : Recs) : (s.setRecs r).win = s.win := rfl
@[simp] theorem State.setRecs_windowBase (r : Recs) : (s.setRecs r).windowBase = s.windowBase := rfl
@[simp] theorem State.setRecs_windowPhys (r : Recs) : (s.setRecs r).windowPhys = s.windowPhys := rfl
@[simp] theorem State.setRecs_now (r : Recs) : (s.setRecs r).now = s.now := rfl
@[simp] theorem State.setRecs_mem (r : Recs) : (s.setRecs r).mem = s.mem := rfl
@[simp] theorem State.setRecs_port (r : Recs) : (s.setRecs r).port = s.port := rfl
@[simp] theorem State.setRecs_attached (r : Recs) : (s.setRecs r).attached = s.attached := rfl
@[simp] theorem State.setRecs_ret (r : Recs) : (s.setRecs r).ret = s.ret := rfl
@[simp] theorem State.setRecs_trace (r : Recs) : (s.setRecs r).trace = s.trace := rfl
@[simp] theorem State.setRecs_inputs (r : Recs) : (s.setRecs r).inputs = s.inputs := rfl
@[simp] theorem State.setRecs_drawn (r : Recs) : (s.setRecs r).drawn = s.drawn := rfl

@[simp] theorem State.setW_ctl (w : Work) : (s.setW w).ctl = s.ctl := rfl
@[simp] theorem State.setW_recs (w : Work) : (s.setW w).recs = s.recs := rfl
@[simp] theorem State.setW_w (w : Work) : (s.setW w).w = w := rfl
@[simp] theorem State.setW_hwConf (w : Work) : (s.setW w).hwConf = s.hwConf := rfl
@[simp] theorem State.setW_hwConfValid (w : Work) : (s.setW w).hwConfValid = s.hwConfValid := rfl
@[simp] theorem State.setW_win (w : Work) : (s.setW w).win = s.win := rfl
@[simp] theorem State.setW_windowBase (w : Work) : (s.setW w).windowBase = s.windowBase := rfl
@[simp] theorem State.setW_windowPhys (w : Work) : (s.setW w).windowPhys = s.windowPhys := rfl
@[simp] theorem State.setW_now (w : Work) : (s.setW w).now = s.now := rfl
@[simp] theorem State.setW_mem (w : Work) : (s.setW w).mem = s.mem := rfl
@[simp] theorem State.setW_port (w : Work) : (s.setW w).port = s.port := rfl
@[simp] theorem State.setW_attached (w : Work) : (s.setW w).attached = s.attached := rfl
@[simp] theorem State.setW_ret (w : Work) : (s.setW w).ret = s.ret := rfl
@[simp] theorem State.setW_trace (w : Work) : (s.setW w).trace = s.trace := rfl
@[simp] theorem State.setW_inputs (w : Work) : (s.setW w).inputs = s.inputs := rfl
@[simp] theorem State.setW_drawn (w : Work) : (s.setW w).drawn = s.drawn := rfl

@[simp] theorem State.setWin_ctl (x : Window) : (s.setWin x).ctl = s.ctl := rfl
@[simp] theorem State.setWin_recs (x : Window) : (s.setWin x).recs = s.recs := rfl
@[simp] theorem State.setWin_w (x : Window) : (s.setWin x).w = s.w := rfl
@[simp] theorem State.setWin_hwConf (x : Window) : (s.setWin x).hwConf = s.hwConf := rfl
@[simp] theorem State.setWin_hwConfValid (x : Window) : (s.setWin x).hwConfValid = s.hwConfValid := rfl
@[simp] theorem State.setWin_win (x : Window) : (s.setWin x).win = x := rfl
@[simp] theorem State.setWin_windowBase (x : Window) : (s.setWin x).windowBase = s.windowBase := rfl
@[simp] theorem State.setWin_windowPhys (x : Window) : (s.setWin x).windowPhys = s.windowPhys := rfl
@[simp] theorem State.setWin_now (x : Window) : (s.setWin x).now = s.now := rfl
@[simp] theorem State.setWin_mem (x : Window) : (s.setWin x).mem = s.mem := rfl
@[simp] theorem State.setWin_port (x : Window) : (s.setWin x).port = s.port := rfl
@[simp] theorem State.setWin_attached (x : Window) : (s.setWin x).attached = s.attached := rfl
@[simp] theorem State.setWin_ret (x : Window) : (s.setWin x).ret = s.ret := rfl
@[simp] theorem State.setWin_trace (x : Window) : (s.setWin x).trace = s.trace := rfl
@[simp] theorem State.setWin_inputs (x : Window) : (s.setWin x).inputs = s.inputs := rfl
@[simp] theorem State.setWin_drawn (x : Window) : (s.setWin x).drawn = s.drawn := rfl

@[simp] theorem State.setHwConf_ctl (v : Word) : (s.setHwConf v).ctl = s.ctl := rfl
@[simp] theorem State.setHwConf_recs (v : Word) : (s.setHwConf v).recs = s.recs := rfl
@[simp] theorem State.setHwConf_w (v : Word) : (s.setHwConf v).w = s.w := rfl
@[simp] theorem State.setHwConf_hwConf (v : Word) : (s.setHwConf v).hwConf = v := rfl
@[simp] theorem State.setHwConf_hwConfValid (v : Word) : (s.setHwConf v).hwConfValid = true := rfl
@[simp] theorem State.setHwConf_win (v : Word) : (s.setHwConf v).win = s.win := rfl
@[simp] theorem State.setHwConf_windowBase (v : Word) : (s.setHwConf v).windowBase = s.windowBase := rfl
@[simp] theorem State.setHwConf_windowPhys (v : Word) : (s.setHwConf v).windowPhys = s.windowPhys := rfl
@[simp] theorem State.setHwConf_now (v : Word) : (s.setHwConf v).now = s.now := rfl
@[simp] theorem State.setHwConf_mem (v : Word) : (s.setHwConf v).mem = s.mem := rfl
@[simp] theorem State.setHwConf_port (v : Word) : (s.setHwConf v).port = s.port := rfl
@[simp] theorem State.setHwConf_attached (v : Word) : (s.setHwConf v).attached = s.attached := rfl
@[simp] theorem State.setHwConf_ret (v : Word) : (s.setHwConf v).ret = s.ret := rfl
@[simp] theorem State.setHwConf_trace (v : Word) : (s.setHwConf v).trace = s.trace := rfl
@[simp] theorem State.setHwConf_inputs (v : Word) : (s.setHwConf v).inputs = s.inputs := rfl
@[simp] theorem State.setHwConf_drawn (v : Word) : (s.setHwConf v).drawn = s.drawn := rfl

@[simp] theorem State.setMem_ctl (m : Mem) : (s.setMem m).ctl = s.ctl := rfl
@[simp] theorem State.setMem_recs (m : Mem) : (s.setMem m).recs = s.recs := rfl
@[simp] theorem State.setMem_w (m : Mem) : (s.setMem m).w = s.w := rfl
@[simp] theorem State.setMem_hwConf (m : Mem) : (s.setMem m).hwConf = s.hwConf := rfl
@[simp] theorem State.setMem_hwConfValid (m : Mem) : (s.setMem m).hwConfValid = s.hwConfValid := rfl
@[simp] theorem State.setMem_win (m : Mem) : (s.setMem m).win = s.win := rfl
@[simp] theorem State.setMem_windowBase (m : Mem) : (s.setMem m).windowBase = s.windowBase := rfl
@[simp] theorem State.setMem_windowPhys (m : Mem) : (s.setMem m).windowPhys = s.windowPhys := rfl
@[simp] theorem State.setMem_now (m : Mem) : (s.setMem m).now = s.now := rfl
@[simp] theorem State.setMem_mem (m : Mem) : (s.setMem m).mem = m := rfl
@[simp] theorem State.setMem_port (m : Mem) : (s.setMem m).port = s.port := rfl
@[simp] theorem State.setMem_attached (m : Mem) : (s.setMem m).attached = s.attached := rfl
@[simp] theorem State.setMem_ret (m : Mem) : (s.setMem m).ret = s.ret := rfl
@[simp] theorem State.setMem_trace (m : Mem) : (s.setMem m).trace = s.trace := rfl
@[simp] theorem State.setMem_inputs (m : Mem) : (s.setMem m).inputs = s.inputs := rfl
@[simp] theorem State.setMem_drawn (m : Mem) : (s.setMem m).drawn = s.drawn := rfl

@[simp] theorem State.setPort_ctl (p : Option Command) : (s.setPort p).ctl = s.ctl := rfl
@[simp] theorem State.setPort_recs (p : Option Command) : (s.setPort p).recs = s.recs := rfl
@[simp] theorem State.setPort_w (p : Option Command) : (s.setPort p).w = s.w := rfl
@[simp] theorem State.setPort_hwConf (p : Option Command) : (s.setPort p).hwConf = s.hwConf := rfl
@[simp] theorem State.setPort_hwConfValid (p : Option Command) : (s.setPort p).hwConfValid = s.hwConfValid := rfl
@[simp] theorem State.setPort_win (p : Option Command) : (s.setPort p).win = s.win := rfl
@[simp] theorem State.setPort_windowBase (p : Option Command) : (s.setPort p).windowBase = s.windowBase := rfl
@[simp] theorem State.setPort_windowPhys (p : Option Command) : (s.setPort p).windowPhys = s.windowPhys := rfl
@[simp] theorem State.setPort_now (p : Option Command) : (s.setPort p).now = s.now := rfl
@[simp] theorem State.setPort_mem (p : Option Command) : (s.setPort p).mem = s.mem := rfl
@[simp] theorem State.setPort_port (p : Option Command) : (s.setPort p).port = p := rfl
@[simp] theorem State.setPort_attached (p : Option Command) : (s.setPort p).attached = s.attached := rfl
@[simp] theorem State.setPort_ret (p : Option Command) : (s.setPort p).ret = s.ret := rfl
@[simp] theorem State.setPort_trace (p : Option Command) : (s.setPort p).trace = s.trace := rfl
@[simp] theorem State.setPort_inputs (p : Option Command) : (s.setPort p).inputs = s.inputs := rfl
@[simp] theorem State.setPort_drawn (p : Option Command) : (s.setPort p).drawn = s.drawn := rfl

@[simp] theorem State.setRet_ctl (v : Word) : (s.setRet v).ctl = s.ctl := rfl
@[simp] theorem State.setRet_recs (v : Word) : (s.setRet v).recs = s.recs := rfl
@[simp] theorem State.setRet_w (v : Word) : (s.setRet v).w = s.w := rfl
@[simp] theorem State.setRet_hwConf (v : Word) : (s.setRet v).hwConf = s.hwConf := rfl
@[simp] theorem State.setRet_hwConfValid (v : Word) : (s.setRet v).hwConfValid = s.hwConfValid := rfl
@[simp] theorem State.setRet_win (v : Word) : (s.setRet v).win = s.win := rfl
@[simp] theorem State.setRet_windowBase (v : Word) : (s.setRet v).windowBase = s.windowBase := rfl
@[simp] theorem State.setRet_windowPhys (v : Word) : (s.setRet v).windowPhys = s.windowPhys := rfl
@[simp] theorem State.setRet_now (v : Word) : (s.setRet v).now = s.now := rfl
@[simp] theorem State.setRet_mem (v : Word) : (s.setRet v).mem = s.mem := rfl
@[simp] theorem State.setRet_port (v : Word) : (s.setRet v).port = s.port := rfl
@[simp] theorem State.setRet_attached (v : Word) : (s.setRet v).attached = s.attached := rfl
@[simp] theorem State.setRet_ret (v : Word) : (s.setRet v).ret = v := rfl
@[simp] theorem State.setRet_trace (v : Word) : (s.setRet v).trace = s.trace := rfl
@[simp] theorem State.setRet_inputs (v : Word) : (s.setRet v).inputs = s.inputs := rfl
@[simp] theorem State.setRet_drawn (v : Word) : (s.setRet v).drawn = s.drawn := rfl

@[simp] theorem State.emit_ctl (e : Event) : (s.emit e).ctl = s.ctl := rfl
@[simp] theorem State.emit_recs (e : Event) : (s.emit e).recs = s.recs := rfl
@[simp] theorem State.emit_w (e : Event) : (s.emit e).w = s.w := rfl
@[simp] theorem State.emit_hwConf (e : Event) : (s.emit e).hwConf = s.hwConf := rfl
@[simp] theorem State.emit_hwConfValid (e : Event) : (s.emit e).hwConfValid = s.hwConfValid := rfl
@[simp] theorem State.emit_win (e : Event) : (s.emit e).win = s.win := rfl
@[simp] theorem State.emit_windowBase (e : Event) : (s.emit e).windowBase = s.windowBase := rfl
@[simp] theorem State.emit_windowPhys (e : Event) : (s.emit e).windowPhys = s.windowPhys := rfl
@[simp] theorem State.emit_now (e : Event) : (s.emit e).now = s.now := rfl
@[simp] theorem State.emit_mem (e : Event) : (s.emit e).mem = s.mem := rfl
@[simp] theorem State.emit_port (e : Event) : (s.emit e).port = s.port := rfl
@[simp] theorem State.emit_attached (e : Event) : (s.emit e).attached = s.attached := rfl
@[simp] theorem State.emit_ret (e : Event) : (s.emit e).ret = s.ret := rfl
@[simp] theorem State.emit_trace (e : Event) : (s.emit e).trace = e :: s.trace := rfl
@[simp] theorem State.emit_inputs (e : Event) : (s.emit e).inputs = s.inputs := rfl
@[simp] theorem State.emit_drawn (e : Event) : (s.emit e).drawn = s.drawn := rfl

end Sys2Proof.Machine
end

