-- ==== Sys2Proof/Laws/Ops.lean ====
section
/-!
SUPPORT. What each shared operation of Machine/Ops.lean does: the record table, the bus, the Register Interface, the
exits and the response; one lemma per field, and one equation per operation.
-/
namespace Sys2Proof.Machine

/-! ## The record table -/

@[simp] theorem Recs.get_set_same (rs : Recs) (k : Slot) (r : Rec) : (rs.set k r).get k = r := by
  cases k <;> rfl

theorem Recs.get_set (rs : Recs) (j k : Slot) (r : Rec) :
    (rs.set k r).get j = if j = k then r else rs.get j := by
  cases j <;> cases k <;> rfl

theorem Recs.get_set_other (rs : Recs) {j k : Slot} (r : Rec) (h : j ≠ k) : (rs.set k r).get j = rs.get j := by
  rw [Recs.get_set, if_neg h]

@[simp] theorem Recs.set_get (rs : Recs) (k : Slot) : rs.set k (rs.get k) = rs := by
  cases k <;> rfl

/-- A slot that `lookup` answers holds a valid record of the peer (R34). -/
theorem Recs.lookup_some {rs : Recs} {p : BitVec 8} {k : Slot} (h : rs.lookup p = some k) :
    (rs.get k).valid = true ∧ (rs.get k).peer = p := by
  simpa using List.find?_some h

theorem Slot.mem_all (k : Slot) : k ∈ Slot.all := by cases k <;> simp [Slot.all]

/-- `lookup` answers NONE only where no valid record belongs to the peer (R34). -/
theorem Recs.lookup_none {rs : Recs} {p : BitVec 8} (h : rs.lookup p = none) (k : Slot)
    (hv : (rs.get k).valid = true) : (rs.get k).peer ≠ p := by
  simpa [hv] using List.find?_eq_none.1 h k (Slot.mem_all k)

/-- The slot a new record takes is free (R225). -/
theorem Recs.free_some {rs : Recs} {k : Slot} (h : rs.free = some k) : (rs.get k).valid = false := by
  simpa using List.find?_some h

@[simp] theorem State.setRec_record (s : State) (r : Rec) : (s.setRec r).record = r := by
  simp [State.setRec, State.record]

/-! ## The steps that stop -/

/-- An operation on `REC[W.slot]` answers a next state only where the record is valid. -/
theorem State.onRecord_next {s t u : State} (h : s.onRecord t = .next u) : s.record.valid = true ∧ u = t := by
  unfold State.onRecord at h
  split at h
  · next hv => exact ⟨hv, by injection h with h; exact h.symm⟩
  · cases h

@[simp] theorem State.onRecord_valid {s t : State} (h : s.record.valid = true) : s.onRecord t = .next t := by
  simp [State.onRecord, h]

theorem State.onRecord_invalid {s t : State} (h : s.record.valid = false) :
    s.onRecord t = .fault .recordNotValid := by
  simp [State.onRecord, h]

/-! ## Frames of the shared operations, field by field -/

variable (r : RegId) (v : Word)

@[simp] theorem busRead_ctl (s : State) : (busRead r s).ctl = s.ctl := rfl
@[simp] theorem busRead_recs (s : State) : (busRead r s).recs = s.recs := rfl
@[simp] theorem busRead_w (s : State) : (busRead r s).w = s.w := rfl
@[simp] theorem busRead_hwConf (s : State) : (busRead r s).hwConf = s.hwConf := rfl
@[simp] theorem busRead_hwConfValid (s : State) : (busRead r s).hwConfValid = s.hwConfValid := rfl
@[simp] theorem busRead_win (s : State) : (busRead r s).win = s.win := rfl
@[simp] theorem busRead_windowBase (s : State) : (busRead r s).windowBase = s.windowBase := rfl
@[simp] theorem busRead_windowPhys (s : State) : (busRead r s).windowPhys = s.windowPhys := rfl
@[simp] theorem busRead_now (s : State) : (busRead r s).now = s.now := rfl
@[simp] theorem busRead_mem (s : State) : (busRead r s).mem = s.mem := rfl
@[simp] theorem busRead_port (s : State) : (busRead r s).port = s.port := rfl
@[simp] theorem busRead_attached (s : State) : (busRead r s).attached = s.attached := rfl
@[simp] theorem busRead_inputs (s : State) : (busRead r s).inputs = s.inputs := rfl
@[simp] theorem busRead_drawn (s : State) : (busRead r s).drawn = s.drawn := rfl

@[simp] theorem busWrite_ctl (s : State) : (busWrite r v s).ctl = s.ctl := rfl
@[simp] theorem busWrite_recs (s : State) : (busWrite r v s).recs = s.recs := rfl
@[simp] theorem busWrite_w (s : State) : (busWrite r v s).w = s.w := rfl
@[simp] theorem busWrite_hwConf (s : State) : (busWrite r v s).hwConf = s.hwConf := rfl
@[simp] theorem busWrite_hwConfValid (s : State) : (busWrite r v s).hwConfValid = s.hwConfValid := rfl
@[simp] theorem busWrite_windowBase (s : State) : (busWrite r v s).windowBase = s.windowBase := rfl
@[simp] theorem busWrite_windowPhys (s : State) : (busWrite r v s).windowPhys = s.windowPhys := rfl
@[simp] theorem busWrite_now (s : State) : (busWrite r v s).now = s.now := rfl
@[simp] theorem busWrite_mem (s : State) : (busWrite r v s).mem = s.mem := rfl
@[simp] theorem busWrite_port (s : State) : (busWrite r v s).port = s.port := rfl
@[simp] theorem busWrite_attached (s : State) : (busWrite r v s).attached = s.attached := rfl
@[simp] theorem busWrite_ret (s : State) : (busWrite r v s).ret = s.ret := rfl
@[simp] theorem busWrite_inputs (s : State) : (busWrite r v s).inputs = s.inputs := rfl
@[simp] theorem busWrite_drawn (s : State) : (busWrite r v s).drawn = s.drawn := rfl

@[simp] theorem cacheWrite_ctl (s : State) : (cacheWrite v s).ctl = s.ctl := rfl
@[simp] theorem cacheWrite_w (s : State) : (cacheWrite v s).w = s.w := rfl
@[simp] theorem cacheWrite_win (s : State) : (cacheWrite v s).win = s.win := rfl
@[simp] theorem cacheWrite_windowBase (s : State) : (cacheWrite v s).windowBase = s.windowBase := rfl
@[simp] theorem cacheWrite_windowPhys (s : State) : (cacheWrite v s).windowPhys = s.windowPhys := rfl
@[simp] theorem cacheWrite_now (s : State) : (cacheWrite v s).now = s.now := rfl
@[simp] theorem cacheWrite_mem (s : State) : (cacheWrite v s).mem = s.mem := rfl
@[simp] theorem cacheWrite_port (s : State) : (cacheWrite v s).port = s.port := rfl
@[simp] theorem cacheWrite_attached (s : State) : (cacheWrite v s).attached = s.attached := rfl
@[simp] theorem cacheWrite_ret (s : State) : (cacheWrite v s).ret = s.ret := rfl
@[simp] theorem cacheWrite_trace (s : State) : (cacheWrite v s).trace = s.trace := rfl
@[simp] theorem cacheWrite_inputs (s : State) : (cacheWrite v s).inputs = s.inputs := rfl
@[simp] theorem cacheWrite_drawn (s : State) : (cacheWrite v s).drawn = s.drawn := rfl

@[simp] theorem regRead_ctl (s : State) : (regRead r s).ctl = s.ctl := by unfold regRead; split <;> rfl
@[simp] theorem regRead_recs (s : State) : (regRead r s).recs = s.recs := by unfold regRead; split <;> rfl
@[simp] theorem regRead_w (s : State) : (regRead r s).w = s.w := by unfold regRead; split <;> rfl
@[simp] theorem regRead_hwConf (s : State) : (regRead r s).hwConf = s.hwConf := by unfold regRead; split <;> rfl
@[simp] theorem regRead_hwConfValid (s : State) : (regRead r s).hwConfValid = s.hwConfValid := by unfold regRead; split <;> rfl
@[simp] theorem regRead_win (s : State) : (regRead r s).win = s.win := by unfold regRead; split <;> rfl
@[simp] theorem regRead_windowBase (s : State) : (regRead r s).windowBase = s.windowBase := by unfold regRead; split <;> rfl
@[simp] theorem regRead_windowPhys (s : State) : (regRead r s).windowPhys = s.windowPhys := by unfold regRead; split <;> rfl
@[simp] theorem regRead_now (s : State) : (regRead r s).now = s.now := by unfold regRead; split <;> rfl
@[simp] theorem regRead_mem (s : State) : (regRead r s).mem = s.mem := by unfold regRead; split <;> rfl
@[simp] theorem regRead_port (s : State) : (regRead r s).port = s.port := by unfold regRead; split <;> rfl
@[simp] theorem regRead_attached (s : State) : (regRead r s).attached = s.attached := by unfold regRead; split <;> rfl
@[simp] theorem regRead_inputs (s : State) : (regRead r s).inputs = s.inputs := by unfold regRead; split <;> rfl
@[simp] theorem regRead_drawn (s : State) : (regRead r s).drawn = s.drawn := by unfold regRead; split <;> rfl

@[simp] theorem regWrite_ctl (s : State) : (regWrite r v s).ctl = s.ctl := by unfold regWrite; split <;> rfl
@[simp] theorem regWrite_w (s : State) : (regWrite r v s).w = s.w := by unfold regWrite; split <;> rfl
@[simp] theorem regWrite_windowBase (s : State) : (regWrite r v s).windowBase = s.windowBase := by unfold regWrite; split <;> rfl
@[simp] theorem regWrite_windowPhys (s : State) : (regWrite r v s).windowPhys = s.windowPhys := by unfold regWrite; split <;> rfl
@[simp] theorem regWrite_now (s : State) : (regWrite r v s).now = s.now := by unfold regWrite; split <;> rfl
@[simp] theorem regWrite_mem (s : State) : (regWrite r v s).mem = s.mem := by unfold regWrite; split <;> rfl
@[simp] theorem regWrite_port (s : State) : (regWrite r v s).port = s.port := by unfold regWrite; split <;> rfl
@[simp] theorem regWrite_attached (s : State) : (regWrite r v s).attached = s.attached := by unfold regWrite; split <;> rfl
@[simp] theorem regWrite_ret (s : State) : (regWrite r v s).ret = s.ret := by unfold regWrite; split <;> rfl
@[simp] theorem regWrite_inputs (s : State) : (regWrite r v s).inputs = s.inputs := by unfold regWrite; split <;> rfl
@[simp] theorem regWrite_drawn (s : State) : (regWrite r v s).drawn = s.drawn := by unfold regWrite; split <;> rfl

@[simp] theorem memRead_ctl (a : Word) (n : Nat) (s : State) : (memRead a n s).ctl = s.ctl := rfl
@[simp] theorem memRead_recs (a : Word) (n : Nat) (s : State) : (memRead a n s).recs = s.recs := rfl
@[simp] theorem memRead_w (a : Word) (n : Nat) (s : State) : (memRead a n s).w = s.w := rfl
@[simp] theorem memRead_hwConf (a : Word) (n : Nat) (s : State) : (memRead a n s).hwConf = s.hwConf := rfl
@[simp] theorem memRead_hwConfValid (a : Word) (n : Nat) (s : State) : (memRead a n s).hwConfValid = s.hwConfValid := rfl
@[simp] theorem memRead_win (a : Word) (n : Nat) (s : State) : (memRead a n s).win = s.win := rfl
@[simp] theorem memRead_windowBase (a : Word) (n : Nat) (s : State) : (memRead a n s).windowBase = s.windowBase := rfl
@[simp] theorem memRead_windowPhys (a : Word) (n : Nat) (s : State) : (memRead a n s).windowPhys = s.windowPhys := rfl
@[simp] theorem memRead_now (a : Word) (n : Nat) (s : State) : (memRead a n s).now = s.now := rfl
@[simp] theorem memRead_mem (a : Word) (n : Nat) (s : State) : (memRead a n s).mem = s.mem := rfl
@[simp] theorem memRead_port (a : Word) (n : Nat) (s : State) : (memRead a n s).port = s.port := rfl
@[simp] theorem memRead_attached (a : Word) (n : Nat) (s : State) : (memRead a n s).attached = s.attached := rfl
@[simp] theorem memRead_inputs (a : Word) (n : Nat) (s : State) : (memRead a n s).inputs = s.inputs := rfl
@[simp] theorem memRead_drawn (a : Word) (n : Nat) (s : State) : (memRead a n s).drawn = s.drawn := rfl

@[simp] theorem memWrite_ctl (a : Word) (n : Nat) (s : State) : (memWrite a n v s).ctl = s.ctl := rfl
@[simp] theorem memWrite_recs (a : Word) (n : Nat) (s : State) : (memWrite a n v s).recs = s.recs := rfl
@[simp] theorem memWrite_w (a : Word) (n : Nat) (s : State) : (memWrite a n v s).w = s.w := rfl
@[simp] theorem memWrite_hwConf (a : Word) (n : Nat) (s : State) : (memWrite a n v s).hwConf = s.hwConf := rfl
@[simp] theorem memWrite_hwConfValid (a : Word) (n : Nat) (s : State) : (memWrite a n v s).hwConfValid = s.hwConfValid := rfl
@[simp] theorem memWrite_win (a : Word) (n : Nat) (s : State) : (memWrite a n v s).win = s.win := rfl
@[simp] theorem memWrite_windowBase (a : Word) (n : Nat) (s : State) : (memWrite a n v s).windowBase = s.windowBase := rfl
@[simp] theorem memWrite_windowPhys (a : Word) (n : Nat) (s : State) : (memWrite a n v s).windowPhys = s.windowPhys := rfl
@[simp] theorem memWrite_now (a : Word) (n : Nat) (s : State) : (memWrite a n v s).now = s.now := rfl
@[simp] theorem memWrite_port (a : Word) (n : Nat) (s : State) : (memWrite a n v s).port = s.port := rfl
@[simp] theorem memWrite_attached (a : Word) (n : Nat) (s : State) : (memWrite a n v s).attached = s.attached := rfl
@[simp] theorem memWrite_ret (a : Word) (n : Nat) (s : State) : (memWrite a n v s).ret = s.ret := rfl
@[simp] theorem memWrite_inputs (a : Word) (n : Nat) (s : State) : (memWrite a n v s).inputs = s.inputs := rfl
@[simp] theorem memWrite_drawn (a : Word) (n : Nat) (s : State) : (memWrite a n v s).drawn = s.drawn := rfl

@[simp] theorem respond_recs (st : Status) (h : BitVec 2) (s : State) : (s.respond st h).recs = s.recs := rfl
@[simp] theorem respond_w (st : Status) (h : BitVec 2) (s : State) : (s.respond st h).w = s.w := rfl
@[simp] theorem respond_hwConf (st : Status) (h : BitVec 2) (s : State) : (s.respond st h).hwConf = s.hwConf := rfl
@[simp] theorem respond_hwConfValid (st : Status) (h : BitVec 2) (s : State) : (s.respond st h).hwConfValid = s.hwConfValid := rfl
@[simp] theorem respond_win (st : Status) (h : BitVec 2) (s : State) : (s.respond st h).win = s.win := rfl
@[simp] theorem respond_windowBase (st : Status) (h : BitVec 2) (s : State) : (s.respond st h).windowBase = s.windowBase := rfl
@[simp] theorem respond_windowPhys (st : Status) (h : BitVec 2) (s : State) : (s.respond st h).windowPhys = s.windowPhys := rfl
@[simp] theorem respond_now (st : Status) (h : BitVec 2) (s : State) : (s.respond st h).now = s.now := rfl
@[simp] theorem respond_mem (st : Status) (h : BitVec 2) (s : State) : (s.respond st h).mem = s.mem := rfl
@[simp] theorem respond_port (st : Status) (h : BitVec 2) (s : State) : (s.respond st h).port = s.port := rfl
@[simp] theorem respond_attached (st : Status) (h : BitVec 2) (s : State) : (s.respond st h).attached = s.attached := rfl
@[simp] theorem respond_ret (st : Status) (h : BitVec 2) (s : State) : (s.respond st h).ret = s.ret := rfl
@[simp] theorem respond_inputs (st : Status) (h : BitVec 2) (s : State) : (s.respond st h).inputs = s.inputs := rfl
@[simp] theorem respond_drawn (st : Status) (h : BitVec 2) (s : State) : (s.respond st h).drawn = s.drawn := rfl

@[simp] theorem setOutcome_ctl (o : Terminal) (s : State) : (s.setOutcome o).ctl = s.ctl := rfl
@[simp] theorem setOutcome_recs (o : Terminal) (s : State) : (s.setOutcome o).recs = s.recs := rfl
@[simp] theorem setOutcome_hwConf (o : Terminal) (s : State) : (s.setOutcome o).hwConf = s.hwConf := rfl
@[simp] theorem setOutcome_hwConfValid (o : Terminal) (s : State) : (s.setOutcome o).hwConfValid = s.hwConfValid := rfl
@[simp] theorem setOutcome_win (o : Terminal) (s : State) : (s.setOutcome o).win = s.win := rfl
@[simp] theorem setOutcome_windowBase (o : Terminal) (s : State) : (s.setOutcome o).windowBase = s.windowBase := rfl
@[simp] theorem setOutcome_windowPhys (o : Terminal) (s : State) : (s.setOutcome o).windowPhys = s.windowPhys := rfl
@[simp] theorem setOutcome_now (o : Terminal) (s : State) : (s.setOutcome o).now = s.now := rfl
@[simp] theorem setOutcome_mem (o : Terminal) (s : State) : (s.setOutcome o).mem = s.mem := rfl
@[simp] theorem setOutcome_port (o : Terminal) (s : State) : (s.setOutcome o).port = s.port := rfl
@[simp] theorem setOutcome_attached (o : Terminal) (s : State) : (s.setOutcome o).attached = s.attached := rfl
@[simp] theorem setOutcome_ret (o : Terminal) (s : State) : (s.setOutcome o).ret = s.ret := rfl
@[simp] theorem setOutcome_trace (o : Terminal) (s : State) : (s.setOutcome o).trace = s.trace := rfl
@[simp] theorem setOutcome_inputs (o : Terminal) (s : State) : (s.setOutcome o).inputs = s.inputs := rfl
@[simp] theorem setOutcome_drawn (o : Terminal) (s : State) : (s.setOutcome o).drawn = s.drawn := rfl

@[simp] theorem takeExit_recs (s : State) (e : Exit) : (s.takeExit e).recs = s.recs := by cases e <;> rfl
@[simp] theorem takeExit_hwConf (s : State) (e : Exit) : (s.takeExit e).hwConf = s.hwConf := by cases e <;> rfl
@[simp] theorem takeExit_hwConfValid (s : State) (e : Exit) : (s.takeExit e).hwConfValid = s.hwConfValid := by cases e <;> rfl
@[simp] theorem takeExit_win (s : State) (e : Exit) : (s.takeExit e).win = s.win := by cases e <;> rfl
@[simp] theorem takeExit_windowBase (s : State) (e : Exit) : (s.takeExit e).windowBase = s.windowBase := by cases e <;> rfl
@[simp] theorem takeExit_windowPhys (s : State) (e : Exit) : (s.takeExit e).windowPhys = s.windowPhys := by cases e <;> rfl
@[simp] theorem takeExit_now (s : State) (e : Exit) : (s.takeExit e).now = s.now := by cases e <;> rfl
@[simp] theorem takeExit_mem (s : State) (e : Exit) : (s.takeExit e).mem = s.mem := by cases e <;> rfl
@[simp] theorem takeExit_port (s : State) (e : Exit) : (s.takeExit e).port = s.port := by cases e <;> rfl
@[simp] theorem takeExit_attached (s : State) (e : Exit) : (s.takeExit e).attached = s.attached := by cases e <;> rfl
@[simp] theorem takeExit_ret (s : State) (e : Exit) : (s.takeExit e).ret = s.ret := by cases e <;> rfl
@[simp] theorem takeExit_trace (s : State) (e : Exit) : (s.takeExit e).trace = s.trace := by cases e <;> rfl
@[simp] theorem takeExit_inputs (s : State) (e : Exit) : (s.takeExit e).inputs = s.inputs := by cases e <;> rfl
@[simp] theorem takeExit_drawn (s : State) (e : Exit) : (s.takeExit e).drawn = s.drawn := by cases e <;> rfl
@[simp] theorem createRecord_ctl (s : State) (k : Slot) (p : BitVec 8) : (createRecord s k p).ctl = s.ctl := rfl
@[simp] theorem createRecord_w (s : State) (k : Slot) (p : BitVec 8) : (createRecord s k p).w = s.w := rfl
@[simp] theorem createRecord_hwConf (s : State) (k : Slot) (p : BitVec 8) : (createRecord s k p).hwConf = s.hwConf := rfl
@[simp] theorem createRecord_hwConfValid (s : State) (k : Slot) (p : BitVec 8) : (createRecord s k p).hwConfValid = s.hwConfValid := rfl
@[simp] theorem createRecord_win (s : State) (k : Slot) (p : BitVec 8) : (createRecord s k p).win = s.win := rfl
@[simp] theorem createRecord_windowBase (s : State) (k : Slot) (p : BitVec 8) : (createRecord s k p).windowBase = s.windowBase := rfl
@[simp] theorem createRecord_windowPhys (s : State) (k : Slot) (p : BitVec 8) : (createRecord s k p).windowPhys = s.windowPhys := rfl
@[simp] theorem createRecord_now (s : State) (k : Slot) (p : BitVec 8) : (createRecord s k p).now = s.now := rfl
@[simp] theorem createRecord_mem (s : State) (k : Slot) (p : BitVec 8) : (createRecord s k p).mem = s.mem := rfl
@[simp] theorem createRecord_port (s : State) (k : Slot) (p : BitVec 8) : (createRecord s k p).port = s.port := rfl
@[simp] theorem createRecord_attached (s : State) (k : Slot) (p : BitVec 8) : (createRecord s k p).attached = s.attached := rfl
@[simp] theorem createRecord_ret (s : State) (k : Slot) (p : BitVec 8) : (createRecord s k p).ret = s.ret := rfl
@[simp] theorem createRecord_trace (s : State) (k : Slot) (p : BitVec 8) : (createRecord s k p).trace = s.trace := rfl
@[simp] theorem createRecord_inputs (s : State) (k : Slot) (p : BitVec 8) : (createRecord s k p).inputs = s.inputs := rfl
@[simp] theorem createRecord_drawn (s : State) (k : Slot) (p : BitVec 8) : (createRecord s k p).drawn = s.drawn := rfl

/-! ## What the Register Interface does -/

theorem regRead_ret (s : State) :
    (regRead r s).ret = if r = .conf ∧ s.record.cacheValid = true then s.record.cache else readWindow s.win r := by
  unfold regRead; split <;> rfl

theorem regRead_trace (s : State) :
    (regRead r s).trace = if r = .conf ∧ s.record.cacheValid = true then s.trace
      else .busRd (s.busAddr r) r.offset (readWindow s.win r) :: s.trace := by
  unfold regRead; split <;> rfl

/-- REG.READ of CONF with the cache set (R121). -/
theorem regRead_conf_cached {s : State} (h : s.record.cacheValid = true) : regRead .conf s = s.setRet s.record.cache := by
  simp [regRead, h]

/-- REG.READ of any other register (R121). -/
theorem regRead_other {r : RegId} (h : r ≠ .conf) (s : State) : regRead r s = busRead r s := by
  simp [regRead, h]

theorem regWrite_conf (s : State) : regWrite .conf v s = cacheWrite v (busWrite .conf v s) := rfl

/-- REG.WRITE of any register but CONF (R122). -/
theorem regWrite_other {r : RegId} (h : r ≠ .conf) (s : State) : regWrite r v s = busWrite r v s := by
  simp [regWrite, h]

/-- The record of W.slot after a write of CONF (R122). -/
theorem cacheWrite_recs (s : State) :
    (cacheWrite v s).recs =
      s.recs.set s.w.slot { s.record with cache := v, cacheValid := true, shadow := v, shadowValid := true } := rfl

@[simp] theorem regWrite_conf_recs (s : State) :
    (regWrite .conf v s).recs =
      s.recs.set s.w.slot { s.record with cache := v, cacheValid := true, shadow := v, shadowValid := true } := rfl

@[simp] theorem regWrite_conf_hwConf (s : State) : (regWrite .conf v s).hwConf = v := rfl
@[simp] theorem regWrite_conf_hwConfValid (s : State) : (regWrite .conf v s).hwConfValid = true := rfl

@[simp] theorem regWrite_txd_recs (s : State) : (regWrite .txd v s).recs = s.recs := rfl
@[simp] theorem regWrite_txd_hwConf (s : State) : (regWrite .txd v s).hwConf = s.hwConf := rfl
@[simp] theorem regWrite_txd_hwConfValid (s : State) : (regWrite .txd v s).hwConfValid = s.hwConfValid := rfl

theorem regWrite_trace (s : State) :
    (regWrite r v s).trace = .busWr (s.busAddr r) r.offset v :: s.trace := by
  unfold regWrite; split <;> rfl

/-! ## CONF.UPDATE (R124) -/

variable (us : List FieldUpdate)

/-- The value a step of CONF.UPDATE writes, if it writes: W.v where its read is done, else the modified cache. -/
def confValue (us : List FieldUpdate) (s : State) : Option Word :=
  match s.ctl.upd with
  | .write => some s.w.v
  | .none => if s.record.cacheValid then some (applyUpdates us s.record.cache) else none

/-- What a step of CONF.UPDATE that writes `v` leaves (R122, R124), with `r` the word last returned. -/
def confWrote (v r : Word) (s : State) : State :=
  { s with
    ctl := { s.ctl with upd := .none }
    w := { s.w with v := v }
    ret := r
    win := { s.win with conf := v }
    trace := .busWr s.record.base 0x00#32 v :: s.trace
    recs := s.recs.set s.w.slot { s.record with cache := v, cacheValid := true, shadow := v, shadowValid := true }
    hwConf := v
    hwConfValid := true }

/-- What a step of CONF.UPDATE that reads CONF from the bus leaves (R121, R124). -/
def confRead (us : List FieldUpdate) (s : State) : State :=
  { s with
    ctl := { s.ctl with upd := .write }
    w := { s.w with v := applyUpdates us s.win.conf }
    ret := s.win.conf
    trace := .busRd s.record.base 0x00#32 s.win.conf :: s.trace }

theorem busAddr_conf (s : State) : s.busAddr .conf = s.record.base := by
  simp [State.busAddr, RegId.offset, Config.offConf]

/-- REG.WRITE of CONF, whole (R122). -/
theorem regWrite_conf_eq (s : State) : regWrite .conf v s = { s with
    win := { s.win with conf := v }
    trace := .busWr s.record.base 0x00#32 v :: s.trace
    recs := s.recs.set s.w.slot { s.record with cache := v, cacheValid := true, shadow := v, shadowValid := true }
    hwConf := v
    hwConfValid := true } := by
  rw [← busAddr_conf]; rfl

/-- CONF.UPDATE with the cache set (R124): one step. -/
theorem confUpdate_cached {s : State} (hu : s.ctl.upd = .none) (hc : s.record.cacheValid = true) :
    confUpdate us s = confWrote (applyUpdates us s.record.cache) s.record.cache s := by
  have hs : s.ctl = { s.ctl with upd := .none } := by rw [← hu]
  simp only [confUpdate, hu, hc, if_true, confStore, confFetch, regRead_conf_cached hc, regWrite_conf_eq, confWrote,
    ← hs]
  rfl

/-- CONF.UPDATE with the cache UNSET (R124): the read of the bus is a step of its own. -/
theorem confUpdate_unset {s : State} (hu : s.ctl.upd = .none) (hc : s.record.cacheValid = false) :
    confUpdate us s = confRead us s := by
  have h : regRead .conf s = busRead .conf s := by simp [regRead, hc]
  simp only [confUpdate, hu, hc, confFetch, h, confRead, ← busAddr_conf]
  rfl

/-- CONF.UPDATE after its read of the bus: the write. -/
theorem confUpdate_pending {s : State} (hu : s.ctl.upd = .write) : confUpdate us s = confWrote s.w.v s.ret s := by
  simp only [confUpdate, hu, confStore, regWrite_conf_eq, confWrote]
  rfl

/-- Everything a step of CONF.UPDATE can do (R124). -/
theorem confUpdate_cases (s : State) :
    (∃ v r, confValue us s = some v ∧ confUpdate us s = confWrote v r s) ∨
    (confValue us s = none ∧ s.record.cacheValid = false ∧ confUpdate us s = confRead us s) := by
  cases hu : s.ctl.upd with
  | write => exact .inl ⟨_, _, by simp [confValue, hu], confUpdate_pending us hu⟩
  | none =>
    cases hc : s.record.cacheValid with
    | true => exact .inl ⟨_, _, by simp [confValue, hu, hc], confUpdate_cached us hu hc⟩
    | false => exact .inr ⟨by simp [confValue, hu, hc], rfl, confUpdate_unset us hu hc⟩

/-- Everything a row that is a CONF.UPDATE can do: it writes and goes on, or it reads CONF and stays. -/
theorem updateThen_cases (next : State → State) (s : State) :
    (∃ v r, confValue us s = some v ∧ updateThen us next s = next (confWrote v r s)) ∨
    (confValue us s = none ∧ s.record.cacheValid = false ∧ updateThen us next s = confRead us s) := by
  obtain ⟨v, r, hv, h⟩ | ⟨hv, hc, h⟩ := confUpdate_cases us s
  · exact .inl ⟨v, r, hv, by simp [updateThen, h, confWrote]⟩
  · exact .inr ⟨hv, hc, by simp [updateThen, h, confRead]⟩

/-- A row that is a CONF.UPDATE with the cache set writes and goes on in one step. -/
theorem updateThen_cached (next : State → State) {s : State} (hu : s.ctl.upd = .none)
    (hc : s.record.cacheValid = true) :
    updateThen us next s = next (confWrote (applyUpdates us s.record.cache) s.record.cache s) := by
  simp [updateThen, confUpdate_cached us hu hc, confWrote]

end Sys2Proof.Machine
end

