-- ==== Sys2Proof/Laws/Acceptance.lean ====
section
/-!
SUPPORT. What accepting a command can do, said once per command: CONFIGURE, RELEASE, EXECUTE and an ill-formed one.
-/
namespace Sys2Proof.Machine

/-- An ill-formed command only changes the control state, or is answered at once (R102). -/
theorem answerIllFormed_cases (e : DecodeError) (s : State) :
    (∃ q, (q = .cfgRsp .einval ∨ q = .relRsp .einval ∨ q = .rejRsp) ∧ answerIllFormed e s = s.setSeq q) ∨
      answerIllFormed e s = s.respond .einval 0#2 := by
  unfold answerIllFormed
  split
  · exact .inl ⟨_, .inl rfl, rfl⟩
  · exact .inl ⟨_, .inr (.inl rfl), rfl⟩
  · exact .inl ⟨_, .inr (.inr rfl), rfl⟩
  · exact .inr rfl

/-- Acceptance of CONFIGURE: a refusal by status, or one record reused or created (R221 to R226). -/
theorem acceptConfigure_cases (p : BitVec 8) (c : BitVec 2) (b : BitVec 6) (s : State) :
    (∃ st, (st = .einval ∨ st = .enomem) ∧ acceptConfigure p c b s = s.setSeq (.cfgRsp st)) ∨
    (∃ k, wordLengthLegal b = true ∧ s.recs.lookup p = some k ∧ acceptConfigure p c b s = { s with
      recs := s.recs.set k { s.recs.get k with cs := c, wordLen := b }
      w := { s.w with slot := k }, ctl := { s.ctl with seq := .cfgWr } }) ∨
    (∃ k, wordLengthLegal b = true ∧ s.recs.lookup p = none ∧ s.recs.free = some k ∧
      acceptConfigure p c b s = { s with
        recs := s.recs.set k { s.recs.get k with
          valid := true, peer := p, base := s.windowBase, phys := s.windowPhys, cs := c, wordLen := b
          cacheValid := false, shadowValid := false }
        w := { s.w with slot := k }, ctl := { s.ctl with seq := .cfgWr } }) := by
  unfold acceptConfigure
  split
  · split
    · exact .inr (.inl ⟨_, ‹_›, ‹_›, rfl⟩)
    · split
      · rename_i k hk
        refine .inr (.inr ⟨k, ‹_›, ‹_›, hk, ?_⟩)
        cases k <;> rfl
      · exact .inl ⟨_, .inr rfl, rfl⟩
  · exact .inl ⟨_, .inl rfl, rfl⟩

/-- Acceptance of RELEASE (R228, R230). -/
theorem acceptRelease_cases (p : BitVec 8) (s : State) :
    (∃ k, s.recs.lookup p = some k ∧ acceptRelease p s = { s with
      recs := s.recs.set k { s.recs.get k with valid := false }, ctl := { s.ctl with seq := .relRsp .ok } }) ∨
    (s.recs.lookup p = none ∧ acceptRelease p s = s.setSeq (.relRsp .einval)) := by
  unfold acceptRelease
  split
  · exact .inl ⟨_, ‹_›, rfl⟩
  · exact .inr ⟨‹_›, rfl⟩

theorem takeExit_reject (s : State) : s.takeExit .reject = s.setSeq .rejRsp := rfl

theorem memRead_eq (a : Word) (n : Nat) (s : State) : memRead a n s = { s with
    ret := s.mem.readLE a n, trace := .memRd a n (s.mem.readLE a n) :: s.trace } := by
  simp only [memRead, State.setRet, State.emit]

/-- The judgement of a fetched message: the decoded list is latched, and it is accepted or rejected (R111). -/
theorem judgeMessage_eq (s : State) : judgeMessage s = { s with
    w := { s.w with msg := (descriptorsOf s.w.words).map Td.transfer }
    ctl := { s.ctl with seq :=
      if messageAccepted s.record.wordLen (descriptorsOf s.w.words) then .assertWr else .rejRsp } } := by
  simp only [judgeMessage]
  split <;> rfl

/-- The word a fetch step reads (R97). -/
def fetchedWord (s : State) : Word := s.mem.readLE (descWordAddr s.w.descBase s.w.words.length) 4

/-- A fetch step: one MemRd of the next word, and then, after the last one, the judgement (R81, R111). -/
theorem fetchDescriptorWord_cases (s : State) :
    (s.w.words.length + 1 ≠ 5 * s.w.n.toNat ∧ fetchDescriptorWord s = { s with
      ret := fetchedWord s
      trace := .memRd (descWordAddr s.w.descBase s.w.words.length) 4 (fetchedWord s) :: s.trace
      w := { s.w with words := s.w.words ++ [fetchedWord s] }
      ctl := { s.ctl with seq := .fetchDesc } }) ∨
    (s.w.words.length + 1 = 5 * s.w.n.toNat ∧ fetchDescriptorWord s = { s with
      ret := fetchedWord s
      trace := .memRd (descWordAddr s.w.descBase s.w.words.length) 4 (fetchedWord s) :: s.trace
      w := { s.w with
        words := s.w.words ++ [fetchedWord s]
        msg := (descriptorsOf (s.w.words ++ [fetchedWord s])).map Td.transfer }
      ctl := { s.ctl with seq :=
        if messageAccepted s.record.wordLen (descriptorsOf (s.w.words ++ [fetchedWord s])) then .assertWr
        else .rejRsp } }) := by
  by_cases h : s.w.words.length + 1 = 5 * s.w.n.toNat
  · refine .inr ⟨h, ?_⟩
    simp only [fetchDescriptorWord, fetchOn, memRead_eq]
    rw [if_pos (by simpa using h), judgeMessage_eq]
    rfl
  · refine .inl ⟨h, ?_⟩
    simp only [fetchDescriptorWord, fetchOn, memRead_eq]
    rw [if_neg (by simpa using h)]
    rfl

/-- Acceptance of EXECUTE: rejected before any read, or the operands latched and the first word next; the empty message
is rejected at once (R50, R111, R180). -/
theorem acceptExecute_cases (p n : BitVec 8) (base : Word) (s : State) :
    ((base.toNat % 4 ≠ 0 ∨ s.recs.lookup p = none) ∧ acceptExecute p n base s = s.setSeq .rejRsp) ∨
    (∃ k, base.toNat % 4 = 0 ∧ s.recs.lookup p = some k ∧ n = 0#8 ∧ acceptExecute p n base s = { s with
      w := { s.w with slot := k, n := n, descBase := base, words := [], msg := [] }
      ctl := { s.ctl with seq := .rejRsp } }) ∨
    (∃ k, base.toNat % 4 = 0 ∧ s.recs.lookup p = some k ∧ n ≠ 0#8 ∧ acceptExecute p n base s = { s with
      w := { s.w with slot := k, n := n, descBase := base, words := [] }
      ctl := { s.ctl with seq := .fetchDesc } }) := by
  unfold acceptExecute
  split
  · split
    · exact .inl ⟨.inr ‹_›, rfl⟩
    · rename_i hb _ k hk
      by_cases hn : n = 0#8
      · subst hn; exact .inr (.inl ⟨k, hb, hk, rfl, rfl⟩)
      · refine .inr (.inr ⟨k, hb, hk, hn, ?_⟩)
        have h0 : n.toNat ≠ 0 := fun h => hn (BitVec.eq_of_toNat_eq (by simpa using h))
        have h1 : ¬(0 = 5 * n.toNat) := by omega
        simp only [fetchOn, State.setW, List.length_nil, h1, if_false]
        rfl
  · exact .inl ⟨.inl ‹_›, rfl⟩

/-- Five words a descriptor (R98). -/
theorem descriptorsOf_length (n : Nat) : ∀ ws : List Word, ws.length = 5 * n → (descriptorsOf ws).length = n := by
  induction n with
  | zero => intro ws h; have := List.length_eq_zero_iff.mp h; subst this; rfl
  | succ n ih =>
    intro ws h
    match ws, h with
    | w0 :: w1 :: w2 :: w3 :: w4 :: ws, h => simp [descriptorsOf, ih ws (by simp at h; omega)]

end Sys2Proof.Machine
end

