-- ==== Sys2Proof/Laws/Rows.lean ====
section
/-!
SUPPORT. What one step of each FSM can do: frames of WAIT.BIT, DELAY, PIO.RUN and the sequencer rows, field by field, and
one case lemma per step function, which later proofs cite instead of unfolding it.
-/
namespace Sys2Proof.Machine

/-! ## WAIT.BIT (R148) -/

variable (b : StatFlag)

@[simp] theorem readStat_ctl (s : State) : (readStat s).ctl = s.ctl := by simp [readStat]
@[simp] theorem readStat_recs (s : State) : (readStat s).recs = s.recs := by simp [readStat]
@[simp] theorem readStat_hwConf (s : State) : (readStat s).hwConf = s.hwConf := by simp [readStat]
@[simp] theorem readStat_hwConfValid (s : State) : (readStat s).hwConfValid = s.hwConfValid := by simp [readStat]
@[simp] theorem readStat_win (s : State) : (readStat s).win = s.win := by simp [readStat]
@[simp] theorem readStat_windowBase (s : State) : (readStat s).windowBase = s.windowBase := by simp [readStat]
@[simp] theorem readStat_windowPhys (s : State) : (readStat s).windowPhys = s.windowPhys := by simp [readStat]
@[simp] theorem readStat_now (s : State) : (readStat s).now = s.now := by simp [readStat]
@[simp] theorem readStat_mem (s : State) : (readStat s).mem = s.mem := by simp [readStat]
@[simp] theorem readStat_port (s : State) : (readStat s).port = s.port := by simp [readStat]
@[simp] theorem readStat_attached (s : State) : (readStat s).attached = s.attached := by simp [readStat]
@[simp] theorem readStat_inputs (s : State) : (readStat s).inputs = s.inputs := by simp [readStat]
@[simp] theorem readStat_drawn (s : State) : (readStat s).drawn = s.drawn := by simp [readStat]

@[simp] theorem waitReturn_recs (r : WaitResult) (s : State) : (waitReturn r s).recs = s.recs := rfl
@[simp] theorem waitReturn_hwConf (r : WaitResult) (s : State) : (waitReturn r s).hwConf = s.hwConf := rfl
@[simp] theorem waitReturn_hwConfValid (r : WaitResult) (s : State) : (waitReturn r s).hwConfValid = s.hwConfValid := rfl
@[simp] theorem waitReturn_win (r : WaitResult) (s : State) : (waitReturn r s).win = s.win := rfl
@[simp] theorem waitReturn_windowBase (r : WaitResult) (s : State) : (waitReturn r s).windowBase = s.windowBase := rfl
@[simp] theorem waitReturn_windowPhys (r : WaitResult) (s : State) : (waitReturn r s).windowPhys = s.windowPhys := rfl
@[simp] theorem waitReturn_now (r : WaitResult) (s : State) : (waitReturn r s).now = s.now := rfl
@[simp] theorem waitReturn_mem (r : WaitResult) (s : State) : (waitReturn r s).mem = s.mem := rfl
@[simp] theorem waitReturn_port (r : WaitResult) (s : State) : (waitReturn r s).port = s.port := rfl
@[simp] theorem waitReturn_attached (r : WaitResult) (s : State) : (waitReturn r s).attached = s.attached := rfl
@[simp] theorem waitReturn_ret (r : WaitResult) (s : State) : (waitReturn r s).ret = s.ret := rfl
@[simp] theorem waitReturn_trace (r : WaitResult) (s : State) : (waitReturn r s).trace = s.trace := rfl
@[simp] theorem waitReturn_inputs (r : WaitResult) (s : State) : (waitReturn r s).inputs = s.inputs := rfl
@[simp] theorem waitReturn_drawn (r : WaitResult) (s : State) : (waitReturn r s).drawn = s.drawn := rfl

theorem waitReturn_ctl (r : WaitResult) (s : State) : (waitReturn r s).ctl = { s.ctl with wait := .none } := rfl
theorem waitReturn_w (r : WaitResult) (s : State) : (waitReturn r s).w = { s.w with wres := r } := rfl

@[simp] theorem waitPoll_recs (s : State) : (waitPoll b s).recs = s.recs := by simp only [waitPoll]; split <;> [skip; split] <;> simp
@[simp] theorem waitPoll_hwConf (s : State) : (waitPoll b s).hwConf = s.hwConf := by simp only [waitPoll]; split <;> [skip; split] <;> simp
@[simp] theorem waitPoll_hwConfValid (s : State) : (waitPoll b s).hwConfValid = s.hwConfValid := by simp only [waitPoll]; split <;> [skip; split] <;> simp
@[simp] theorem waitPoll_win (s : State) : (waitPoll b s).win = s.win := by simp only [waitPoll]; split <;> [skip; split] <;> simp
@[simp] theorem waitPoll_windowBase (s : State) : (waitPoll b s).windowBase = s.windowBase := by simp only [waitPoll]; split <;> [skip; split] <;> simp
@[simp] theorem waitPoll_windowPhys (s : State) : (waitPoll b s).windowPhys = s.windowPhys := by simp only [waitPoll]; split <;> [skip; split] <;> simp
@[simp] theorem waitPoll_now (s : State) : (waitPoll b s).now = s.now := by simp only [waitPoll]; split <;> [skip; split] <;> simp
@[simp] theorem waitPoll_mem (s : State) : (waitPoll b s).mem = s.mem := by simp only [waitPoll]; split <;> [skip; split] <;> simp
@[simp] theorem waitPoll_port (s : State) : (waitPoll b s).port = s.port := by simp only [waitPoll]; split <;> [skip; split] <;> simp
@[simp] theorem waitPoll_attached (s : State) : (waitPoll b s).attached = s.attached := by simp only [waitPoll]; split <;> [skip; split] <;> simp
@[simp] theorem waitPoll_inputs (s : State) : (waitPoll b s).inputs = s.inputs := by simp only [waitPoll]; split <;> [skip; split] <;> simp
@[simp] theorem waitPoll_drawn (s : State) : (waitPoll b s).drawn = s.drawn := by simp only [waitPoll]; split <;> [skip; split] <;> simp

@[simp] theorem waitFinal_recs (s : State) : (waitFinal b s).recs = s.recs := by simp [waitFinal]
@[simp] theorem waitFinal_hwConf (s : State) : (waitFinal b s).hwConf = s.hwConf := by simp [waitFinal]
@[simp] theorem waitFinal_hwConfValid (s : State) : (waitFinal b s).hwConfValid = s.hwConfValid := by simp [waitFinal]
@[simp] theorem waitFinal_win (s : State) : (waitFinal b s).win = s.win := by simp [waitFinal]
@[simp] theorem waitFinal_windowBase (s : State) : (waitFinal b s).windowBase = s.windowBase := by simp [waitFinal]
@[simp] theorem waitFinal_windowPhys (s : State) : (waitFinal b s).windowPhys = s.windowPhys := by simp [waitFinal]
@[simp] theorem waitFinal_now (s : State) : (waitFinal b s).now = s.now := by simp [waitFinal]
@[simp] theorem waitFinal_mem (s : State) : (waitFinal b s).mem = s.mem := by simp [waitFinal]
@[simp] theorem waitFinal_port (s : State) : (waitFinal b s).port = s.port := by simp [waitFinal]
@[simp] theorem waitFinal_attached (s : State) : (waitFinal b s).attached = s.attached := by simp [waitFinal]
@[simp] theorem waitFinal_inputs (s : State) : (waitFinal b s).inputs = s.inputs := by simp [waitFinal]
@[simp] theorem waitFinal_drawn (s : State) : (waitFinal b s).drawn = s.drawn := by simp [waitFinal]

@[simp] theorem waitStep_recs (s : State) : (waitStep b s).recs = s.recs := by unfold waitStep; split <;> simp [waitSample, yieldOp]
@[simp] theorem waitStep_hwConf (s : State) : (waitStep b s).hwConf = s.hwConf := by unfold waitStep; split <;> simp [waitSample, yieldOp]
@[simp] theorem waitStep_hwConfValid (s : State) : (waitStep b s).hwConfValid = s.hwConfValid := by unfold waitStep; split <;> simp [waitSample, yieldOp]
@[simp] theorem waitStep_win (s : State) : (waitStep b s).win = s.win := by unfold waitStep; split <;> simp [waitSample, yieldOp]
@[simp] theorem waitStep_windowBase (s : State) : (waitStep b s).windowBase = s.windowBase := by unfold waitStep; split <;> simp [waitSample, yieldOp]
@[simp] theorem waitStep_windowPhys (s : State) : (waitStep b s).windowPhys = s.windowPhys := by unfold waitStep; split <;> simp [waitSample, yieldOp]
@[simp] theorem waitStep_now (s : State) : (waitStep b s).now = s.now := by unfold waitStep; split <;> simp [waitSample, yieldOp]
@[simp] theorem waitStep_mem (s : State) : (waitStep b s).mem = s.mem := by unfold waitStep; split <;> simp [waitSample, yieldOp]
@[simp] theorem waitStep_port (s : State) : (waitStep b s).port = s.port := by unfold waitStep; split <;> simp [waitSample, yieldOp]
@[simp] theorem waitStep_attached (s : State) : (waitStep b s).attached = s.attached := by unfold waitStep; split <;> simp [waitSample, yieldOp]
@[simp] theorem waitStep_inputs (s : State) : (waitStep b s).inputs = s.inputs := by unfold waitStep; split <;> simp [waitSample, yieldOp]
@[simp] theorem waitStep_drawn (s : State) : (waitStep b s).drawn = s.drawn := by unfold waitStep; split <;> simp [waitSample, yieldOp]

/-- The STAT value a read shows. -/
theorem readStat_w (s : State) : (readStat s).w = { s.w with s := s.win.stat } := by
  simp [readStat, regRead_ret, readWindow]

theorem readStat_trace (s : State) :
    (readStat s).trace = .busRd (s.busAddr .stat) Config.offStat s.win.stat :: s.trace := by
  simp [readStat, regRead_trace, readWindow, RegId.offset]

/-- A step of WAIT.BIT changes no register of the caller: only W.bit, W.t0, W.s and W.wres (R141). -/
theorem waitStep_w (s : State) : ∃ bit t0 st wres,
    (waitStep b s).w = { s.w with bit := bit, t0 := t0, s := st, wres := wres } := by
  unfold waitStep
  split
  · exact ⟨b, s.now, s.w.s, s.w.wres, rfl⟩
  · exact ⟨b, s.now, s.w.s, s.w.wres, rfl⟩
  · refine ⟨s.w.bit, s.w.t0, s.win.stat, if b.isSet s.win.stat then .ok else s.w.wres, ?_⟩
    simp only [waitPoll, readStat_w]
    split
    · simp [waitReturn_w, readStat_w]
    · split <;> simp [readStat_w]
  · exact ⟨s.w.bit, s.w.t0, s.w.s, s.w.wres, rfl⟩
  · exact ⟨s.w.bit, s.w.t0, s.win.stat, if b.isSet s.win.stat then .ok else .timeout, by
      simp [waitFinal, waitReturn_w, readStat_w]⟩

/-- A step of WAIT.BIT moves only the WAIT component of the control state (R148). -/
theorem waitStep_ctl (s : State) : ∃ x, (waitStep b s).ctl = { s.ctl with wait := x } := by
  unfold waitStep
  split
  · exact ⟨.poll, rfl⟩
  · exact ⟨.poll, rfl⟩
  · simp only [waitPoll]
    split
    · exact ⟨.none, by simp [waitReturn_ctl]⟩
    · split
      · exact ⟨.final, by simp⟩
      · exact ⟨.yield, by simp⟩
  · exact ⟨.poll, rfl⟩
  · exact ⟨.none, by simp [waitFinal, waitReturn_ctl]⟩

@[simp] theorem waitStep_record (s : State) : (waitStep b s).record = s.record := by
  obtain ⟨_, _, _, _, h⟩ := waitStep_w b s
  simp [State.record, h]

/-! ## DELAY (R193) -/

@[simp] theorem delayStep_recs (d : BitVec 16) (s : State) : (delayStep d s).recs = s.recs := by unfold delayStep; split <;> [skip; skip; split] <;> simp [delaySample]
@[simp] theorem delayStep_hwConf (d : BitVec 16) (s : State) : (delayStep d s).hwConf = s.hwConf := by unfold delayStep; split <;> [skip; skip; split] <;> simp [delaySample]
@[simp] theorem delayStep_hwConfValid (d : BitVec 16) (s : State) : (delayStep d s).hwConfValid = s.hwConfValid := by unfold delayStep; split <;> [skip; skip; split] <;> simp [delaySample]
@[simp] theorem delayStep_win (d : BitVec 16) (s : State) : (delayStep d s).win = s.win := by unfold delayStep; split <;> [skip; skip; split] <;> simp [delaySample]
@[simp] theorem delayStep_windowBase (d : BitVec 16) (s : State) : (delayStep d s).windowBase = s.windowBase := by unfold delayStep; split <;> [skip; skip; split] <;> simp [delaySample]
@[simp] theorem delayStep_windowPhys (d : BitVec 16) (s : State) : (delayStep d s).windowPhys = s.windowPhys := by unfold delayStep; split <;> [skip; skip; split] <;> simp [delaySample]
@[simp] theorem delayStep_now (d : BitVec 16) (s : State) : (delayStep d s).now = s.now := by unfold delayStep; split <;> [skip; skip; split] <;> simp [delaySample]
@[simp] theorem delayStep_mem (d : BitVec 16) (s : State) : (delayStep d s).mem = s.mem := by unfold delayStep; split <;> [skip; skip; split] <;> simp [delaySample]
@[simp] theorem delayStep_port (d : BitVec 16) (s : State) : (delayStep d s).port = s.port := by unfold delayStep; split <;> [skip; skip; split] <;> simp [delaySample]
@[simp] theorem delayStep_attached (d : BitVec 16) (s : State) : (delayStep d s).attached = s.attached := by unfold delayStep; split <;> [skip; skip; split] <;> simp [delaySample]
@[simp] theorem delayStep_ret (d : BitVec 16) (s : State) : (delayStep d s).ret = s.ret := by unfold delayStep; split <;> [skip; skip; split] <;> simp [delaySample]
@[simp] theorem delayStep_inputs (d : BitVec 16) (s : State) : (delayStep d s).inputs = s.inputs := by unfold delayStep; split <;> [skip; skip; split] <;> simp [delaySample]
@[simp] theorem delayStep_drawn (d : BitVec 16) (s : State) : (delayStep d s).drawn = s.drawn := by unfold delayStep; split <;> [skip; skip; split] <;> simp [delaySample]

theorem delayStep_w (d : BitVec 16) (s : State) : ∃ t0, (delayStep d s).w = { s.w with t0 := t0 } := by
  unfold delayStep
  split
  · exact ⟨s.now, rfl⟩
  · exact ⟨s.now, rfl⟩
  · split <;> exact ⟨s.w.t0, rfl⟩

theorem delayStep_ctl (d : BitVec 16) (s : State) : ∃ x, (delayStep d s).ctl = { s.ctl with dly := x } := by
  unfold delayStep
  split
  · exact ⟨.wait, rfl⟩
  · exact ⟨.wait, rfl⟩
  · next h => split
              · exact ⟨.none, rfl⟩
              · exact ⟨.wait, by rw [← h]⟩

/-! ## PIO.RUN (R157, R167) -/

/-- The working registers that PIO.RUN leaves alone (R157, "Not written"). -/
structure Work.SameMessage (w w' : Work) : Prop where
  slot : w'.slot = w.slot
  msg : w'.msg = w.msg
  n : w'.n = w.n
  xi : w'.xi = w.xi
  status : w'.status = w.status
  actual : w'.actual = w.actual
  wl : w'.wl = w.wl
  outcome : w'.outcome = w.outcome
  descBase : w'.descBase = w.descBase
  words : w'.words = w.words

theorem Work.SameMessage.rfl' (w : Work) : w.SameMessage w := ⟨rfl, rfl, rfl, rfl, rfl, rfl, rfl, rfl, rfl, rfl⟩

theorem Work.SameMessage.trans {a b c : Work} (h : a.SameMessage b) (g : b.SameMessage c) : a.SameMessage c :=
  ⟨g.1.trans h.1, g.2.trans h.2, g.3.trans h.3, g.4.trans h.4, g.5.trans h.5, g.6.trans h.6, g.7.trans h.7,
    g.8.trans h.8, g.9.trans h.9, g.10.trans h.10⟩

theorem waitStep_same (s : State) : s.w.SameMessage (waitStep b s).w := by
  obtain ⟨_, _, _, _, h⟩ := waitStep_w b s
  rw [h]
  exact ⟨rfl, rfl, rfl, rfl, rfl, rfl, rfl, rfl, rfl, rfl⟩

@[simp] theorem gotoPio_recs (p : PioState) (s : State) : (gotoPio p s).recs = s.recs := by unfold gotoPio; split <;> rfl
@[simp] theorem gotoPio_w (p : PioState) (s : State) : (gotoPio p s).w = s.w := by unfold gotoPio; split <;> rfl
@[simp] theorem gotoPio_hwConf (p : PioState) (s : State) : (gotoPio p s).hwConf = s.hwConf := by unfold gotoPio; split <;> rfl
@[simp] theorem gotoPio_hwConfValid (p : PioState) (s : State) : (gotoPio p s).hwConfValid = s.hwConfValid := by unfold gotoPio; split <;> rfl
@[simp] theorem gotoPio_win (p : PioState) (s : State) : (gotoPio p s).win = s.win := by unfold gotoPio; split <;> rfl
@[simp] theorem gotoPio_windowBase (p : PioState) (s : State) : (gotoPio p s).windowBase = s.windowBase := by unfold gotoPio; split <;> rfl
@[simp] theorem gotoPio_windowPhys (p : PioState) (s : State) : (gotoPio p s).windowPhys = s.windowPhys := by unfold gotoPio; split <;> rfl
@[simp] theorem gotoPio_now (p : PioState) (s : State) : (gotoPio p s).now = s.now := by unfold gotoPio; split <;> rfl
@[simp] theorem gotoPio_mem (p : PioState) (s : State) : (gotoPio p s).mem = s.mem := by unfold gotoPio; split <;> rfl
@[simp] theorem gotoPio_port (p : PioState) (s : State) : (gotoPio p s).port = s.port := by unfold gotoPio; split <;> rfl
@[simp] theorem gotoPio_attached (p : PioState) (s : State) : (gotoPio p s).attached = s.attached := by unfold gotoPio; split <;> rfl
@[simp] theorem gotoPio_ret (p : PioState) (s : State) : (gotoPio p s).ret = s.ret := by unfold gotoPio; split <;> rfl
@[simp] theorem gotoPio_trace (p : PioState) (s : State) : (gotoPio p s).trace = s.trace := by unfold gotoPio; split <;> rfl
@[simp] theorem gotoPio_inputs (p : PioState) (s : State) : (gotoPio p s).inputs = s.inputs := by unfold gotoPio; split <;> rfl
@[simp] theorem gotoPio_drawn (p : PioState) (s : State) : (gotoPio p s).drawn = s.drawn := by unfold gotoPio; split <;> rfl

theorem gotoPio_ctl (p : PioState) (s : State) :
    (gotoPio p s).ctl = { s.ctl with
      pio := p, wait := if p = .txWait ∨ p = .rxWait ∨ p = .eotWait then .sample else s.ctl.wait } := by
  unfold gotoPio; split <;> rfl

/-- Going to a PIO state moves PIO and, where the state waits, WAIT, and nothing else. -/
theorem gotoPio_eq (p : PioState) (s : State) : gotoPio p s = { s with ctl := { s.ctl with
    pio := p, wait := if p = .txWait ∨ p = .rxWait ∨ p = .eotWait then .sample else s.ctl.wait } } := by
  unfold gotoPio; split <;> rfl

/-- Where a run starts: a path's first row, or the trailing wait (R167). -/
theorem pioStart_cases (t : Transfer) (count : Word) :
    pioStart t count = .txWait ∨ pioStart t count = .rxDummy ∨ pioStart t count = .eotWait := by
  unfold pioStart
  split <;> [skip; split] <;> (try split) <;> simp

/-- The entry of PIO.RUN, whole (R157, R167). -/
theorem pioEntry_eq (t : Transfer) (wl : BitVec 6) (s : State) : pioEntry t wl s =
    { s with
      w := { s.w with unit := unitBytes wl, count := unitCount t.len (unitBytes wl), c := 0#32 }
      ctl := { s.ctl with
        pio := pioStart t (unitCount t.len (unitBytes wl))
        wait := if pioStart t (unitCount t.len (unitBytes wl)) = .rxDummy then s.ctl.wait else .sample } } := by
  simp only [pioEntry, gotoPio_eq]
  obtain h | h | h := pioStart_cases t (unitCount t.len (unitBytes wl)) <;> simp [h, State.setW]

@[simp] theorem pioEntry_recs (t : Transfer) (wl : BitVec 6) (s : State) : (pioEntry t wl s).recs = s.recs := by simp [pioEntry]
@[simp] theorem pioEntry_hwConf (t : Transfer) (wl : BitVec 6) (s : State) : (pioEntry t wl s).hwConf = s.hwConf := by simp [pioEntry]
@[simp] theorem pioEntry_hwConfValid (t : Transfer) (wl : BitVec 6) (s : State) : (pioEntry t wl s).hwConfValid = s.hwConfValid := by simp [pioEntry]
@[simp] theorem pioEntry_win (t : Transfer) (wl : BitVec 6) (s : State) : (pioEntry t wl s).win = s.win := by simp [pioEntry]
@[simp] theorem pioEntry_windowBase (t : Transfer) (wl : BitVec 6) (s : State) : (pioEntry t wl s).windowBase = s.windowBase := by simp [pioEntry]
@[simp] theorem pioEntry_windowPhys (t : Transfer) (wl : BitVec 6) (s : State) : (pioEntry t wl s).windowPhys = s.windowPhys := by simp [pioEntry]
@[simp] theorem pioEntry_now (t : Transfer) (wl : BitVec 6) (s : State) : (pioEntry t wl s).now = s.now := by simp [pioEntry]
@[simp] theorem pioEntry_mem (t : Transfer) (wl : BitVec 6) (s : State) : (pioEntry t wl s).mem = s.mem := by simp [pioEntry]
@[simp] theorem pioEntry_port (t : Transfer) (wl : BitVec 6) (s : State) : (pioEntry t wl s).port = s.port := by simp [pioEntry]
@[simp] theorem pioEntry_attached (t : Transfer) (wl : BitVec 6) (s : State) : (pioEntry t wl s).attached = s.attached := by simp [pioEntry]
@[simp] theorem pioEntry_ret (t : Transfer) (wl : BitVec 6) (s : State) : (pioEntry t wl s).ret = s.ret := by simp [pioEntry]
@[simp] theorem pioEntry_trace (t : Transfer) (wl : BitVec 6) (s : State) : (pioEntry t wl s).trace = s.trace := by simp [pioEntry]
@[simp] theorem pioEntry_inputs (t : Transfer) (wl : BitVec 6) (s : State) : (pioEntry t wl s).inputs = s.inputs := by simp [pioEntry]
@[simp] theorem pioEntry_drawn (t : Transfer) (wl : BitVec 6) (s : State) : (pioEntry t wl s).drawn = s.drawn := by simp [pioEntry]

@[simp] theorem pioCount_recs (p : PioState) (s : State) : (pioCount p s).recs = s.recs := by simp [pioCount]
@[simp] theorem pioCount_hwConf (p : PioState) (s : State) : (pioCount p s).hwConf = s.hwConf := by simp [pioCount]
@[simp] theorem pioCount_hwConfValid (p : PioState) (s : State) : (pioCount p s).hwConfValid = s.hwConfValid := by simp [pioCount]
@[simp] theorem pioCount_win (p : PioState) (s : State) : (pioCount p s).win = s.win := by simp [pioCount]
@[simp] theorem pioCount_windowBase (p : PioState) (s : State) : (pioCount p s).windowBase = s.windowBase := by simp [pioCount]
@[simp] theorem pioCount_windowPhys (p : PioState) (s : State) : (pioCount p s).windowPhys = s.windowPhys := by simp [pioCount]
@[simp] theorem pioCount_now (p : PioState) (s : State) : (pioCount p s).now = s.now := by simp [pioCount]
@[simp] theorem pioCount_mem (p : PioState) (s : State) : (pioCount p s).mem = s.mem := by simp [pioCount]
@[simp] theorem pioCount_port (p : PioState) (s : State) : (pioCount p s).port = s.port := by simp [pioCount]
@[simp] theorem pioCount_attached (p : PioState) (s : State) : (pioCount p s).attached = s.attached := by simp [pioCount]
@[simp] theorem pioCount_ret (p : PioState) (s : State) : (pioCount p s).ret = s.ret := by simp [pioCount]
@[simp] theorem pioCount_trace (p : PioState) (s : State) : (pioCount p s).trace = s.trace := by simp [pioCount]
@[simp] theorem pioCount_inputs (p : PioState) (s : State) : (pioCount p s).inputs = s.inputs := by simp [pioCount]
@[simp] theorem pioCount_drawn (p : PioState) (s : State) : (pioCount p s).drawn = s.drawn := by simp [pioCount]

@[simp] theorem pioReturn_recs (s : State) : (pioReturn s).recs = s.recs := rfl
@[simp] theorem pioReturn_hwConf (s : State) : (pioReturn s).hwConf = s.hwConf := rfl
@[simp] theorem pioReturn_hwConfValid (s : State) : (pioReturn s).hwConfValid = s.hwConfValid := rfl
@[simp] theorem pioReturn_win (s : State) : (pioReturn s).win = s.win := rfl
@[simp] theorem pioReturn_windowBase (s : State) : (pioReturn s).windowBase = s.windowBase := rfl
@[simp] theorem pioReturn_windowPhys (s : State) : (pioReturn s).windowPhys = s.windowPhys := rfl
@[simp] theorem pioReturn_now (s : State) : (pioReturn s).now = s.now := rfl
@[simp] theorem pioReturn_mem (s : State) : (pioReturn s).mem = s.mem := rfl
@[simp] theorem pioReturn_port (s : State) : (pioReturn s).port = s.port := rfl
@[simp] theorem pioReturn_attached (s : State) : (pioReturn s).attached = s.attached := rfl
@[simp] theorem pioReturn_ret (s : State) : (pioReturn s).ret = s.ret := rfl
@[simp] theorem pioReturn_trace (s : State) : (pioReturn s).trace = s.trace := rfl
@[simp] theorem pioReturn_inputs (s : State) : (pioReturn s).inputs = s.inputs := rfl
@[simp] theorem pioReturn_drawn (s : State) : (pioReturn s).drawn = s.drawn := rfl

@[simp] theorem pioStep_recs (t : Transfer) (wl : BitVec 6) (s : State) : (pioStep t wl s).recs = s.recs := by unfold pioStep; split <;> (try unfold pioWait) <;> (try (dsimp only; split <;> [split; skip])) <;> simp [pioTxMemRd, pioTxWr, pioRxDummy, pioRxRd, pioRxMemWr, State.takeExit]
@[simp] theorem pioStep_hwConf (t : Transfer) (wl : BitVec 6) (s : State) : (pioStep t wl s).hwConf = s.hwConf := by unfold pioStep; split <;> (try unfold pioWait) <;> (try (dsimp only; split <;> [split; skip])) <;> simp [pioTxMemRd, pioTxWr, pioRxDummy, pioRxRd, pioRxMemWr, State.takeExit]
@[simp] theorem pioStep_hwConfValid (t : Transfer) (wl : BitVec 6) (s : State) : (pioStep t wl s).hwConfValid = s.hwConfValid := by unfold pioStep; split <;> (try unfold pioWait) <;> (try (dsimp only; split <;> [split; skip])) <;> simp [pioTxMemRd, pioTxWr, pioRxDummy, pioRxRd, pioRxMemWr, State.takeExit]
@[simp] theorem pioStep_windowBase (t : Transfer) (wl : BitVec 6) (s : State) : (pioStep t wl s).windowBase = s.windowBase := by unfold pioStep; split <;> (try unfold pioWait) <;> (try (dsimp only; split <;> [split; skip])) <;> simp [pioTxMemRd, pioTxWr, pioRxDummy, pioRxRd, pioRxMemWr, State.takeExit]
@[simp] theorem pioStep_windowPhys (t : Transfer) (wl : BitVec 6) (s : State) : (pioStep t wl s).windowPhys = s.windowPhys := by unfold pioStep; split <;> (try unfold pioWait) <;> (try (dsimp only; split <;> [split; skip])) <;> simp [pioTxMemRd, pioTxWr, pioRxDummy, pioRxRd, pioRxMemWr, State.takeExit]
@[simp] theorem pioStep_now (t : Transfer) (wl : BitVec 6) (s : State) : (pioStep t wl s).now = s.now := by unfold pioStep; split <;> (try unfold pioWait) <;> (try (dsimp only; split <;> [split; skip])) <;> simp [pioTxMemRd, pioTxWr, pioRxDummy, pioRxRd, pioRxMemWr, State.takeExit]
@[simp] theorem pioStep_port (t : Transfer) (wl : BitVec 6) (s : State) : (pioStep t wl s).port = s.port := by unfold pioStep; split <;> (try unfold pioWait) <;> (try (dsimp only; split <;> [split; skip])) <;> simp [pioTxMemRd, pioTxWr, pioRxDummy, pioRxRd, pioRxMemWr, State.takeExit]
@[simp] theorem pioStep_attached (t : Transfer) (wl : BitVec 6) (s : State) : (pioStep t wl s).attached = s.attached := by unfold pioStep; split <;> (try unfold pioWait) <;> (try (dsimp only; split <;> [split; skip])) <;> simp [pioTxMemRd, pioTxWr, pioRxDummy, pioRxRd, pioRxMemWr, State.takeExit]
@[simp] theorem pioStep_inputs (t : Transfer) (wl : BitVec 6) (s : State) : (pioStep t wl s).inputs = s.inputs := by unfold pioStep; split <;> (try unfold pioWait) <;> (try (dsimp only; split <;> [split; skip])) <;> simp [pioTxMemRd, pioTxWr, pioRxDummy, pioRxRd, pioRxMemWr, State.takeExit]
@[simp] theorem pioStep_drawn (t : Transfer) (wl : BitVec 6) (s : State) : (pioStep t wl s).drawn = s.drawn := by unfold pioStep; split <;> (try unfold pioWait) <;> (try (dsimp only; split <;> [split; skip])) <;> simp [pioTxMemRd, pioTxWr, pioRxDummy, pioRxRd, pioRxMemWr, State.takeExit]

end Sys2Proof.Machine
end

