-- ==== Sys2Proof/Laws/Selection.lean ====
section
/-!
SUPPORT. The selection of the next transfer (43_message_sequencer.md R186, R198, row XFER_HEAD): what it can do, said
once, and its equations on the transfer it meets.
-/
namespace Sys2Proof.Machine

theorem currentTransfer_mem {s : State} {t : Transfer} (h : s.currentTransfer = some t) : t ∈ s.w.msg :=
  List.mem_of_mem_take (List.mem_of_mem_drop (List.mem_of_head? h))

/-- Passing to the next transfer drops the current one. -/
theorem remaining_countTransfer {s : State} {t : Transfer} {ts : List Transfer} (h : s.remaining = t :: ts) :
    (countTransfer s).remaining = ts := by
  have hl : s.w.xi.toNat < s.w.n.toNat := by
    have := congrArg List.length h
    simp [State.remaining] at this
    omega
  have hx : (s.w.xi + 1#8).toNat = s.w.xi.toNat + 1 := by
    have := s.w.n.isLt
    simp [BitVec.toNat_add]
    omega
  show ((s.w.msg.take s.w.n.toNat).drop (s.w.xi + 1#8).toNat) = ts
  rw [hx, ← List.drop_drop]
  show List.drop 1 s.remaining = ts
  rw [h]
  rfl

/-- Everything the selection can do (R198): the loop ends, or the point before a transfer's first event is reached: its
delay, or its Configuration update with the effective word length latched. Only W.xi, W.W, SEQ and DLY change. -/
theorem selectFrom_cases (l : List Transfer) : ∀ s : State, s.remaining = l →
    ∃ xi : BitVec 8,
      selectFrom l s = { s with w := { s.w with xi := xi }, ctl := { s.ctl with seq := .deassertWr } } ∨
      (∃ t, t.len = 0#32 ∧ t.delay ≠ 0#16 ∧ (selectFrom l s).currentTransfer = some t ∧
        selectFrom l s = { s with
          w := { s.w with xi := xi }, ctl := { s.ctl with seq := .xferDelay, dly := .sample } }) ∨
      (∃ t, t.len ≠ 0#32 ∧ (selectFrom l s).currentTransfer = some t ∧ selectFrom l s = { s with
          w := { s.w with xi := xi, wl := effectiveWordLength t.bpw s.record.wordLen }
          ctl := { s.ctl with seq := .xferConfWr } }) := by
  induction l with
  | nil => intro s _; exact ⟨s.w.xi, .inl rfl⟩
  | cons t ts ih =>
    intro s h
    have hc : s.currentTransfer = some t := by simp [State.currentTransfer, h]
    unfold selectFrom
    split
    · split
      · exact ih (countTransfer s) (remaining_countTransfer h)
      · exact ⟨s.w.xi, .inr (.inl ⟨t, ‹_›, ‹_›, hc, rfl⟩)⟩
    · exact ⟨s.w.xi, .inr (.inr ⟨t, ‹_›, hc, rfl⟩)⟩

theorem selectTransfer_cases (s : State) :
    ∃ xi : BitVec 8,
      selectTransfer s = { s with w := { s.w with xi := xi }, ctl := { s.ctl with seq := .deassertWr } } ∨
      (∃ t, t.len = 0#32 ∧ t.delay ≠ 0#16 ∧ (selectTransfer s).currentTransfer = some t ∧
        selectTransfer s = { s with
          w := { s.w with xi := xi }, ctl := { s.ctl with seq := .xferDelay, dly := .sample } }) ∨
      (∃ t, t.len ≠ 0#32 ∧ (selectTransfer s).currentTransfer = some t ∧ selectTransfer s = { s with
          w := { s.w with xi := xi, wl := effectiveWordLength t.bpw s.record.wordLen }
          ctl := { s.ctl with seq := .xferConfWr } }) :=
  selectFrom_cases s.remaining s rfl

theorem remaining_cons {s : State} {t : Transfer} (h : s.currentTransfer = some t) : ∃ ts, s.remaining = t :: ts :=
  List.head?_eq_some_iff.mp h

/-- The list exhausted, De-assert is next. -/
theorem selectTransfer_none {s : State} (h : s.currentTransfer = none) : selectTransfer s = s.setSeq .deassertWr := by
  have h : s.remaining = [] := List.head?_eq_none_iff.mp h
  simp [selectTransfer, h, selectFrom]

/-- A transfer of nonzero length: its Configuration update is next (R194). -/
theorem selectTransfer_data {s : State} {t : Transfer} (h : s.currentTransfer = some t) (hl : t.len ≠ 0#32) :
    selectTransfer s = transferHead t s := by
  obtain ⟨ts, h⟩ := remaining_cons h
  simp [selectTransfer, h, selectFrom, hl]

/-- A transfer of length 0 with a delay: the delay is next (R187). -/
theorem selectTransfer_delay {s : State} {t : Transfer} (h : s.currentTransfer = some t) (hl : t.len = 0#32)
    (hd : t.delay ≠ 0#16) : selectTransfer s = enterDelay s := by
  obtain ⟨ts, h⟩ := remaining_cons h
  simp [selectTransfer, h, selectFrom, hl, hd]

/-- A transfer of length 0 without a delay is passed over (R187). -/
theorem selectTransfer_skip {s : State} {t : Transfer} (h : s.currentTransfer = some t) (hl : t.len = 0#32)
    (hd : t.delay = 0#16) : selectTransfer s = nextTransfer s := by
  obtain ⟨ts, h⟩ := remaining_cons h
  simp [nextTransfer, selectTransfer, remaining_countTransfer h, h, selectFrom, hl, hd]

/-- What the selection, and passing to the next transfer, leave alone. -/
theorem selectTransfer_frame (s : State) : ∃ xi wl q d,
    (selectTransfer s) = { s with
      w := { s.w with xi := xi, wl := wl }, ctl := { s.ctl with seq := q, dly := d } } ∧
    ((q = .deassertWr ∧ d = s.ctl.dly) ∨ (q = .xferDelay ∧ d = .sample) ∨ (q = .xferConfWr ∧ d = s.ctl.dly)) := by
  obtain ⟨xi, h | ⟨t, _, _, _, h⟩ | ⟨t, _, _, h⟩⟩ := selectTransfer_cases s
  · exact ⟨xi, s.w.wl, .deassertWr, s.ctl.dly, h, .inl ⟨rfl, rfl⟩⟩
  · exact ⟨xi, s.w.wl, .xferDelay, .sample, h, .inr (.inl ⟨rfl, rfl⟩)⟩
  · exact ⟨xi, _, .xferConfWr, s.ctl.dly, h, .inr (.inr ⟨rfl, rfl⟩)⟩

theorem nextTransfer_frame (s : State) : ∃ xi wl q d,
    (nextTransfer s) = { s with
      w := { s.w with xi := xi, wl := wl }, ctl := { s.ctl with seq := q, dly := d } } ∧
    ((q = .deassertWr ∧ d = s.ctl.dly) ∨ (q = .xferDelay ∧ d = .sample) ∨ (q = .xferConfWr ∧ d = s.ctl.dly)) :=
  selectTransfer_frame (countTransfer s)

theorem afterTransfer_frame (x : Transfer) (s : State) : ∃ xi wl q d,
    (afterTransfer x s) = { s with
      w := { s.w with xi := xi, wl := wl }, ctl := { s.ctl with seq := q, dly := d } } ∧
    ((q = .deassertWr ∧ d = s.ctl.dly) ∨ (q = .xferDelay ∧ d = .sample) ∨ (q = .xferConfWr ∧ d = s.ctl.dly)) := by
  unfold afterTransfer
  split
  · exact nextTransfer_frame s
  · exact ⟨s.w.xi, s.w.wl, _, _, rfl, .inr (.inl ⟨rfl, rfl⟩)⟩

end Sys2Proof.Machine
end

