-- ==== Sys2Proof/Laws/Steps.lean ====
section
/-!
SUPPORT. What a step can do, said once: the step splits into the moves of the other agents and one row of the engine
(`step_next_iff`), and a row of the engine is one of the constructors of `EngineRow` (`engineStep_row`).
-/
namespace Sys2Proof.Machine

/-! ## The moves of the other agents -/

@[simp] theorem arrive_ctl (s : State) : s.arrive.ctl = s.ctl := rfl
@[simp] theorem arrive_recs (s : State) : s.arrive.recs = s.recs := rfl
@[simp] theorem arrive_w (s : State) : s.arrive.w = s.w := rfl
@[simp] theorem arrive_hwConf (s : State) : s.arrive.hwConf = s.hwConf := rfl
@[simp] theorem arrive_hwConfValid (s : State) : s.arrive.hwConfValid = s.hwConfValid := rfl
@[simp] theorem arrive_trace (s : State) : s.arrive.trace = s.trace := rfl
@[simp] theorem arrive_ret (s : State) : s.arrive.ret = s.ret := rfl
@[simp] theorem arrive_record (s : State) : s.arrive.record = s.record := rfl
@[simp] theorem arrive_currentTransfer (s : State) : s.arrive.currentTransfer = s.currentTransfer := rfl
@[simp] theorem arrive_cohOk (s : State) : s.arrive.cohOk = s.cohOk := rfl
theorem arrive_now (s : State) : s.arrive.now = s.now + s.nextInput.ticks := rfl

theorem arrive_attached_of {s : State} (h : s.attached = true) : s.arrive.attached = true := by
  simp [State.arrive, h]

theorem arrive_windowBase_of {s : State} (h : s.attached = true) : s.arrive.windowBase = s.windowBase := by
  simp [State.arrive, attachedBase, h]

theorem arrive_windowPhys_of {s : State} (h : s.attached = true) : s.arrive.windowPhys = s.windowPhys := by
  simp [State.arrive, attachedPhys, h]

theorem arrive_port_of {s : State} {c : Command} (h : s.port = some c) : s.arrive.port = some c := by
  simp [State.arrive, presentedPort, h]

/-! ## The checker and the launch conditions around a row -/

theorem checkCoherency_next_iff {r : Result} {t : State} :
    checkCoherency r = .next t ↔ r = .next t ∧ t.cohOk = true := by
  cases r with
  | next u =>
    by_cases h : u.cohOk = true
    · simp only [checkCoherency, h, if_true, Host.Outcome.next.injEq]
      constructor
      · rintro rfl; exact ⟨rfl, h⟩
      · rintro ⟨rfl, -⟩; rfl
    · simp only [checkCoherency, h, Host.Outcome.next.injEq]
      constructor
      · intro g; simp at g
      · rintro ⟨rfl, g⟩; exact absurd g h
  | fault f => simp [checkCoherency]
  | refused f => simp [checkCoherency]

theorem step_next_iff {s t : State} :
    step s = .next t ↔ launchRefusal s.arrive = none ∧ engineStep s.arrive = .next t ∧ t.cohOk = true := by
  unfold step
  cases h : launchRefusal s.arrive with
  | some r => simp
  | none => simp [checkCoherency_next_iff]

theorem launchRefusal_of_attached {s : State} (ha : s.attached = true) (hb : s.windowBase.toNat % 8 = 0) :
    launchRefusal s.arrive = none := by
  simp [launchRefusal, arrive_attached_of ha, arrive_windowBase_of ha, hb]

/-- An attached machine whose window is aligned: the step is the engine's row, checked. -/
theorem step_of_attached {s : State} (ha : s.attached = true) (hb : s.windowBase.toNat % 8 = 0) :
    step s = checkCoherency (engineStep s.arrive) := by
  simp [step, launchRefusal_of_attached ha hb]

/-! ## The row of the engine -/

/-- The instruction of a transfer's kind runs the transfer. -/
theorem exec_transfer {t : Transfer} {i : Instr} (h : t.instr = some i) (s : State) : exec i s = transferStep t s := by
  obtain ⟨len, txp, txaddr, rxp, rxaddr, bpw, speed, delay⟩ := t
  simp only [Transfer.instr] at h
  split at h
  · subst_vars; simp only [Option.some.injEq] at h; subst h; rfl
  · split at h
    · simp only [Option.some.injEq] at h; subst_vars; rfl
    · split at h
      · simp only [Option.some.injEq] at h; simp_all; subst h; rfl
      · simp at h

/-- A command that decodes is one of the three host commands. -/
theorem decodeCommand_ok {cmd arg : Word} {i : Instr} (h : decodeCommand cmd arg = .ok i) :
    (∃ p c b, i = .configure p c b) ∨ (∃ p, i = .release p) ∨ ∃ p n b, i = .execute p n b := by
  unfold decodeCommand at h
  split at h
  · split at h <;> simp_all
    exact .inl ⟨_, _, _, h.symm⟩
  · split at h
    · split at h <;> simp_all
      exact .inr (.inl ⟨_, h.symm⟩)
    · split at h
      · simp at h; exact .inr (.inr ⟨_, _, _, h.symm⟩)
      · split at h <;> simp at h

/-- Running the current transfer, or ending the loop, is the loop's row whichever way it is fetched. -/
theorem engineStep_transfer {s : State}
    (h : s.ctl.seq = .xferHead ∨ s.ctl.seq = .xferConfWr ∨ s.ctl.seq = .xferPio ∨ s.ctl.seq = .xferDelay) :
    engineStep s = loopStep s := by
  have hr : resume s = loopStep s := by
    rcases h with h | h | h | h <;> simp [resume, resumeExecute, h]
  have hf : fetch s = fetchTransfer s := by
    rcases h with h | h | h | h <;> simp [fetch, h]
  unfold engineStep
  rw [hf]
  unfold fetchTransfer
  cases hc : s.currentTransfer with
  | none => simpa using hr
  | some t =>
    cases hi : t.instr with
    | none => simpa [hi] using hr
    | some i => simp [hi, exec_transfer hi, loopStep, hc]

/-- The rows of the engine: what one step of it can do (R148, R167, R198, R231 by way of the named operations). -/
inductive EngineRow (s : State) : State → Prop
  | wait (h : s.ctl.seq = .idle) (hp : s.port = none) : EngineRow s s
  | illFormed (h : s.ctl.seq = .idle) {c : Command} (hp : s.port = some c) {e : DecodeError}
      (he : decodeCommand c.cmd c.arg = .error e) : EngineRow s (answerIllFormed e s.takeCommand)
  | configure (h : s.ctl.seq = .idle) {c : Command} (hp : s.port = some c) (p : BitVec 8) (cs : BitVec 2)
      (b : BitVec 6) (hd : decodeCommand c.cmd c.arg = .ok (.configure p cs b)) :
      EngineRow s (acceptConfigure p cs b s.takeCommand)
  | release (h : s.ctl.seq = .idle) {c : Command} (hp : s.port = some c) (p : BitVec 8)
      (hd : decodeCommand c.cmd c.arg = .ok (.release p)) : EngineRow s (acceptRelease p s.takeCommand)
  | execute (h : s.ctl.seq = .idle) {c : Command} (hp : s.port = some c) (p n : BitVec 8) (b : Word)
      (hd : decodeCommand c.cmd c.arg = .ok (.execute p n b)) : EngineRow s (acceptExecute p n b s.takeCommand)
  | cfgWr (h : s.ctl.seq = .cfgWr) (hv : s.record.valid = true) : EngineRow s (configureWrite s)
  | cfgRsp (st : Status) (h : s.ctl.seq = .cfgRsp st) : EngineRow s (s.respond st (configureHandle st s))
  | relRsp (st : Status) (h : s.ctl.seq = .relRsp st) : EngineRow s (s.respond st 0#2)
  | fetchDesc (h : s.ctl.seq = .fetchDesc) (hv : s.record.valid = true) : EngineRow s (fetchDescriptorWord s)
  | rejCpl (h : s.ctl.seq = .rejCpl) : EngineRow s (rejectComplete s)
  | rejRsp (h : s.ctl.seq = .rejRsp) : EngineRow s (rejectRespond s)
  | assertWr (h : s.ctl.seq = .assertWr) (hv : s.record.valid = true) : EngineRow s (assertWrite s)
  | assertWait (h : s.ctl.seq = .assertWait) (hv : s.record.valid = true) : EngineRow s (assertWait s)
  | assertLog (h : s.ctl.seq = .assertLog) : EngineRow s (assertLog s)
  | loopEnd (h : s.ctl.seq = .xferHead ∨ s.ctl.seq = .xferConfWr ∨ s.ctl.seq = .xferPio ∨ s.ctl.seq = .xferDelay)
      (hc : s.currentTransfer = none) (hv : s.record.valid = true) :
      EngineRow s (deassertWrite (s.setSeq .deassertWr))
  | skipHead (h : s.ctl.seq = .xferHead ∨ s.ctl.seq = .xferConfWr ∨ s.ctl.seq = .xferPio) {t : Transfer}
      (hc : s.currentTransfer = some t) (hl : t.len = 0#32) :
      EngineRow s (if t.delay = 0#16 then nextTransfer s else transferDelay t (enterDelay s))
  | head (h : s.ctl.seq = .xferHead) {t : Transfer} (hc : s.currentTransfer = some t) (hl : t.len ≠ 0#32)
      (hv : s.record.valid = true) : EngineRow s (transferConfWr t (transferHead t s))
  | confWr (h : s.ctl.seq = .xferConfWr) {t : Transfer} (hc : s.currentTransfer = some t) (hl : t.len ≠ 0#32)
      (hv : s.record.valid = true) : EngineRow s (transferConfWr t s)
  | pio (h : s.ctl.seq = .xferPio) {t : Transfer} (hc : s.currentTransfer = some t) (hl : t.len ≠ 0#32)
      (hv : s.record.valid = true) : EngineRow s (transferPio t s)
  | delay (h : s.ctl.seq = .xferDelay) {t : Transfer} (hc : s.currentTransfer = some t) :
      EngineRow s (transferDelay t s)
  | deassertWr (h : s.ctl.seq = .deassertWr) (hv : s.record.valid = true) : EngineRow s (deassertWrite s)
  | finalCpl (h : s.ctl.seq = .finalCpl) : EngineRow s (finalComplete s)
  | finalRsp (h : s.ctl.seq = .finalRsp) : EngineRow s (finalRespond s)

theorem loopStep_row {s t : State}
    (h : s.ctl.seq = .xferHead ∨ s.ctl.seq = .xferConfWr ∨ s.ctl.seq = .xferPio ∨ s.ctl.seq = .xferDelay)
    (g : loopStep s = .next t) : EngineRow s t := by
  unfold loopStep at g
  cases hc : s.currentTransfer with
  | none =>
    simp only [hc] at g
    obtain ⟨hv, rfl⟩ := State.onRecord_next g
    exact .loopEnd h hc hv
  | some x =>
    simp only [hc, transferStep] at g
    split at g
    · simp only [Host.Outcome.next.injEq] at g
      subst g
      rcases h with h | h | h | h <;> simp only [skipTransferStep, h]
      · exact .skipHead (by simp [h]) hc ‹_›
      · exact .skipHead (by simp [h]) hc ‹_›
      · exact .skipHead (by simp [h]) hc ‹_›
      · exact .delay h hc
    · obtain ⟨hv, rfl⟩ := State.onRecord_next g
      rcases h with h | h | h | h <;> simp only [dataTransferStep, h]
      · exact .head h hc ‹_› hv
      · exact .confWr h hc ‹_› hv
      · exact .pio h hc ‹_› hv
      · exact .delay h hc

/-- A row of the engine that answers a next state is one of `EngineRow`. -/
theorem engineStep_row {s t : State} (g : engineStep s = .next t) : EngineRow s t := by
  cases h : s.ctl.seq with
  | idle =>
    simp only [engineStep, fetch, h, fetchCommand] at g
    cases hp : s.port with
    | none => simp [hp] at g; subst g; exact .wait h hp
    | some c =>
      simp only [hp] at g
      cases hd : decodeCommand c.cmd c.arg with
      | error e => simp [hd] at g; subst g; exact .illFormed h hp hd
      | ok i =>
        have hi : s.takeCommand.ctl.seq = .idle := h
        simp only [hd] at g
        obtain ⟨p, cs, b, rfl⟩ | ⟨p, rfl⟩ | ⟨p, n, b, rfl⟩ := decodeCommand_ok hd
        · simp [exec, execConfigure, hi] at g; subst g; exact .configure h hp p cs b hd
        · simp [exec, execRelease, hi] at g; subst g; exact .release h hp p hd
        · simp [exec, execExecute, hi] at g; subst g; exact .execute h hp p n b hd
  | cfgWr =>
    simp only [engineStep, fetch, h, resume, resumeConfigure] at g
    obtain ⟨hv, rfl⟩ := State.onRecord_next g
    exact .cfgWr h hv
  | cfgRsp st => simp [engineStep, fetch, h, resume, resumeConfigure] at g; subst g; exact .cfgRsp st h
  | relRsp st => simp [engineStep, fetch, h, resume, resumeRelease] at g; subst g; exact .relRsp st h
  | fetchDesc =>
    simp only [engineStep, fetch, h, resume, resumeExecute] at g
    obtain ⟨hv, rfl⟩ := State.onRecord_next g
    exact .fetchDesc h hv
  | rejCpl => simp [engineStep, fetch, h, resume, resumeExecute] at g; subst g; exact .rejCpl h
  | rejRsp => simp [engineStep, fetch, h, resume, resumeExecute] at g; subst g; exact .rejRsp h
  | assertWr =>
    simp only [engineStep, fetch, h, resume, resumeExecute] at g
    obtain ⟨hv, rfl⟩ := State.onRecord_next g
    exact .assertWr h hv
  | assertWait =>
    simp only [engineStep, fetch, h, resume, resumeExecute] at g
    obtain ⟨hv, rfl⟩ := State.onRecord_next g
    exact .assertWait h hv
  | assertLog => simp [engineStep, fetch, h, resume, resumeExecute] at g; subst g; exact .assertLog h
  | xferHead => rw [engineStep_transfer (by simp [h])] at g; exact loopStep_row (by simp [h]) g
  | xferConfWr => rw [engineStep_transfer (by simp [h])] at g; exact loopStep_row (by simp [h]) g
  | xferPio => rw [engineStep_transfer (by simp [h])] at g; exact loopStep_row (by simp [h]) g
  | xferDelay => rw [engineStep_transfer (by simp [h])] at g; exact loopStep_row (by simp [h]) g
  | deassertWr =>
    simp only [engineStep, fetch, h, resume, resumeExecute] at g
    obtain ⟨hv, rfl⟩ := State.onRecord_next g
    exact .deassertWr h hv
  | finalCpl => simp [engineStep, fetch, h, resume, resumeExecute] at g; subst g; exact .finalCpl h
  | finalRsp => simp [engineStep, fetch, h, resume, resumeExecute] at g; subst g; exact .finalRsp h

/-- The inversion of the step: the other agents move, then one row of the engine. -/
theorem step_row {s t : State} (h : step s = .next t) : EngineRow s.arrive t :=
  engineStep_row (step_next_iff.mp h).2.1

end Sys2Proof.Machine
end

