-- ==== Sys2Proof/Laws/Effects.lean ====
section
/-!
SUPPORT. The effect of each row of the engine, said once over `EngineRow`: what an idle row can do (`EngineRow.accept`), what
a row after acceptance leaves alone
(`EngineRow.frame`), where it leads (`EngineRow.nextSeq`) and what it writes to CONF (`EngineRow.conf`).
-/
namespace Sys2Proof.Machine

/-! ## PIO.RUN -/

theorem pioStep_same (t : Transfer) (wl : BitVec 6) (s : State) : s.w.SameMessage (pioStep t wl s).w := by
  unfold pioStep
  split
  · exact ⟨by simp [pioEntry], by simp [pioEntry], by simp [pioEntry], by simp [pioEntry], by simp [pioEntry],
      by simp [pioEntry], by simp [pioEntry], by simp [pioEntry], by simp [pioEntry], by simp [pioEntry]⟩
  · simp only [pioWait]; have h := waitStep_same .txrdy s; split <;> [split; skip] <;> exact h
  · exact ⟨rfl, rfl, rfl, rfl, rfl, rfl, rfl, rfl, rfl, rfl⟩
  · constructor <;> simp [pioTxWr, pioCount]
  · constructor <;> simp [pioRxDummy]
  · simp only [pioWait]; have h := waitStep_same .rxrdy s; split <;> [split; skip] <;> exact h
  · constructor <;> simp [pioRxRd]
  · constructor <;> simp [pioRxMemWr, pioCount]
  · simp only [pioWait]
    have h := waitStep_same .eot s
    split <;> [split; skip]
    · exact h.trans ⟨rfl, rfl, rfl, rfl, rfl, rfl, rfl, rfl, rfl, rfl⟩
    · exact h
    · exact h
  · exact ⟨rfl, rfl, rfl, rfl, rfl, rfl, rfl, rfl, rfl, rfl⟩

@[simp] theorem gotoPio_seq (p : PioState) (s : State) : (gotoPio p s).ctl.seq = s.ctl.seq := by simp [gotoPio_ctl]
@[simp] theorem gotoPio_dly (p : PioState) (s : State) : (gotoPio p s).ctl.dly = s.ctl.dly := by simp [gotoPio_ctl]
@[simp] theorem waitStep_seq (b : StatFlag) (s : State) : (waitStep b s).ctl.seq = s.ctl.seq := by
  obtain ⟨x, h⟩ := waitStep_ctl b s
  simp [h]
@[simp] theorem waitStep_dly (b : StatFlag) (s : State) : (waitStep b s).ctl.dly = s.ctl.dly := by
  obtain ⟨x, h⟩ := waitStep_ctl b s
  simp [h]
@[simp] theorem waitStep_pio (b : StatFlag) (s : State) : (waitStep b s).ctl.pio = s.ctl.pio := by
  obtain ⟨x, h⟩ := waitStep_ctl b s
  simp [h]
@[simp] theorem delayStep_seq (d : BitVec 16) (s : State) : (delayStep d s).ctl.seq = s.ctl.seq := by
  obtain ⟨x, h⟩ := delayStep_ctl d s
  simp [h]

/-- PIO.RUN moves no other component of the control state than PIO and WAIT (R167). -/
@[simp] theorem pioStep_seq (t : Transfer) (wl : BitVec 6) (s : State) : (pioStep t wl s).ctl.seq = s.ctl.seq := by
  unfold pioStep
  split <;> (try simp only [pioWait]) <;> (try (split <;> [split; skip])) <;>
    simp [pioEntry, pioTxMemRd, pioTxWr, pioCount, pioRxDummy, pioRxRd, pioRxMemWr, pioReturn, State.takeExit]

@[simp] theorem pioStep_dly (t : Transfer) (wl : BitVec 6) (s : State) : (pioStep t wl s).ctl.dly = s.ctl.dly := by
  unfold pioStep
  split <;> (try simp only [pioWait]) <;> (try (split <;> [split; skip])) <;>
    simp [pioEntry, pioTxMemRd, pioTxWr, pioCount, pioRxDummy, pioRxRd, pioRxMemWr, pioReturn, State.takeExit]

/-! ## The frame of the rows after acceptance -/

/-- What no row after the fetch of a message changes: the latched operands and message, the window's place, the clock and the port. -/
structure State.SameCommand (s t : State) : Prop where
  slot : t.w.slot = s.w.slot
  msg : t.w.msg = s.w.msg
  n : t.w.n = s.w.n
  descBase : t.w.descBase = s.w.descBase
  windowBase : t.windowBase = s.windowBase
  windowPhys : t.windowPhys = s.windowPhys
  now : t.now = s.now
  port : t.port = s.port
  attached : t.attached = s.attached
  inputs : t.inputs = s.inputs
  drawn : t.drawn = s.drawn

theorem State.SameCommand.refl' (s : State) : s.SameCommand s := by constructor <;> rfl

theorem State.SameCommand.trans {a b c : State} (h : a.SameCommand b) (g : b.SameCommand c) : a.SameCommand c :=
  ⟨g.1.trans h.1, g.2.trans h.2, g.3.trans h.3, g.4.trans h.4, g.5.trans h.5, g.6.trans h.6, g.7.trans h.7,
    g.8.trans h.8, g.9.trans h.9, g.10.trans h.10, g.11.trans h.11⟩

theorem nextTransfer_same (s : State) : s.SameCommand (nextTransfer s) := by
  obtain ⟨_, _, _, _, h, -⟩ := nextTransfer_frame s
  rw [h]; constructor <;> rfl

theorem enterLoop_same (s : State) : s.SameCommand (enterLoop s) := by
  obtain ⟨_, _, _, _, h, -⟩ := selectTransfer_frame (s.setW { s.w with xi := 0#8 })
  unfold enterLoop; rw [h]; constructor <;> rfl

theorem afterTransfer_same (x : Transfer) (s : State) : s.SameCommand (afterTransfer x s) := by
  obtain ⟨_, _, _, _, h, -⟩ := afterTransfer_frame x s
  rw [h]; constructor <;> rfl

theorem waitStep_sameCommand (b : StatFlag) (s : State) : s.SameCommand (waitStep b s) := by
  obtain ⟨_, _, _, _, hw⟩ := waitStep_w b s
  constructor <;> simp [hw]

theorem pioStep_sameCommand (t : Transfer) (wl : BitVec 6) (s : State) : s.SameCommand (pioStep t wl s) :=
  ⟨(pioStep_same t wl s).slot, (pioStep_same t wl s).msg, (pioStep_same t wl s).n, (pioStep_same t wl s).descBase, by simp, by simp, by simp,
    by simp, by simp, by simp, by simp⟩

theorem transferDelay_same (x : Transfer) (s : State) : s.SameCommand (transferDelay x s) := by
  obtain ⟨_, hw⟩ := delayStep_w x.delay s
  have h : s.SameCommand (delayStep x.delay s) := by constructor <;> simp [hw]
  simp only [transferDelay]
  split
  · exact h.trans (nextTransfer_same _)
  · exact h

/-- A row that is a CONF.UPDATE leaves the command alone if what follows the write does. -/
theorem updateThen_same (us : List FieldUpdate) (next : State → State) (s : State)
    (h : ∀ u : State, u.SameCommand (next u)) : s.SameCommand (updateThen us next s) := by
  obtain ⟨v, r, -, e⟩ | ⟨-, -, e⟩ := updateThen_cases us next s
  · rw [e]; exact State.SameCommand.trans (by constructor <;> rfl) (h _)
  · rw [e]; constructor <;> rfl

theorem transferConfWr_same (x : Transfer) (s : State) : s.SameCommand (transferConfWr x s) :=
  updateThen_same _ _ s fun u => by constructor <;> simp [pioEntry]

theorem assertWrite_same (s : State) : s.SameCommand (assertWrite s) :=
  State.SameCommand.trans (b := s.setW { s.w with status := .ok, actual := 0#32 }) (by constructor <;> rfl)
    (updateThen_same assertUpdate (fun t => (t.setSeq .assertWait).setWait .sample) _ fun _ => by constructor <;> rfl)

theorem deassertWrite_same (s : State) : s.SameCommand (deassertWrite s) :=
  updateThen_same deassertUpdate (State.setSeq · .finalCpl) s fun _ => by constructor <;> rfl

theorem assertWait_same (s : State) : s.SameCommand (Machine.assertWait s) := by
  have g := waitStep_sameCommand .eot s
  simp only [Machine.assertWait]
  split <;> [split; skip]
  · exact g.trans (enterLoop_same _)
  · exact g.trans (by constructor <;> rfl)
  · exact g

theorem transferPio_same (x : Transfer) (s : State) : s.SameCommand (transferPio x s) := by
  have g := pioStep_sameCommand x s.w.wl s
  simp only [transferPio, transferAccount]
  split
  · split
    · refine g.trans (State.SameCommand.trans ?_ (afterTransfer_same x _))
      constructor <;> rfl
    · exact g.trans (by constructor <;> rfl)
  · exact g

/-- The frame of every row after acceptance but the fetch, whose frame `fetchDescriptorWord_cases` gives. -/
theorem EngineRow.frame {s t : State} (h : EngineRow s t) (hi : s.ctl.seq ≠ .idle) (hf : s.ctl.seq ≠ .fetchDesc) :
    s.SameCommand t := by
  cases h with
  | wait h => exact absurd h hi
  | illFormed h => exact absurd h hi
  | configure h => exact absurd h hi
  | release h => exact absurd h hi
  | execute h => exact absurd h hi
  | cfgWr h hv => constructor <;> simp [configureWrite]
  | fetchDesc h hv => exact absurd h hf
  | assertWr h hv => exact assertWrite_same s
  | assertWait h hv => exact assertWait_same s
  | loopEnd h hc hv =>
    exact State.SameCommand.trans (b := s.setSeq .deassertWr) (by constructor <;> rfl) (deassertWrite_same _)
  | skipHead h hc hl =>
    split
    · exact nextTransfer_same s
    · exact State.SameCommand.trans (b := enterDelay s) (by constructor <;> rfl) (transferDelay_same _ _)
  | @head h x hc hl hv =>
    exact State.SameCommand.trans (b := transferHead x s) (by constructor <;> rfl) (transferConfWr_same x _)
  | confWr h hc hl hv => exact transferConfWr_same _ s
  | pio h hc hl hv => exact transferPio_same _ s
  | delay h hc => exact transferDelay_same _ s
  | deassertWr h hv => exact deassertWrite_same s
  | _ => constructor <;> rfl

/-! ## The idle rows -/

/-- What an idle row can do: wait, answer by a status, or accept one of the three commands (R102, R221, R228, R180). -/
theorem EngineRow.accept {s t : State} (h : EngineRow s t) (hi : s.ctl.seq = .idle) :
    t = s ∨ s.port ≠ none ∧ (
    (∃ q, (q = .cfgRsp .einval ∨ q = .cfgRsp .enomem ∨ q = .relRsp .einval ∨ q = .rejRsp) ∧ t = s.takeCommand.setSeq q) ∨
    t = s.takeCommand.respond .einval 0#2 ∨
    (∃ p c b k, wordLengthLegal b = true ∧ s.recs.lookup p = some k ∧ t = { s.takeCommand with
      recs := s.recs.set k { s.recs.get k with cs := c, wordLen := b }
      w := { s.w with slot := k }, ctl := { s.ctl with seq := .cfgWr } }) ∨
    (∃ p c b k, wordLengthLegal b = true ∧ s.recs.lookup p = none ∧ s.recs.free = some k ∧
      t = { s.takeCommand with
        recs := s.recs.set k { s.recs.get k with
          valid := true, peer := p, base := s.windowBase, phys := s.windowPhys, cs := c, wordLen := b
          cacheValid := false, shadowValid := false }
        w := { s.w with slot := k }, ctl := { s.ctl with seq := .cfgWr } }) ∨
    (∃ p k, s.recs.lookup p = some k ∧ t = { s.takeCommand with
      recs := s.recs.set k { s.recs.get k with valid := false }, ctl := { s.ctl with seq := .relRsp .ok } }) ∨
    (∃ p n base k, base.toNat % 4 = 0 ∧ s.recs.lookup p = some k ∧ n = 0#8 ∧ t = { s.takeCommand with
      w := { s.w with slot := k, n := n, descBase := base, words := [], msg := [] }
      ctl := { s.ctl with seq := .rejRsp } }) ∨
    (∃ p n base k, base.toNat % 4 = 0 ∧ s.recs.lookup p = some k ∧ n ≠ 0#8 ∧ t = { s.takeCommand with
      w := { s.w with slot := k, n := n, descBase := base, words := [] }
      ctl := { s.ctl with seq := .fetchDesc } })) := by
  cases h with
  | wait h hp => exact .inl rfl
  | @illFormed h c hp e he =>
    refine .inr ⟨by simp [hp], ?_⟩
    obtain ⟨q, hq, h⟩ | h := answerIllFormed_cases e s.takeCommand
    · exact .inl ⟨q, by grind, h⟩
    · exact .inr (.inl h)
  | configure h hp p c b hd =>
    refine .inr ⟨by simp [hp], ?_⟩
    obtain ⟨st, hst, h⟩ | ⟨k, h⟩ | ⟨k, h⟩ := acceptConfigure_cases p c b s.takeCommand
    · exact .inl ⟨_, by grind, h⟩
    · exact .inr (.inr (.inl ⟨p, c, b, k, h⟩))
    · exact .inr (.inr (.inr (.inl ⟨p, c, b, k, h⟩)))
  | release h hp p hd =>
    refine .inr ⟨by simp [hp], ?_⟩
    obtain ⟨k, h⟩ | ⟨h0, h⟩ := acceptRelease_cases p s.takeCommand
    · exact .inr (.inr (.inr (.inr (.inl ⟨p, k, h⟩))))
    · exact .inl ⟨_, by grind, h⟩
  | execute h hp p n b hd =>
    refine .inr ⟨by simp [hp], ?_⟩
    obtain ⟨_, h⟩ | ⟨k, h⟩ | ⟨k, h⟩ := acceptExecute_cases p n b s.takeCommand
    · exact .inl ⟨_, by grind, h⟩
    · exact .inr (.inr (.inr (.inr (.inr (.inl ⟨p, n, b, k, h⟩)))))
    · exact .inr (.inr (.inr (.inr (.inr (.inr ⟨p, n, b, k, h⟩)))))
  | _ => simp_all

/-! ## Where a row leads -/

/-- The control states a row after acceptance can lead to (R198, R231). -/
def SeqState.nexts : SeqState → List SeqState
  | .idle => []
  | .cfgWr => [.cfgRsp .ok]
  | .cfgRsp _ | .relRsp _ | .rejRsp | .finalRsp => [.idle]
  | .fetchDesc => [.fetchDesc, .assertWr, .rejRsp]
  | .rejCpl => [.rejRsp]
  | .assertWr => [.assertWr, .assertWait]
  | .assertWait => [.assertWait, .assertLog, .deassertWr, .xferDelay, .xferConfWr]
  | .assertLog => [.deassertWr]
  | .xferHead | .xferConfWr => [.xferConfWr, .xferPio, .xferDelay, .deassertWr, .finalCpl]
  | .xferPio => [.xferPio, .xferConfWr, .xferDelay, .deassertWr, .finalCpl]
  | .xferDelay => [.xferDelay, .xferConfWr, .deassertWr, .finalCpl]
  | .deassertWr => [.deassertWr, .finalCpl]
  | .finalCpl => [.finalRsp]

theorem nextTransfer_seq (s : State) : (nextTransfer s).ctl.seq ∈ [.deassertWr, .xferDelay, SeqState.xferConfWr] := by
  obtain ⟨_, _, q, d, h, hq⟩ := nextTransfer_frame s
  rw [h]; rcases hq with ⟨rfl, -⟩ | ⟨rfl, -⟩ | ⟨rfl, -⟩ <;> simp

theorem enterLoop_seq (s : State) : (enterLoop s).ctl.seq ∈ [.deassertWr, .xferDelay, SeqState.xferConfWr] := by
  obtain ⟨_, _, q, d, h, hq⟩ := selectTransfer_frame (s.setW { s.w with xi := 0#8 })
  unfold enterLoop
  rw [h]; rcases hq with ⟨rfl, -⟩ | ⟨rfl, -⟩ | ⟨rfl, -⟩ <;> simp

theorem afterTransfer_seq (x : Transfer) (s : State) :
    (afterTransfer x s).ctl.seq ∈ [.deassertWr, .xferDelay, SeqState.xferConfWr] := by
  obtain ⟨_, _, q, d, h, hq⟩ := afterTransfer_frame x s
  rw [h]; rcases hq with ⟨rfl, -⟩ | ⟨rfl, -⟩ | ⟨rfl, -⟩ <;> simp

theorem transferDelay_seq (x : Transfer) {s : State} (h : s.ctl.seq = .xferDelay) :
    (transferDelay x s).ctl.seq ∈ [.deassertWr, .xferDelay, SeqState.xferConfWr] := by
  simp only [transferDelay]
  split
  · exact nextTransfer_seq _
  · simp [h]

/-- The control state after a row that is a CONF.UPDATE: where the write leads, or where it was. -/
theorem updateThen_seq (us : List FieldUpdate) (next : State → State) (s : State) (q : SeqState)
    (h : ∀ u, (next u).ctl.seq = q) : (updateThen us next s).ctl.seq = q ∨ (updateThen us next s).ctl.seq = s.ctl.seq := by
  obtain ⟨v, r, -, e⟩ | ⟨-, -, e⟩ := updateThen_cases us next s
  · exact .inl (by rw [e]; exact h _)
  · exact .inr (by rw [e]; rfl)

theorem transferConfWr_seq (x : Transfer) (s : State) :
    (transferConfWr x s).ctl.seq = .xferPio ∨ (transferConfWr x s).ctl.seq = s.ctl.seq :=
  updateThen_seq _ _ s .xferPio fun u => by simp [pioEntry]

theorem EngineRow.nextSeq {s t : State} (h : EngineRow s t) (hi : s.ctl.seq ≠ .idle) :
    t.ctl.seq ∈ s.ctl.seq.nexts := by
  cases h with
  | wait h => exact absurd h hi
  | illFormed h => exact absurd h hi
  | configure h => exact absurd h hi
  | release h => exact absurd h hi
  | execute h => exact absurd h hi
  | cfgWr h hv => simp [h, SeqState.nexts, configureWrite]
  | cfgRsp st h => simp [h, SeqState.nexts, State.respond]
  | relRsp st h => simp [h, SeqState.nexts, State.respond]
  | fetchDesc h hv =>
    obtain ⟨-, e⟩ | ⟨-, e⟩ := fetchDescriptorWord_cases s <;> rw [e]
    · simp [h, SeqState.nexts]
    · dsimp only; split <;> simp [h, SeqState.nexts]
  | rejCpl h => simp [h, SeqState.nexts, rejectComplete]
  | rejRsp h => simp [h, SeqState.nexts, rejectRespond, State.respond]
  | assertWr h hv =>
    rcases updateThen_seq assertUpdate (fun t => (t.setSeq .assertWait).setWait .sample)
      (s.setW { s.w with status := .ok, actual := 0#32 }) .assertWait (fun _ => rfl) with e | e <;>
      simp [assertWrite, e, h, SeqState.nexts]
  | assertWait h hv =>
    simp only [Machine.assertWait]
    split <;> [split; skip]
    · have := enterLoop_seq (waitStep .eot s)
      simp only [h, SeqState.nexts]
      grind
    · simp [h, SeqState.nexts, State.takeExit]
    · simp [h, SeqState.nexts]
  | assertLog h => simp [h, SeqState.nexts, Machine.assertLog]
  | loopEnd h hc hv =>
    rcases updateThen_seq deassertUpdate (State.setSeq · .finalCpl) (s.setSeq .deassertWr) .finalCpl (fun _ => rfl)
      with e | e <;> rcases h with h | h | h | h <;> simp [deassertWrite, e, h, SeqState.nexts]
  | @skipHead h x hc hl =>
    have g : (if x.delay = 0#16 then nextTransfer s else transferDelay x (enterDelay s)).ctl.seq ∈
        [.deassertWr, .xferDelay, SeqState.xferConfWr] := by
      split
      · exact nextTransfer_seq s
      · exact transferDelay_seq x rfl
    rcases h with h | h | h <;> simp only [h, SeqState.nexts] <;> grind
  | @head h x hc hl hv =>
    rcases transferConfWr_seq x (transferHead x s) with e | e <;> rw [e] <;> simp [h, SeqState.nexts, transferHead]
  | @confWr h x hc hl hv => rcases transferConfWr_seq x s with e | e <;> simp [e, h, SeqState.nexts]
  | @pio h x hc hl hv =>
    simp only [transferPio, transferAccount]
    split
    · split
      · have := afterTransfer_seq x ((pioStep x s.w.wl s).setW
          { (pioStep x s.w.wl s).w with actual := (pioStep x s.w.wl s).w.actual + (pioStep x s.w.wl s).w.nRet })
        simp only [h, SeqState.nexts]
        grind
      · simp [h, SeqState.nexts, State.takeExit]
    · simp [h, SeqState.nexts]
  | @delay h x hc =>
    have := transferDelay_seq x h
    simp only [h, SeqState.nexts]
    grind
  | deassertWr h hv =>
    rcases updateThen_seq deassertUpdate (State.setSeq · .finalCpl) s .finalCpl (fun _ => rfl) with e | e <;>
      simp [deassertWrite, e, h, SeqState.nexts]
  | finalCpl h => simp [h, SeqState.nexts, finalComplete]
  | finalRsp h => simp [h, SeqState.nexts, finalRespond, State.respond]

/-! ## What a row writes to CONF -/

/-- The effect of a write of CONF through the running record (R122, R126). -/
structure ConfWritten (s t : State) (v : Word) : Prop where
  recs : t.recs = s.recs.set s.w.slot
    { s.record with cache := v, cacheValid := true, shadow := v, shadowValid := true }
  hwConf : t.hwConf = v
  hwConfValid : t.hwConfValid = true

/-- The value of CONF that a row writes, if it writes one (R184, R190, R195, R223). -/
def confRow (s : State) : Option Word :=
  match s.ctl.seq with
  | .cfgWr => some (confInit s.record.wordLen s.record.cs)
  | .assertWr => confValue assertUpdate s
  | .xferHead =>
    match s.currentTransfer with
    | none => confValue deassertUpdate s
    | some x =>
      if x.len = 0#32 then none
      else confValue (transferUpdate x.txp (effectiveWordLength x.bpw s.record.wordLen) s.record.cs) s
  | .xferConfWr =>
    match s.currentTransfer with
    | none => confValue deassertUpdate s
    | some x => if x.len = 0#32 then none else confValue (transferUpdate x.txp s.w.wl s.record.cs) s
  | .xferPio | .xferDelay => if s.currentTransfer = none then confValue deassertUpdate s else none
  | .deassertWr => confValue deassertUpdate s
  | .idle | .cfgRsp _ | .relRsp _ | .fetchDesc | .rejCpl | .rejRsp | .assertWait | .assertLog | .finalCpl
  | .finalRsp => none

/-- The records and the ghost HW_CONF are as before. -/
def ConfKept (s t : State) : Prop := t.recs = s.recs ∧ t.hwConf = s.hwConf ∧ t.hwConfValid = s.hwConfValid

/-- The records and the ghost HW_CONF after a row: as before, or as a write of CONF leaves them. -/
def ConfBy (s t : State) : Option Word → Prop
  | some v => ConfWritten s t v
  | none => ConfKept s t

/-- The records and the ghost HW_CONF after a row: as before, or as the row's write of CONF leaves them. -/
def ConfEffect (s t : State) : Prop := ConfBy s t (confRow s)

theorem nextTransfer_conf (s : State) : ConfKept s (nextTransfer s) := by
  obtain ⟨_, _, _, _, h, -⟩ := nextTransfer_frame s
  rw [h]; exact ⟨rfl, rfl, rfl⟩

theorem afterTransfer_conf (x : Transfer) (s : State) : ConfKept s (afterTransfer x s) := by
  obtain ⟨_, _, _, _, h, -⟩ := afterTransfer_frame x s
  rw [h]; exact ⟨rfl, rfl, rfl⟩

theorem ConfKept.trans {a b c : State} (h : ConfKept a b) (g : ConfKept b c) : ConfKept a c :=
  ⟨g.1.trans h.1, g.2.1.trans h.2.1, g.2.2.trans h.2.2⟩

theorem transferDelay_conf (x : Transfer) (s : State) : ConfKept s (transferDelay x s) := by
  have h : ConfKept s (delayStep x.delay s) := ⟨by simp, by simp, by simp⟩
  simp only [transferDelay]
  split
  · exact h.trans (nextTransfer_conf _)
  · exact h

/-- A row that is a CONF.UPDATE writes what the update writes, if what follows the write keeps CONF. -/
theorem updateThen_conf (us : List FieldUpdate) (next : State → State) (s : State) (h : ∀ u, ConfKept u (next u)) :
    ConfBy s (updateThen us next s) (confValue us s) := by
  obtain ⟨v, r, hv, e⟩ | ⟨hv, -, e⟩ := updateThen_cases us next s
  · rw [hv, e]
    have g := h (confWrote v r s)
    exact ⟨g.1, g.2.1, g.2.2⟩
  · rw [hv, e]; exact ⟨rfl, rfl, rfl⟩

theorem transferConfWr_conf (x : Transfer) (s : State) :
    ConfBy s (transferConfWr x s) (confValue (transferUpdate x.txp s.w.wl s.record.cs) s) :=
  updateThen_conf _ _ s fun u => ⟨by simp, by simp, by simp⟩

/-- The effect on CONF does not see what else was changed before it. -/
theorem ConfBy.of {s s' t : State} {o : Option Word} (h : ConfBy s' t o) (hr : s'.recs = s.recs)
    (hk : s'.w.slot = s.w.slot) (hc : s'.hwConf = s.hwConf) (hv : s'.hwConfValid = s.hwConfValid) : ConfBy s t o := by
  have hrec : s'.record = s.record := by simp [State.record, hr, hk]
  cases o with
  | none => exact ⟨h.1.trans hr, h.2.1.trans hc, h.2.2.trans hv⟩
  | some v => exact ⟨by rw [h.recs, hr, hk, hrec], h.hwConf, h.hwConfValid⟩

theorem assertWrite_conf (s : State) : ConfBy s (assertWrite s) (confValue assertUpdate s) :=
  (updateThen_conf assertUpdate (fun t => (t.setSeq .assertWait).setWait .sample)
    (s.setW { s.w with status := .ok, actual := 0#32 }) fun _ => ⟨rfl, rfl, rfl⟩).of rfl rfl rfl rfl

theorem deassertWrite_conf (s : State) : ConfBy s (deassertWrite s) (confValue deassertUpdate s) :=
  updateThen_conf deassertUpdate (State.setSeq · .finalCpl) s fun _ => ⟨rfl, rfl, rfl⟩

theorem EngineRow.conf {s t : State} (h : EngineRow s t) (hi : s.ctl.seq ≠ .idle) : ConfEffect s t := by
  unfold ConfEffect confRow
  cases h with
  | wait h => exact absurd h hi
  | illFormed h => exact absurd h hi
  | configure h => exact absurd h hi
  | release h => exact absurd h hi
  | execute h => exact absurd h hi
  | cfgWr h hv => simp only [h]; constructor <;> simp [configureWrite, State.record]
  | fetchDesc h hv =>
    simp only [h]
    obtain ⟨-, e⟩ | ⟨-, e⟩ := fetchDescriptorWord_cases s <;> rw [e] <;> exact ⟨rfl, rfl, rfl⟩
  | assertWr h hv =>
    simp only [h]
    exact assertWrite_conf s
  | assertWait h hv =>
    simp only [h, Machine.assertWait]
    split <;> [split; skip]
    · obtain ⟨_, _, _, _, e, -⟩ := selectTransfer_frame ((waitStep .eot s).setW { (waitStep .eot s).w with xi := 0#8 })
      exact ConfKept.trans (b := waitStep .eot s) ⟨by simp, by simp, by simp⟩
        (by unfold enterLoop; rw [e]; exact ⟨rfl, rfl, rfl⟩)
    · exact ⟨by simp, by simp, by simp⟩
    · exact ⟨by simp, by simp, by simp⟩
  | loopEnd h hc hv =>
    have g := (deassertWrite_conf (s.setSeq .deassertWr)).of (s := s) rfl rfl rfl rfl
    rcases h with h | h | h | h <;> simp only [h, hc, if_true] <;> exact g
  | @skipHead h x hc hl =>
    have g : ConfKept s (if x.delay = 0#16 then nextTransfer s else transferDelay x (enterDelay s)) := by
      split
      · exact nextTransfer_conf s
      · exact transferDelay_conf x (enterDelay s)
    rcases h with h | h | h <;> simp only [h, hc, hl, if_true, reduceCtorEq, if_false] <;> exact g
  | @head h x hc hl hv =>
    simp only [h, hc, hl, if_false]
    exact (transferConfWr_conf x (transferHead x s)).of rfl rfl rfl rfl
  | @confWr h x hc hl hv => simp only [h, hc, hl, if_false]; exact transferConfWr_conf x s
  | @pio h x hc hl hv =>
    have g : ConfKept s (pioStep x s.w.wl s) := ⟨by simp, by simp, by simp⟩
    simp only [h, hc, reduceCtorEq, if_false, transferPio, transferAccount]
    split
    · split
      · exact g.trans (afterTransfer_conf x _)
      · exact g.trans ⟨rfl, rfl, rfl⟩
    · exact g
  | @delay h x hc => simp only [h, hc, reduceCtorEq, if_false]; exact transferDelay_conf x s
  | deassertWr h hv =>
    simp only [h]
    exact deassertWrite_conf s
  | cfgRsp st h => simp only [h]; exact ⟨rfl, rfl, rfl⟩
  | relRsp st h => simp only [h]; exact ⟨rfl, rfl, rfl⟩
  | rejCpl h => simp only [h]; exact ⟨rfl, rfl, rfl⟩
  | rejRsp h => simp only [h]; exact ⟨rfl, rfl, rfl⟩
  | assertLog h => simp only [h]; exact ⟨rfl, rfl, rfl⟩
  | finalCpl h => simp only [h]; exact ⟨rfl, rfl, rfl⟩
  | finalRsp h => simp only [h]; exact ⟨rfl, rfl, rfl⟩

end Sys2Proof.Machine
end

