-- ==== Sys2Proof/Laws/Memory.lean ====
section
/-!
SUPPORT. Buffer memory: reading after writing, and that every operation keeps the canonical form.
-/
namespace Sys2Proof.Machine

theorem Mem.read_nil (a : Nat) : Mem.read [] a = Mem.unlisted := rfl

/-- An address below every listed one is not listed. -/
theorem Mem.read_of_lt_all {m : Mem} {a : Nat} (h : ∀ c ∈ m, a < c.1) : Mem.read m a = Mem.unlisted := by
  induction m with
  | nil => rfl
  | cons c t ih =>
    obtain ⟨k, b⟩ := c
    have hk : a < k := h (k, b) (by simp)
    simp only [Mem.read]
    rw [if_neg (by omega)]
    exact ih fun c hc => h c (by simp [hc])

/-- Every address listed after a write was listed before, or is the one written. -/
theorem Mem.mem_write {m : Mem} {a : Nat} {b : Byte} {c : Host.Cell} (h : c ∈ Mem.write m a b) :
    c ∈ m ∨ (c = (a, b) ∧ b ≠ Mem.unlisted) := by
  induction m with
  | nil => simp only [Mem.write] at h; split at h <;> simp_all
  | cons d t ih =>
    obtain ⟨k, x⟩ := d
    simp only [Mem.write] at h
    split at h
    · split at h <;> simp_all
      tauto
    · split at h
      · split at h <;> simp_all
        tauto
      · rcases List.mem_cons.1 h with rfl | h
        · simp
        · rcases ih h with h | h <;> simp_all

/-- A write keeps the canonical form. -/
theorem Mem.write_wf {m : Mem} {a : Nat} {b : Byte} (h : Mem.wf m) (ha : a < 2 ^ 32) : Mem.wf (Mem.write m a b) := by
  refine ⟨?_, fun c hc => ?_⟩
  · obtain ⟨hp, -⟩ := h
    induction m with
    | nil => simp only [Mem.write]; split <;> simp
    | cons d t ih =>
      obtain ⟨k, x⟩ := d
      have ⟨hk, ht⟩ := List.pairwise_cons.1 hp
      simp only [Mem.write]
      split
      · split
        · exact hp
        · refine List.pairwise_cons.2 ⟨fun c hc => ?_, hp⟩
          rcases List.mem_cons.1 hc with rfl | hc
          · assumption
          · have := hk c hc; simp only at this ⊢; omega
      · split
        · split
          · exact ht
          · next heq _ => subst heq; exact List.pairwise_cons.2 ⟨hk, ht⟩
        · refine List.pairwise_cons.2 ⟨fun c hc => ?_, ih ht⟩
          rcases Mem.mem_write hc with hc | ⟨rfl, -⟩
          · exact hk c hc
          · simp only; omega
  · rcases Mem.mem_write hc with hc | ⟨rfl, hb⟩
    · exact h.2 c hc
    · exact ⟨hb, ha⟩

/-- Reading after writing one byte, in a canonical memory. -/
theorem Mem.read_write {m : Mem} (h : Mem.wf m) (a x : Nat) (b : Byte) :
    Mem.read (Mem.write m a b) x = if x = a then b else Mem.read m x := by
  obtain ⟨hp, -⟩ := h
  induction m with
  | nil =>
    simp only [Mem.write]
    split
    · next hb => subst hb; simp [Mem.read]
    · simp [Mem.read, eq_comm]
  | cons d t ih =>
    obtain ⟨k, c⟩ := d
    have ⟨hk, ht⟩ := List.pairwise_cons.1 hp
    have hlow : a < k → Mem.read ((k, c) :: t) a = Mem.unlisted := fun hak =>
      Mem.read_of_lt_all fun e he => by
        rcases List.mem_cons.1 he with rfl | he
        · exact hak
        · have := hk e he; simp only at this; omega
    simp only [Mem.write]
    split
    · next hak =>
      split
      · next hb => subst hb; split
                   · next hx => subst hx; exact hlow hak
                   · rfl
      · simp only [Mem.read, eq_comm (a := a)]
    · split
      · next hak =>
        subst hak
        split
        · next hb =>
          subst hb
          split
          · next hx => subst hx; exact Mem.read_of_lt_all fun e he => hk e he
          · next hx => simp only [Mem.read]; rw [if_neg fun h => hx h.symm]
        · simp only [Mem.read, eq_comm (a := a)]
          split <;> rfl
      · next hlt hne =>
        simp only [Mem.read]
        split
        · next hx => subst hx; rw [if_neg (by omega)]
        · exact ih ht

/-- A multi-byte write keeps the canonical form. -/
theorem Mem.writeLE_wf {m : Mem} (h : Mem.wf m) (a v : Word) (n : Nat) : Mem.wf (Mem.writeLE m a v n) := by
  induction n generalizing m a v with
  | zero => exact h
  | succ n ih => exact ih (Mem.write_wf h a.isLt) _ _

/-- A byte that a multi-byte write does not reach reads as before. -/
theorem Mem.read_writeLE_outside {m : Mem} (h : Mem.wf m) (a v : Word) (n x : Nat)
    (hx : ∀ k < n, x ≠ (a + BitVec.ofNat 32 k).toNat) : Mem.read (Mem.writeLE m a v n) x = Mem.read m x := by
  induction n generalizing m a v with
  | zero => rfl
  | succ n ih =>
    simp only [Mem.writeLE]
    rw [ih (Mem.write_wf h a.isLt), Mem.read_write h, if_neg (by simpa using hx 0 (by omega))]
    intro k hk
    have := hx (k + 1) (by omega)
    rwa [BitVec.add_assoc, show (1#32 + BitVec.ofNat 32 k) = BitVec.ofNat 32 (k + 1) by
      rw [BitVec.ofNat_add, BitVec.add_comm]]

end Sys2Proof.Machine
end

