-- ==== Sys2Proof/Laws/PerInstr.lean ====
section
/-!
SUPPORT. A statement per instruction, about the instruction as syntax: the first word the encoder gives it is one of its
row of the opcode table (30_encoding.md R93 to R100), and an instruction without a row has no words (R106).
-/
namespace Sys2Proof.Laws

/-- The row of spec/opcode_table.json that an instruction's first word must match. -/
def RowMatch.rowOf : Instr → Option Row
  | .configure _ _ _ => some Row.configure
  | .release _ => some Row.release
  | .execute _ _ _ => some Row.execute
  | .xferTx _ _ _ => some Row.xferTx
  | .xferRx _ _ => some Row.xferRx
  | .xferSkip _ _ _ => some Row.xferSkip
  | .regRead _ => none
  | .regWrite _ _ => none
  | .confUpdate _ => none
  | .waitBit _ => none
  | .pioRun _ _ => none
  | .delay _ => none
  | .yield => none

/-- The encoder's first word is one of the instruction's row; with no row there are no words. -/
def RowMatch.Statement (i : Instr) : Prop :=
  match RowMatch.rowOf i with
  | some r => ∃ w ws, encode i = w :: ws ∧ r.hits w = true
  | none => encode i = []

/-- The reserved bits and the kind bits of an encoded CTRL word. -/
theorem RowMatch.ctrl_and (txp rxp : Bool) (a : XferArgs) (m : Word) (hm : m &&& 0xFFFF3F00#32 = 0#32) :
    encodeCtrl txp rxp a &&& m =
      ((BitVec.ofBool rxp ++ BitVec.ofBool txp : BitVec 2).zeroExtend 32) &&& m := by
  apply BitVec.eq_of_getLsbD_eq
  intro i hi
  have h := congrArg (fun x => x.getLsbD i) hm
  simp only [BitVec.getLsbD_and, BitVec.getLsbD_zero] at h
  simp only [BitVec.getLsbD_and]
  by_cases hmi : m.getLsbD i = true
  · rw [hmi] at h ⊢
    simp only [Bool.true_and, Bool.and_true] at h ⊢
    simp only [encodeCtrl, BitVec.getLsbD_append, BitVec.getLsbD_setWidth, BitVec.getLsbD_ofNat]
    interval_cases i <;> simp_all
  · simp [hmi]

theorem RowMatch.configure (peer : BitVec 8) (cs : BitVec 2) (bpw : BitVec 6) :
    RowMatch.Statement (.configure peer cs bpw) := by
  refine ⟨_, _, rfl, ?_⟩
  simp only [Row.hits, Row.configure, encodeConfigure, beq_iff_eq]
  apply BitVec.eq_of_getLsbD_eq
  intro i hi
  simp only [BitVec.getLsbD_and, BitVec.getLsbD_append]
  interval_cases i <;> simp

theorem RowMatch.release (peer : BitVec 8) : RowMatch.Statement (.release peer) := by
  refine ⟨_, _, rfl, ?_⟩
  simp only [Row.hits, Row.release, encodeRelease, beq_iff_eq]
  apply BitVec.eq_of_getLsbD_eq
  intro i hi
  simp only [BitVec.getLsbD_and, BitVec.getLsbD_append]
  interval_cases i <;> simp

theorem RowMatch.execute (peer nxfer : BitVec 8) (base : Word) : RowMatch.Statement (.execute peer nxfer base) := by
  refine ⟨_, _, rfl, ?_⟩
  simp only [Row.hits, Row.execute, encodeExecute, beq_iff_eq]
  apply BitVec.eq_of_getLsbD_eq
  intro i hi
  simp only [BitVec.getLsbD_and, BitVec.getLsbD_append]
  interval_cases i <;> simp

theorem RowMatch.xferTx (rxp : Bool) (len : Word) (a : XferArgs) : RowMatch.Statement (.xferTx rxp len a) := by
  refine ⟨_, _, rfl, ?_⟩
  simp only [Row.hits, Row.xferTx, beq_iff_eq]
  rw [RowMatch.ctrl_and _ _ _ _ (by decide)]
  cases rxp <;> decide

theorem RowMatch.xferRx (len : Word) (a : XferArgs) : RowMatch.Statement (.xferRx len a) := by
  refine ⟨_, _, rfl, ?_⟩
  simp only [Row.hits, Row.xferRx, beq_iff_eq]
  rw [RowMatch.ctrl_and _ _ _ _ (by decide)]
  decide

theorem RowMatch.xferSkip (txp rxp : Bool) (a : XferArgs) : RowMatch.Statement (.xferSkip txp rxp a) := by
  refine ⟨_, _, rfl, ?_⟩
  simp only [Row.hits, Row.xferSkip, beq_iff_eq]
  rw [RowMatch.ctrl_and _ _ _ _ (by decide)]
  cases txp <;> cases rxp <;> decide

theorem RowMatch.regRead (r : RegId) : RowMatch.Statement (.regRead r) := rfl
theorem RowMatch.regWrite (r : RegId) (v : Word) : RowMatch.Statement (.regWrite r v) := rfl
theorem RowMatch.confUpdate (us : List FieldUpdate) : RowMatch.Statement (.confUpdate us) := rfl
theorem RowMatch.waitBit (b : StatFlag) : RowMatch.Statement (.waitBit b) := rfl
theorem RowMatch.pioRun (t : Transfer) (wl : BitVec 6) : RowMatch.Statement (.pioRun t wl) := rfl
theorem RowMatch.delay (d : BitVec 16) : RowMatch.Statement (.delay d) := rfl
theorem RowMatch.yield : RowMatch.Statement .yield := rfl

end Sys2Proof.Laws
end

