-- ==== Sys2Proof/Tests/Slice0.lean ====
section
/-!
SUPPORT. The model's own tests: words written out from 30_encoding.md, refusals of the well-formedness checks, one-step
vectors of 95_test_vectors.md (each test names its vector), and, for every obligation with hypotheses, a concrete state
and operands that meet them (`witness_<obligation>`).
-/
namespace Sys2Proof.Tests
open Sys2Proof.Machine

/-! ## Helpers -/

/-- The next state, if there is one. -/
def next? : Result → Option State
  | .next s => some s
  | .fault _ => none
  | .refused _ => none

/-- One field of the next state, if there is one. -/
def after {α : Type} (r : Result) (f : State → α) : Option α := (next? r).map f

/-- What decodes, if it does. -/
def ok? (r : Except DecodeError Instr) : Option Instr := r.toOption

/-- Why it does not decode, if it does not. -/
def err? : Except DecodeError Instr → Option DecodeError
  | .ok _ => none
  | .error e => some e

/-- A configured record (S1 of 95_test_vectors.md: word length 8, chip select 0, cache 0x70), for a peer, with a cache. -/
def rec (peer : BitVec 8) (cache : Word) : Rec :=
  ⟨true, peer, 0x40000000#32, 0x40000000#32, 0#2, 8#6, true, cache, true, cache⟩

/-- What ENV shows: a STAT and an RXD value. -/
def window (stat rxd : Word) : Window := ⟨0#32, stat, 0#32, 0#32, rxd⟩

/-- One tape entry: time, and ENV with a STAT value; the host does nothing. -/
def input (ticks : Nat) (stat : Word) : Input := ⟨ticks, window stat 0#32, none, none, []⟩

/-- S1, with ENV showing `stat` and a tape of one entry. -/
def s1 (stat : Word) : State :=
  { State.reset with
    recs := ⟨rec 0#8 0x70#32, Rec.reset, Rec.reset, Rec.reset⟩
    hwConf := 0x70#32, hwConfValid := true
    attached := true, windowBase := 0x40000000#32, windowPhys := 0x40000000#32
    win := window stat 0#32, inputs := [input 1 stat] }

/-- S1 with the table full: peers 0 to 3. -/
def full : State :=
  { s1 7#32 with recs := ⟨rec 0#8 0x70#32, rec 1#8 0x70#32, rec 2#8 0x70#32, rec 3#8 0x70#32⟩ }

/-- The transfer `{len:4, tx:@0x2000}`. -/
def tx4 : Transfer := ⟨4#32, true, 0x2000#32, false, 0#32, 0#6, 0#32, 0#16⟩

/-- The transfer `{len:4, rx:@0x3000, delay:100}`. -/
def rx4 : Transfer := ⟨4#32, false, 0#32, true, 0x3000#32, 0#6, 0#32, 100#16⟩

/-- The transfer `{len:0, delay:50}`. -/
def skip50 : Transfer := ⟨0#32, false, 0#32, false, 0#32, 0#6, 0#32, 50#16⟩

/-- A message of one transfer in progress on slot 0, SPIEN set, at the given control state. -/
def running (c : Ctl) (t : Transfer) (stat : Word) : State :=
  { s1 stat with
    ctl := c
    recs := ⟨rec 0#8 0x80000070#32, Rec.reset, Rec.reset, Rec.reset⟩
    hwConf := 0x80000070#32
    w := { Work.reset with
      msg := [t], n := 1#8, wl := 8#6, unit := 1#3, count := t.len, c := 1#32, u := 0xA5#32, v := 0x80000070#32 }
    mem := [(0x2000, 1#8), (0x2001, 2#8), (0x2002, 3#8), (0x2003, 4#8)]
    now := 2000000 }

/-- A control state in a PIO row. -/
def inPio (p : PioState) (x : WaitState) : Ctl := ⟨.xferPio, p, x, .none, .none⟩

/-- MEM of P1: the descriptor of `{len:4, tx:@0x2000}` at 0x1000 and its buffer. -/
def memP1 : Mem :=
  [(0x1000, 1#8), (0x1004, 4#8), (0x1009, 0x20#8), (0x2000, 1#8), (0x2001, 2#8), (0x2002, 3#8), (0x2003, 4#8)]

/-! ## Decoding (30_encoding.md R93 to R100; 95_test_vectors.md section 3.6) -/

/-- R93, bit by bit: reserved 0, BPW 001000, reserved 00, CS 01, PEER 00000101, OPC 0001. -/
theorem test_decode_configure :
    ok? (decodeWords [0b00000000000010000001000001010001#32, 0#32]) = some (.configure 5#8 1#2 8#6) := by decide

/-- R94, bit by bit: reserved 0, PEER 00000101, OPC 0010. -/
theorem test_decode_release :
    ok? (decodeWords [0b00000000000000000000000001010010#32, 0#32]) = some (.release 5#8) := by decide

/-- R95, bit by bit: reserved 0, NXFER 11111111, reserved 0000, PEER 00000000, OPC 0011. -/
theorem test_decode_execute :
    ok? (decodeWords [0b00000000111111110000000000000011#32, 0x1000#32]) = some (.execute 0#8 255#8 0x1000#32) := by
  decide

/-- R99, R100, bit by bit: DELAY all ones, reserved 00, BPW 100000, reserved 000000, RXP 0, TXP 1; LEN 4. -/
theorem test_decode_xferTx :
    ok? (decodeWords [0b11111111111111110010000000000001#32, 4#32, 0x2000#32, 0#32, 0#32]) =
      some (.xferTx false 4#32 ⟨0x2000#32, 0#32, 0#32, 32#6, 65535#16⟩) := by decide

/-- R99, R100, bit by bit: DELAY 100, reserved 00, BPW 010000, reserved 000000, RXP 1, TXP 0; LEN 4. -/
theorem test_decode_xferRx :
    ok? (decodeWords [0b00000000011001000001000000000010#32, 4#32, 0#32, 0x3000#32, 0#32]) =
      some (.xferRx 4#32 ⟨0#32, 0x3000#32, 0#32, 16#6, 100#16⟩) := by decide

/-- R100: with LEN 0 any CTRL whose reserved bits are 0 is XFER.SKIP. -/
theorem test_decode_xferSkip :
    ok? (decodeWords [0b00000000001100100000000000000000#32, 0#32, 0#32, 0#32, 0#32]) =
      some (.xferSkip false false ⟨0#32, 0#32, 0#32, 0#6, 50#16⟩) := by decide

/-- 95_test_vectors.md section 3.6: descriptor bytes of `{len:4, tx:@0x2000}`. -/
theorem test_decode_bytes :
    ok? (decodeBytes [1#8, 0#8, 0#8, 0#8, 4#8, 0#8, 0#8, 0#8, 0#8, 0x20#8, 0#8, 0#8, 0#8, 0#8, 0#8, 0#8, 0#8, 0#8,
      0#8, 0#8]) = some (.xferTx false 4#32 ⟨0x2000#32, 0#32, 0#32, 0#6, 0#16⟩) := by decide

/-- 95_test_vectors.md section 3.6: the ill-formed command words, and ARG ≠ 0 (S8). -/
theorem test_decode_illformed_commands :
    [0x00000000#32, 0x00000004#32, 0x0000000F#32].map (fun c => err? (decodeCommand c 0#32)) =
      List.replicate 3 (some .reservedOpcode) ∧
    [0x01010003#32, 0x00011003#32, 0x00001002#32, 0x00400001#32].map (fun c => err? (decodeCommand c 0#32)) =
      [some (.reservedBits .execute), some (.reservedBits .execute), some (.reservedBits .release),
        some (.reservedBits .configure)] ∧
    err? (decodeCommand 0x00080001#32 4#32) = some (.reservedArg .configure) ∧
    err? (decodeCommand 0x00000002#32 4#32) = some (.reservedArg .release) := by decide

/-- 95_test_vectors.md section 3.6: the ill-formed CTRL words with a reserved bit, the descriptor of no kind, and
neither 2 nor 5 words. -/
theorem test_decode_illformed_descriptors :
    err? (decodeWords [0x00000004#32, 4#32, 0#32, 0#32, 0#32]) = some .reservedCtrl ∧
    err? (decodeWords [0x00004001#32, 4#32, 0#32, 0#32, 0#32]) = some .reservedCtrl ∧
    err? (decodeWords [0x00000000#32, 4#32, 0#32, 0#32, 0#32]) = some .noBuffers ∧
    err? (decodeWords [0x00000001#32, 4#32, 0#32]) = some .wrongLength := by decide

/-- 95_test_vectors.md section 3.6: command and CTRL words of the encoder. -/
theorem test_encode :
    encode (.configure 3#8 0#2 12#6) = [0x000C0031#32, 0#32] ∧
    encode (.execute 0#8 2#8 0x1000#32) = [0x00020003#32, 0x1000#32] ∧
    (encode (.xferTx true 4#32 ⟨0#32, 0#32, 0#32, 0#6, 0#16⟩)).head? = some 0x00000003#32 ∧
    (encode (.xferTx false 4#32 ⟨0#32, 0#32, 0#32, 16#6, 0#16⟩)).head? = some 0x00001001#32 := by decide

/-- The rows of the opcode table through the host's numbering (logs 1, 21). -/
theorem test_decodeTableWord :
    decodeTableWord 32 0x00000001 = some (.configure 0#8 0#2 0#6) ∧
    decodeTableWord 32 0x00000002 = some (.release 0#8) ∧
    decodeTableWord 32 0x00000003 = some (.execute 0#8 0#8 0#32) ∧
    decodeTableWord 32 0x00000000 = some (.xferSkip false false ⟨0#32, 0#32, 0#32, 0#6, 0#16⟩) ∧
    decodeTableWord 160 (1 + 4 * 2 ^ 32) = some (.xferTx false 4#32 ⟨0#32, 0#32, 0#32, 0#6, 0#16⟩) ∧
    decodeTableWord 160 (2 + 4 * 2 ^ 32) = some (.xferRx 4#32 ⟨0#32, 0#32, 0#32, 0#6, 0#16⟩) := by decide

/-! ## Well-formedness: each check refuses an ill-formed term (R102, R103, R12, R141, R157, R193) -/

theorem test_wf_configure : (Instr.configure 0#8 0#2 3#6).wf = false ∧ (Instr.configure 0#8 0#2 33#6).wf = false ∧
    (Instr.configure 0#8 0#2 4#6).wf = true ∧ (Instr.configure 0#8 0#2 32#6).wf = true := by decide
theorem test_wf_execute : (Instr.execute 0#8 1#8 0x1002#32).wf = false ∧
    (Instr.execute 0#8 1#8 0x1000#32).wf = true := by decide
theorem test_wf_xferTx : (Instr.xferTx false 0#32 ⟨0#32, 0#32, 0#32, 0#6, 0#16⟩).wf = false ∧
    (Instr.xferTx false 4#32 ⟨0#32, 0#32, 0#32, 3#6, 0#16⟩).wf = false ∧
    (Instr.xferTx false 3#32 ⟨0#32, 0#32, 0#32, 16#6, 0#16⟩).wf = false := by decide
theorem test_wf_xferRx : (Instr.xferRx 0#32 ⟨0#32, 0#32, 0#32, 0#6, 0#16⟩).wf = false ∧
    (Instr.xferRx 2#32 ⟨0#32, 0#32, 0#32, 32#6, 0#16⟩).wf = false := by decide
theorem test_wf_xferSkip : (Instr.xferSkip false false ⟨0#32, 0#32, 0#32, 33#6, 0#16⟩).wf = false := by decide
theorem test_wf_confUpdate : (Instr.confUpdate [⟨.spien, 2#32⟩]).wf = false ∧
    (Instr.confUpdate [⟨.wl, 31#32⟩, ⟨.trm, 2#32⟩]).wf = true := by decide
theorem test_wf_waitBit : (Instr.waitBit .txfifo).wf = false ∧ (Instr.waitBit .rxfifo).wf = false ∧
    (Instr.waitBit .eot).wf = true := by decide
theorem test_wf_pioRun : (Instr.pioRun ⟨0#32, true, 0#32, false, 0#32, 0#6, 0#32, 0#16⟩ 8#6).wf = false ∧
    (Instr.pioRun tx4 33#6).wf = false ∧ (Instr.pioRun ⟨3#32, true, 0#32, false, 0#32, 0#6, 0#32, 0#16⟩ 9#6).wf = false ∧
    (Instr.pioRun tx4 9#6).wf = true := by decide
theorem test_wf_delay : (Instr.delay 0#16).wf = false ∧ (Instr.delay 65535#16).wf = true := by decide

/-! ## Fields of CONF, words of responses (R125, R107, R223) -/

/-- 95_test_vectors.md section 3.1, field laws. -/
theorem test_field_laws :
    getField .wl 0x80002070#32 = 7#32 ∧ getField .trm 0x80002070#32 = 2#32 ∧ getField .csidx 0x0000C1F0#32 = 3#32 ∧
    setField .wl 0x80002070#32 15#32 = 0x800020F0#32 ∧ setField .trm 0xFFFFFFFF#32 1#32 = 0xFFFFDFFF#32 ∧
    setField .csidx 0x70#32 5#32 = 0x4070#32 ∧ ConfField.mask .wcnt = 0x3FFF0000#32 := by decide

/-- R27, R125: the STAT flags of 0xFFFFFFE2 are TXRDY alone (G3); setting EOT changes bit 2 alone. -/
theorem test_flag_laws :
    getFlag .txrdy 0xFFFFFFE2#32 = 1#32 ∧ getFlag .rxrdy 0xFFFFFFE2#32 = 0#32 ∧ getFlag .rxfifo 0xFFFFFFE2#32 = 0#32 ∧
    setFlag .eot 0xFFFFFFE2#32 1#32 = 0xFFFFFFE6#32 ∧ setFlag .txrdy 0xFFFFFFE2#32 2#32 = 0xFFFFFFE0#32 := by decide

/-- 95_test_vectors.md section 3.5, CONF_INIT values. -/
theorem test_confInit :
    confInit 8#6 0#2 = 0x70#32 ∧ confInit 8#6 1#2 = 0x4070#32 ∧ confInit 16#6 2#2 = 0x80F0#32 ∧
    confInit 32#6 3#2 = 0xC1F0#32 ∧ confInit 4#6 0#2 = 0x30#32 ∧ confInit 12#6 0#2 = 0xB0#32 := by decide

/-- 95_test_vectors.md section 3.6, response words. -/
theorem test_response_words :
    rspWord .ok 1#2 = 0x100#32 ∧ rspWord .ok 3#2 = 0x300#32 ∧ rspWord .einval 0#2 = 1#32 ∧
    rspWord .enomem 0#2 = 4#32 ∧ cplWords .eio 2#32 = (3#32, 2#32) := by decide

/-- 95_test_vectors.md section 3.4, validation by speed. -/
theorem test_validation_speeds :
    ([0, 1464, 48000000, 1463, 48000001, 50000000, 4294967295, 1].map fun v =>
      validate [⟨1#32, true, 0x2000#32, false, 0#32, 0#6, BitVec.ofNat 32 v, 0#16⟩]) =
      [true, true, true, false, false, false, false, false] ∧
    validate [] = false ∧ validate [⟨4#32, false, 0#32, false, 0#32, 0#6, 0#32, 0#16⟩] = false := by decide

/-! ## Register Interface (95_test_vectors.md section 3.1) -/

/-- G1: a cached CONF is read with no event. -/
theorem test_regRead_conf_cached :
    after (exec (.regRead .conf) (s1 7#32)) (fun t => (t.ret, t.trace)) = some (0x70#32, []) := by decide

/-- G3: STAT comes from the bus. -/
theorem test_regRead_stat :
    after (exec (.regRead .stat) (s1 0xFFFFFFE2#32)) (fun t => (t.ret, t.trace)) =
      some (0xFFFFFFE2#32, [.busRd 0x40000008#32 0x08#32 0xFFFFFFE2#32]) := by decide

/-- G4: a write of CONF writes through. -/
theorem test_regWrite_conf :
    after (exec (.regWrite .conf 0x80000070#32) (s1 7#32)) (fun t =>
      (t.recs.r0.cache, t.recs.r0.shadow, t.hwConf, t.trace)) =
      some (0x80000070#32, 0x80000070#32, 0x80000070#32, [.busWr 0x40000000#32 0#32 0x80000070#32]) := by decide

/-- G6: a write of TXD leaves the cache alone. -/
theorem test_regWrite_txd :
    after (exec (.regWrite .txd 0xA5#32) (s1 7#32)) (fun t => (t.recs.r0.cache, t.trace)) =
      some (0x70#32, [.busWr 0x40000018#32 0x18#32 0xA5#32]) := by decide

/-- G7: CONF.UPDATE with the cache set is one write. -/
theorem test_confUpdate_cached :
    after (exec (.confUpdate [⟨.spien, 1#32⟩]) (s1 7#32)) (fun t => (t.recs.r0.cache, t.trace)) =
      some (0x80000070#32, [.busWr 0x40000000#32 0#32 0x80000070#32]) := by decide

/-- G8's record: fresh, cache UNSET, ENV showing 0xC1F3. -/
def unset : State :=
  { s1 7#32 with
    recs := ⟨{ rec 0#8 0#32 with cacheValid := false, shadowValid := false }, Rec.reset, Rec.reset, Rec.reset⟩
    win := ⟨0xC1F3#32, 0#32, 0#32, 0#32, 0#32⟩ }

/-- G8: with the cache UNSET it reads CONF first, and then writes: two events, two steps. -/
theorem test_confUpdate_unset :
    after (exec (.confUpdate [⟨.spien, 1#32⟩]) unset) (fun t => (t.recs.r0.cacheValid, t.w.v, t.ctl.upd, t.trace)) =
      some (false, 0x8000C1F3#32, .write, [.busRd 0x40000000#32 0#32 0xC1F3#32]) ∧
    after (exec (.confUpdate [⟨.spien, 1#32⟩])
      { unset with w := { unset.w with v := 0x8000C1F3#32 }, ctl := { unset.ctl with upd := .write } })
      (fun t => (t.recs.r0.cache, t.ctl.upd, t.trace)) =
      some (0x8000C1F3#32, .none, [.busWr 0x40000000#32 0#32 0x8000C1F3#32]) := by decide

/-! ## Status Wait, DELAY, YIELD (95_test_vectors.md section 3.2, Q4) -/

/-- W6: the bit is tested before the deadline. -/
theorem test_waitBit_bit_first :
    after (exec (.waitBit .eot) (running ⟨.assertWait, .none, .poll, .none, .none⟩ tx4 4#32)) (fun t => (t.w.wres, t.ctl.wait)) =
      some (.ok, .none) := by decide

/-- W7: only the bit is tested; the final read decides. -/
theorem test_waitBit_timeout :
    after (exec (.waitBit .rxrdy) (running ⟨.assertWait, .none, .final, .none, .none⟩ tx4 0xFFFFFFFE#32))
      (fun t => (t.w.wres, t.ctl.wait)) = some (.timeout, .none) := by decide

/-- R145. -/
theorem test_yield : after (exec .yield (s1 7#32)) (fun t => (t.trace, t.ctl)) = some ([.yield], Ctl.reset) := by decide

/-- Q4: DelayDone not before 50 ticks, and at 50. -/
theorem test_delay :
    after (exec (.delay 50#16) { s1 7#32 with ctl := ⟨.xferDelay, .none, .none, .wait, .none⟩, now := 49 })
      (fun t => t.trace) = some [] ∧
    after (exec (.delay 50#16) { s1 7#32 with ctl := ⟨.xferDelay, .none, .none, .wait, .none⟩, now := 50 })
      (fun t => (t.trace, t.ctl.dly)) = some ([.delayDone 50#16], .none) := by decide

/-! ## PIO Transfer Loop (95_test_vectors.md section 3.3) -/

/-- X6: an odd source address, two bytes, one event. -/
theorem test_pioRun_txMemRd :
    after (exec (.pioRun ⟨2#32, true, 0x2001#32, false, 0#32, 0#6, 0#32, 0#16⟩ 16#6)
      { running (inPio .txMemRd .none) tx4 7#32 with
        w := { Work.reset with unit := 2#3, count := 1#32 }, mem := [(0x2001, 0xCD#8), (0x2002, 0xAB#8)] })
      (fun t => (t.w.u, t.trace)) = some (0xABCD#32, [.memRd 0x2001#32 2 0xABCD#32]) := by decide

/-- X10: the destination wraps at the top of memory. -/
theorem test_pioRun_rxMemWr_wraps :
    after (exec (.pioRun ⟨2#32, false, 0#32, true, 0xFFFFFFFF#32, 0#6, 0#32, 0#16⟩ 16#6)
      { running (inPio .rxMemWr .none) rx4 7#32 with
        w := { Work.reset with unit := 2#3, count := 1#32, u := 0xBEEF#32 }, mem := [] })
      (fun t => (t.mem, t.w.c, t.ctl.pio)) = some ([(0, 0xBE#8), (0xFFFFFFFF, 0xEF#8)], 1#32, .eotWait) := by decide

/-! ## The transfer kinds (Q6, P4, Q3) -/

/-- P1: the per-transfer write 0x80002070; PIO.RUN is entered on the transmit path. -/
theorem test_xferTx_confWr :
    after (exec (.xferTx false 4#32 ⟨0x2000#32, 0#32, 0#32, 0#6, 0#16⟩)
      (running ⟨.xferConfWr, .none, .none, .none, .none⟩ tx4 7#32)) (fun t => (t.hwConf, t.ctl)) =
      some (0x80002070#32, inPio .txWait .sample) := by decide

/-- Q8: a short transfer sets ST_EIO and goes to the De-assert. -/
theorem test_xferTx_short :
    after (exec (.xferTx false 4#32 ⟨0x2000#32, 0#32, 0#32, 0#6, 0#16⟩)
      (running (inPio .eotWait .poll) tx4 4#32)) (fun t => (t.w.status, t.w.actual, t.ctl.seq)) =
      some (.eio, 1#32, .deassertWr) := by decide

/-- P4: the per-transfer write 0x800010F0 of a 16-bit override, receive; the receive path is entered. -/
theorem test_xferRx_confWr :
    after (exec (.xferRx 4#32 ⟨0#32, 0x3000#32, 0#32, 16#6, 100#16⟩)
      (let s := running ⟨.xferConfWr, .none, .none, .none, .none⟩ rx4 7#32
       { s with w := { s.w with wl := 16#6 } })) (fun t => (t.hwConf, t.ctl, t.w.count)) =
      some (0x800010F0#32, inPio .rxDummy .none, 2#32) := by decide

/-- X13 in a message: the trailing timeout is only logged and the transfer, not short, goes on to its delay. -/
theorem test_xferRx_trailing_timeout :
    after (exec (.xferRx 1#32 ⟨0#32, 0x3000#32, 0#32, 0#6, 100#16⟩) (running (inPio .eotLog .none) rx4 0#32))
      (fun t => (t.w.status, t.w.actual, t.ctl, t.trace)) =
      some (.ok, 1#32, ⟨.xferDelay, .none, .none, .sample, .none⟩, [.log .postEotTimeout]) := by decide

/-- Q3, Q4: a transfer of length 0 makes no event, and the loop goes on to the De-assert; with a delay it samples. -/
theorem test_xferSkip :
    after (exec (.xferSkip true true ⟨0#32, 0#32, 0#32, 0#6, 0#16⟩)
      (running ⟨.xferHead, .none, .none, .none, .none⟩ tx4 7#32)) (fun t => (t.w.xi, t.ctl.seq, t.trace)) =
      some (1#8, .deassertWr, []) ∧
    after (exec (.xferSkip false false ⟨0#32, 0#32, 0#32, 0#6, 50#16⟩)
      (running ⟨.xferHead, .none, .none, .none, .none⟩ tx4 7#32)) (fun t => (t.ctl, t.trace)) =
      some (⟨.xferDelay, .none, .none, .wait, .none⟩, [.sample]) := by decide

/-- P4 and Q3, R44 b: the step that ends the Assert wait selects the first transfer, past those that take no event. -/
theorem test_execute_selects :
    after (exec (.execute 0#8 0#8 0#32) (running ⟨.assertWait, .none, .poll, .none, .none⟩ skip50 7#32))
      (fun t => (t.w.xi, t.ctl)) = some (0#8, ⟨.xferDelay, .none, .none, .sample, .none⟩) ∧
    (let s := running ⟨.assertWait, .none, .poll, .none, .none⟩ tx4 7#32
     after (exec (.execute 0#8 0#8 0#32) { s with w := { s.w with msg := [{ skip50 with delay := 0#16 }, rx4], n := 2#8 } })
      (fun t => (t.w.xi, t.w.wl, t.ctl.seq)) = some (1#8, 8#6, .xferConfWr)) := by decide

/-! ## The commands (95_test_vectors.md sections 3.4 and 3.5) -/

/-- S3: a second peer takes slot 1. -/
theorem test_configure_new :
    after (exec (.configure 1#8 2#2 16#6) (s1 7#32)) (fun t =>
      (t.w.slot, t.recs.r1, t.ctl.seq)) =
      some (.s1, ⟨true, 1#8, 0x40000000#32, 0x40000000#32, 2#2, 16#6, false, 0#32, false, 0#32⟩, .cfgWr) := by decide

/-- S6, S7: a full table; an existing record is reused although it is full. -/
theorem test_configure_full :
    after (exec (.configure 4#8 0#2 8#6) full) (fun t => (t.ctl.seq, t.recs)) =
      some (.cfgRsp .enomem, full.recs) ∧
    after (exec (.configure 2#8 1#2 8#6) full) (fun t => (t.ctl.seq, t.w.slot, t.recs.r2.cs)) =
      some (.cfgWr, .s2, 1#2) := by decide

/-- S9, S10. -/
theorem test_release :
    after (exec (.release 0#8) (s1 7#32)) (fun t => (t.recs.r0.valid, t.hwConf, t.ctl.seq, t.trace)) =
      some (false, 0x70#32, .relRsp .ok, []) ∧
    after (exec (.release 9#8) (s1 7#32)) (fun t => (t.ctl.seq, t.recs)) =
      some (.relRsp .einval, (s1 7#32).recs) := by decide

/-- P1: S1 with MEM of P1, about to read the last word of its one descriptor. -/
def fetching : State :=
  { s1 7#32 with
    mem := memP1, ctl := { Ctl.reset with seq := .fetchDesc }
    w := { Work.reset with n := 1#8, descBase := 0x1000#32, words := [1#32, 4#32, 0x2000#32, 0#32] } }

/-- P1: acceptance latches the operands; the last of the five MemRd events latches the transfer. -/
theorem test_execute_accepts :
    after (exec (.execute 0#8 1#8 0x1000#32) { s1 7#32 with mem := memP1 }) (fun t =>
      (t.w.slot, t.w.n, t.w.descBase, t.ctl.seq, t.trace)) = some (.s0, 1#8, 0x1000#32, .fetchDesc, []) ∧
    after (exec (.execute 0#8 1#8 0x1000#32) fetching) (fun t => (t.w.msg, t.ctl.seq, t.trace)) =
      some ([tx4], .assertWr, [.memRd 0x1010#32 4 0#32]) := by decide

/-- Q1, Q11, Q10: an empty list, a misaligned base, an unknown peer; and SC, a speed of 50 000 000 in the last word. -/
theorem test_execute_rejects :
    after (exec (.execute 0#8 0#8 0x1000#32) (s1 7#32)) (fun t => (t.ctl.seq, t.trace)) = some (.rejRsp, []) ∧
    after (exec (.execute 0#8 1#8 0x1002#32) (s1 7#32)) (fun t => (t.ctl.seq, t.trace)) = some (.rejRsp, []) ∧
    after (exec (.execute 9#8 1#8 0x1000#32) (s1 7#32)) (fun t => (t.ctl.seq, t.trace)) = some (.rejRsp, []) ∧
    after (exec (.execute 0#8 1#8 0x1000#32)
      { fetching with mem := [(0x1010, 0x80#8), (0x1011, 0xF0#8), (0x1012, 0xFA#8), (0x1013, 2#8)] })
      (fun t => (t.ctl.seq, t.trace)) = some (.rejRsp, [.memRd 0x1010#32 4 50000000#32]) := by decide

/-- R183: the completion of a rejected message, where COMPLETE_ON_REJECT asks for one, and then the response. -/
theorem test_reject_responses :
    after (exec (.execute 0#8 1#8 0#32) (running ⟨.rejCpl, .none, .none, .none, .none⟩ tx4 7#32))
      (fun t => (t.ctl.seq, t.trace)) = some (.rejRsp, [.cpl .einval 0#32]) ∧
    after (exec (.execute 0#8 1#8 0#32) (running ⟨.rejRsp, .none, .none, .none, .none⟩ tx4 7#32))
      (fun t => (t.ctl.seq, t.w.outcome, t.trace)) = some (.idle, .failed, [.rsp .einval 0#2]) := by decide

/-! ## The step -/

/-- The host attaches, presents S1v and the engine accepts it, in one step from reset. -/
theorem test_step_from_reset :
    after (step { State.reset with inputs :=
        [⟨1, window 7#32 0#32, some (0x40000000#32, 0x40000000#32), some (0x00080001#32, 0#32), []⟩] })
      (fun t => (t.ctl.seq, t.recs.r0.valid, t.recs.r0.base, t.port, t.now)) =
      some (.cfgWr, true, 0x40000000#32, none, 1) := by decide

/-- withFetchWord places a table row's word where the next step runs it (logs 1, 21). -/
theorem test_withFetchWord :
    ((State.reset.withFetchWord 32 0x00000001).port = some ⟨0x00000001#32, 0#32⟩ ∧
      (State.reset.withFetchWord 32 0x00000001).ctl = Ctl.reset ∧
      (State.reset.withFetchWord 160 (1 + 4 * 2 ^ 32)).currentTransfer =
        some ⟨4#32, true, 0#32, false, 0#32, 0#6, 0#32, 0#16⟩) := by decide

/-- Host stores land in memory, in the canonical form (R52, log 19). -/
theorem test_host_stores :
    hostStores [(0x10#32, 7#8), (0x08#32, 9#8), (0x10#32, 0#8)] [] = [(8, 9#8)] := by decide

/-! ## Witnesses: concrete states and operands that meet the hypotheses of the obligations -/

/-- Every instruction has operands that are well-formed; those with an encoding at the ends of their ranges. -/
theorem witness_DecodeOfEncodedInstructionIsTheInstruction :
    ∀ i ∈ [Instr.configure 255#8 3#2 4#6, .configure 0#8 0#2 32#6, .release 255#8, .execute 255#8 255#8 0xFFFFFFFC#32,
      .xferTx true 0xFFFFFFFC#32 ⟨1#32, 2#32, 3#32, 32#6, 65535#16⟩, .xferRx 1#32 ⟨0#32, 0#32, 0#32, 4#6, 0#16⟩,
      .xferSkip true true ⟨0#32, 0#32, 0#32, 0#6, 65535#16⟩], i.wf = true ∧ i.encodable = true := by decide

theorem witness_EncodeOfDecodedWordsIsThoseWords :
    ok? (decodeWords [0x00081051#32, 0#32]) = some (.configure 5#8 1#2 8#6) ∧
    ok? (decodeWords [0x00000003#32, 4#32, 0x2000#32, 0#32, 0#32]) =
      some (.xferTx true 4#32 ⟨0x2000#32, 0#32, 0#32, 0#6, 0#16⟩) := by decide

/-- A word of each command row, and words of none: with a reserved bit, and with a reserved OPC at both ends. -/
theorem witness_CommandDecoderTakesExactlyTheTableRows :
    0x003F3FF1#32 &&& 0xFFC0C00F#32 = 1#32 ∧ 0x00000FF2#32 &&& 0xFFFFF00F#32 = 2#32 ∧
    0x00FF0FF3#32 &&& 0xFF00F00F#32 = 3#32 ∧ (ok? (decodeCommand 0x00004001#32 0#32)).isNone = true ∧
    (0#32).toNat % 16 = 0 ∧ (4#32).toNat % 16 = 4 ∧ (15#32).toNat % 16 = 15 := by decide

theorem witness_DescriptorKindFollowsLengthAndBuffers :
    skip50.len = 0#32 ∧ (tx4.len ≠ 0#32 ∧ tx4.txp = true) ∧ (rx4.len ≠ 0#32 ∧ rx4.txp = false ∧ rx4.rxp = true) ∧
    (∃ t : Transfer, t.len ≠ 0#32 ∧ t.txp = false ∧ t.rxp = false) :=
  ⟨by decide, by decide, by decide, ⟨4#32, false, 0#32, false, 0#32, 0#6, 0#32, 0#16⟩, by decide⟩

/-- An idle engine with each ill-formed class at its port; operands out of range at both ends. -/
theorem witness_IllFormedCommandIsAnsweredInvalid :
    (s1 7#32).ctl.seq = .idle ∧
    ({ s1 7#32 with port := some ⟨4#32, 0#32⟩ } : State).port = some ⟨4#32, 0#32⟩ ∧
    [(4#32, 0#32), (0x4001#32, 0#32), (2#32, 1#32), (0x01010003#32, 0#32)].map (fun c => err? (decodeCommand c.1 c.2)) =
      [some .reservedOpcode, some (.reservedBits .configure), some (.reservedArg .release),
        some (.reservedBits .execute)] ∧
    ¬(4 ≤ (3#6).toNat ∧ (3#6).toNat ≤ 32) ∧ ¬(4 ≤ (33#6).toNat ∧ (33#6).toNat ≤ 32) ∧
    (0x1001#32).toNat % 4 ≠ 0 ∧ (0x1003#32).toNat % 4 ≠ 0 := by decide

/-- A presented command; a transfer of each kind at each of its rows. -/
theorem witness_StepRunsTheDecodedInstruction :
    (let s : State := { s1 7#32 with port := some ⟨0x00081051#32, 0#32⟩ }
     s.attached = true ∧ s.windowBase.toNat % 8 = 0 ∧ s.ctl.seq = .idle ∧ s.port = some ⟨0x00081051#32, 0#32⟩ ∧
     ok? (decodeCommand 0x00081051#32 0#32) = some (.configure 5#8 1#2 8#6)) ∧
    (∀ q ∈ [SeqState.xferHead, .xferConfWr, .xferPio, .xferDelay], ∀ t ∈ [tx4, rx4, skip50],
      let s := running ⟨q, .none, .none, .none, .none⟩ t 7#32
      s.attached = true ∧ s.windowBase.toNat % 8 = 0 ∧ s.ctl.seq = q ∧ s.currentTransfer = some t ∧
      t.instr.isSome = true) := by decide

theorem witness_StepContinuesTheCommandInProgress :
    ∀ q ∈ [SeqState.cfgWr, .cfgRsp .enomem, .relRsp .ok, .fetchDesc, .rejCpl, .rejRsp, .assertWr, .assertWait,
      .assertLog, .xferHead, .xferConfWr, .xferPio, .xferDelay, .deassertWr, .finalCpl, .finalRsp],
      let s := running ⟨q, .none, .none, .none, .none⟩ tx4 7#32
      s.attached = true ∧ s.windowBase.toNat % 8 = 0 ∧ s.ctl.seq = q := by decide

theorem witness_OtherAgentsLeaveTheEngineAlone :
    ({ s1 7#32 with port := some ⟨1#32, 0#32⟩ } : State).port = some ⟨1#32, 0#32⟩ ∧ (s1 7#32).attached = true ∧
    (s1 7#32).nextInput.stores = [] ∧ (s1 7#32).mem = [] :=
  ⟨rfl, rfl, rfl, rfl⟩

/-- Host stores beside the byte at 0x11, in a canonical memory. -/
theorem witness_OtherAgentsLeaveTheEngineAlone_stores :
    let s : State := { s1 7#32 with inputs := [⟨1, window 7#32 0#32, none, none, [(0x10#32, 7#8), (0x12#32, 9#8)]⟩] }
    Mem.wf s.mem ∧ ∀ x ∈ s.nextInput.stores, x.1.toNat ≠ 0x11 := by
  refine ⟨⟨List.Pairwise.nil, fun c h => by cases h⟩, fun x h => ?_⟩
  rcases List.mem_cons.mp h with rfl | h
  · decide
  · rcases List.mem_cons.mp h with rfl | h
    · decide
    · cases h

theorem witness_StepRefusesAViolatedLaunchAndWaitsWhenIdle :
    (let s : State := { s1 7#32 with windowBase := 0x40000004#32 }
     s.attached = true ∧ s.windowBase.toNat % 8 ≠ 0) ∧
    (let s : State := { State.reset with port := some ⟨1#32, 0#32⟩, inputs := [input 1 7#32] }
     s.arrive.attached = false ∧ s.ctl.seq = .idle ∧ s.port ≠ none) ∧
    ((s1 7#32).ctl.seq = .idle ∧ (s1 7#32).arrive.port = none ∧ (s1 7#32).cohOk = true ∧
      ((s1 7#32).arrive.attached = true → (s1 7#32).arrive.windowBase.toNat % 8 = 0)) := by decide

theorem witness_FieldUpdateChangesExactlyItsField :
    (0 < 32 ∧ 31 < 32) ∧ (ConfField.lo .spien ≤ 31 ∧ 31 < ConfField.lo .spien + ConfField.width .spien) ∧
    ¬(ConfField.lo .wl ≤ 3 ∧ 3 < ConfField.lo .wl + ConfField.width .wl) := by decide

theorem witness_FieldAccessorsObeyTheirLaws : ConfField.wl ≠ ConfField.trm ∧ StatFlag.eot ≠ .rxfifo := by decide

/-- The state of the invariants' witnesses: a message at its first TXRDY poll. -/
def midMessage : State := running (inPio .txWait .poll) tx4 7#32

theorem midMessage_steps : ∃ t, step midMessage = .next t ∧ t.ctl = inPio .txMemRd .none := ⟨_, rfl, rfl⟩

theorem midMessage_wf : midMessage.ctl.wf ∧ Mem.wf midMessage.mem := by decide

theorem midMessage_peersDistinct : midMessage.PeersDistinct := by
  intro j k; cases j <;> cases k <;> decide

theorem midMessage_recordsReady : midMessage.RecordsReady :=
  ⟨by decide, by decide, by intro k; cases k <;> decide⟩

theorem midMessage_spien : midMessage.SpienDisciplined :=
  ⟨by intro k; cases k <;> decide, by decide⟩

theorem midMessage_globallyCoherent : midMessage.RunGloballyCoherent := by
  intro _; decide

theorem midMessage_wordLengths : midMessage.WordLengthsLegal := by
  intro k; cases k <;> decide

theorem midMessage_checked : midMessage.MessageChecked := by
  refine ⟨fun h => absurd h (by decide), fun _ => ?_⟩
  refine ⟨by decide, by decide, fun _ => ⟨tx4, by decide⟩, fun h => ?_⟩
  exact absurd h (by decide)

theorem midMessage_confs : midMessage.ConfsClean :=
  ⟨by intro k; cases k <;> decide, by decide⟩

theorem midMessage_counted : midMessage.PioCounted := by
  intro _ t ht
  have h : t = tx4 := by
    have : midMessage.currentTransfer = some tx4 := by decide
    rw [this] at ht
    exact (Option.some.inj ht).symm
  subst h
  decide

theorem midMessage_bases : midMessage.BasesCopied :=
  ⟨by intro k; cases k <;> decide, by intro h; exact absurd h (by decide)⟩

theorem midMessage_final : midMessage.FinalAfterDeadline := by
  intro h; exact absurd h (by decide)

theorem midMessage_status : midMessage.StatusReportable :=
  ⟨fun _ => .inl (by decide), by decide, by decide⟩

theorem witness_StepKeepsTheControlTupleWellFormed :
    ∃ s t, s.MessageChecked ∧ s.ctl.wf ∧ step s = .next t :=
  let ⟨t, h, _⟩ := midMessage_steps
  ⟨midMessage, t, midMessage_checked, midMessage_wf.1, h⟩

theorem witness_NoTwoRecordsAliasOnePeer : ∃ s t, s.PeersDistinct ∧ step s = .next t :=
  let ⟨t, h, _⟩ := midMessage_steps
  ⟨midMessage, t, midMessage_peersDistinct, h⟩

theorem witness_StepKeepsBasesCopied : ∃ s t, s.BasesCopied ∧ step s = .next t :=
  let ⟨t, h, _⟩ := midMessage_steps
  ⟨midMessage, t, midMessage_bases, h⟩

theorem witness_StepKeepsMemoryCanonical : ∃ s t, Mem.wf s.mem ∧ step s = .next t :=
  let ⟨t, h, _⟩ := midMessage_steps
  ⟨midMessage, t, midMessage_wf.2, h⟩

theorem witness_RunningMessageStaysGloballyCoherent :
    (∃ t, exec (.regWrite .conf 0x80000070#32) midMessage = .next t) ∧
    ∃ s t, s.RunGloballyCoherent ∧ step s = .next t :=
  let ⟨t, h, _⟩ := midMessage_steps
  ⟨⟨_, rfl⟩, midMessage, t, midMessage_globallyCoherent, h⟩

theorem witness_StepKeepsRecordsReady : ∃ s t, s.RecordsReady ∧ step s = .next t :=
  let ⟨t, h, _⟩ := midMessage_steps
  ⟨midMessage, t, midMessage_recordsReady, h⟩

theorem witness_NoStepFaults : ∃ s : State, s.RecordsReady ∧ s.cohOk = true :=
  ⟨midMessage, midMessage_recordsReady, by decide⟩

theorem witness_StepKeepsPioCounted : ∃ s t, s.PioCounted ∧ step s = .next t :=
  let ⟨t, h, _⟩ := midMessage_steps
  ⟨midMessage, t, midMessage_counted, h⟩

theorem witness_StepKeepsTheMessageChecked : ∃ s t, s.MessageChecked ∧ step s = .next t :=
  let ⟨t, h, _⟩ := midMessage_steps
  ⟨midMessage, t, midMessage_checked, h⟩

theorem witness_StepKeepsSpienDisciplined : ∃ s t, s.RecordsReady ∧ s.SpienDisciplined ∧ step s = .next t :=
  let ⟨t, h, _⟩ := midMessage_steps
  ⟨midMessage, t, midMessage_recordsReady, midMessage_spien, h⟩

theorem witness_StepKeepsConfigurationsClean :
    ∃ s t, s.RecordsReady ∧ s.WordLengthsLegal ∧ s.MessageChecked ∧ s.ConfsClean ∧ step s = .next t :=
  let ⟨t, h, _⟩ := midMessage_steps
  ⟨midMessage, t, midMessage_recordsReady, midMessage_wordLengths, midMessage_checked, midMessage_confs, h⟩

/-- A message in progress, a DELAY that has not elapsed, and an idle engine. -/
theorem witness_StepEmitsNoForbiddenEvent :
    (∃ s t, s.RecordsReady ∧ s.StatusReportable ∧ step s = .next t) ∧
    (∃ s t, s.ctl.wf ∧ s.MessageChecked ∧ s.ctl.seq ≠ .idle ∧ step s = .next t) ∧
    (let s : State := { running ⟨.xferDelay, .none, .none, .wait, .none⟩ skip50 7#32 with now := 0 }
     s.ctl.wf ∧ s.ctl.seq ≠ .idle ∧ s.ctl.dly = .wait ∧ (after (step s) fun t => t.trace) = some []) ∧
    ∃ s t, s.ctl.seq = .idle ∧ step s = .next t :=
  let ⟨t, h, _⟩ := midMessage_steps
  ⟨⟨midMessage, t, midMessage_recordsReady, midMessage_status, h⟩,
   ⟨midMessage, t, midMessage_wf.1, midMessage_checked, by decide, h⟩, by decide, s1 7#32, _, rfl, rfl⟩

theorem witness_MemReadAssemblesLittleEndianBytes : ∀ n ∈ [1, 2, 4], n = 1 ∨ n = 2 ∨ n = 4 := by decide

theorem witness_MemWriteStoresExactlyItsBytes :
    Mem.wf midMessage.mem ∧ (∀ n ∈ [1, 2, 4], n = 1 ∨ n = 2 ∨ n = 4) ∧
    (∀ k < 4, (0xFFFFFFFE#32).toNat + k < 2 ^ 33) ∧ ∀ k < 4, 4 ≠ ((0xFFFFFFFE#32).toNat + k) % 2 ^ 32 := by decide

theorem witness_RegReadServesTheCacheOrReadsTheBus :
    (s1 7#32).record.valid = true ∧ (s1 7#32).record.cacheValid = true ∧ RegId.stat ≠ .conf ∧
    (let s : State := { s1 7#32 with recs := ⟨{ rec 0#8 0#32 with cacheValid := false }, Rec.reset, Rec.reset, Rec.reset⟩ }
     s.record.valid = true ∧ s.record.cacheValid = false) := by decide

theorem witness_RegWriteIsOneBusWriteAndWritesThrough : (s1 7#32).record.valid = true := by decide

theorem witness_ConfUpdateWritesTheModifiedValue :
    ((s1 7#32).record.valid = true ∧ (s1 7#32).ctl.upd = .none ∧ (s1 7#32).record.cacheValid = true) ∧
    (unset.record.valid = true ∧ unset.ctl.upd = .none ∧ unset.record.cacheValid = false) ∧
    (let s : State := { unset with ctl := { unset.ctl with upd := .write } }
     s.record.valid = true ∧ s.ctl.upd = .write) := by decide

theorem witness_OperationsOnAnInvalidRecordFault : State.reset.record.valid = false ∧ tx4.len ≠ 0#32 := by decide

theorem witness_EveryOperationKeepsTheCachesCoherent :
    midMessage.cohOk = true ∧ ∃ t, exec .yield midMessage = .next t := ⟨by decide, _, rfl⟩

theorem witness_OtherRecordsAreLeftAlone :
    (full.ctl.seq = .idle ∧ (full.recs.get .s0).valid = true ∧ (full.recs.get .s0).peer ≠ 3#8 ∧
      (after (exec (.configure 3#8 0#2 8#6) full) fun _ => ()) = some () ∧
      (after (exec (.release 3#8) full) fun _ => ()) = some () ∧
      (after (exec (.execute 3#8 0#8 0#32) full) fun _ => ()) = some ()) ∧
    (midMessage.ctl.seq ≠ .idle ∧ Slot.s3 ≠ midMessage.w.slot ∧
      (after (step midMessage) fun _ => ()) = some ()) := by decide

theorem witness_WaitBitAndYieldFollowTheirControlTable :
    ∀ x ∈ [WaitState.none, .sample, .poll, .yield, .final],
      (running (inPio .txWait x) tx4 7#32).record.valid = true ∧ (running (inPio .txWait x) tx4 7#32).ctl.wait = x := by
  decide

/-- A final read after the deadline, the bit clear and the bit set. -/
theorem witness_TimeoutOnlyAfterTheDeadlineWithTheBitClear :
    (midMessage.ctl.wf ∧ midMessage.MessageChecked ∧ midMessage.FinalAfterDeadline ∧
      ∃ t, step midMessage = .next t) ∧
    (∃ s t, s.FinalAfterDeadline ∧ s.ctl.wait ≠ .none ∧ exec (.waitBit .eot) s = .next t ∧ t.ctl.wait = .none ∧
      t.w.wres = .timeout) ∧
    (∃ s t, s.FinalAfterDeadline ∧ s.ctl.wait ≠ .none ∧ exec (.waitBit .eot) s = .next t ∧ t.ctl.wait = .none ∧
      t.w.wres = .ok) :=
  ⟨⟨midMessage_wf.1, midMessage_checked, midMessage_final, let ⟨t, h, _⟩ := midMessage_steps; ⟨t, h⟩⟩,
   ⟨running ⟨.assertWait, .none, .final, .none, .none⟩ tx4 0#32, _, fun _ => by decide, by decide, rfl, rfl, rfl⟩,
   ⟨running ⟨.assertWait, .none, .final, .none, .none⟩ tx4 4#32, _, fun _ => by decide, by decide, rfl, rfl, rfl⟩⟩

theorem witness_DelayLastsAtLeastItsTicks :
    (∀ x ∈ [DlyState.none, .sample, .wait], (running ⟨.xferDelay, .none, .none, x, .none⟩ skip50 7#32).ctl.dly = x) ∧
    (let s : State := { running ⟨.xferDelay, .none, .none, .wait, .none⟩ skip50 7#32 with now := 49 }
     s.now - s.w.t0 < (50#16).toNat) ∧
    (let s : State := { running ⟨.xferDelay, .none, .none, .wait, .none⟩ skip50 7#32 with now := 50 }
     (50#16).toNat ≤ s.now - s.w.t0) := by decide

theorem witness_UnitSizeFollowsTheWordLength :
    (∀ w ∈ [4#6, 8#6, 9#6, 16#6, 17#6, 32#6], 4 ≤ w.toNat ∧ w.toNat ≤ 32) ∧
    (8#6).toNat ≤ 8 ∧ (9 ≤ (9#6).toNat ∧ (16#6).toNat ≤ 16) ∧ 17 ≤ (17#6).toNat ∧
    (0xFFFFFFFC#32).toNat % (unitBytes 32#6).toNat = 0 := by decide

/-- Both directions, a run of no buffer, and a run of no unit. -/
theorem witness_PioRunStartsInItsDirection :
    (running (inPio .none .none) tx4 7#32).record.valid = true ∧ (running (inPio .none .none) tx4 7#32).ctl.pio = .none ∧
    (tx4.txp = true ∧ unitCount tx4.len (unitBytes 8#6) ≠ 0#32) ∧
    (rx4.txp = false ∧ rx4.rxp = true ∧ unitCount rx4.len (unitBytes 8#6) ≠ 0#32) ∧
    (skip50.txp = false ∧ skip50.rxp = false) ∧ unitCount skip50.len (unitBytes 8#6) = 0#32 := by decide

theorem witness_PioDataRowsMoveOneUnit :
    ∀ p ∈ [PioState.txMemRd, .txWr, .rxDummy, .rxRd, .rxMemWr],
      (running (inPio p .none) tx4 7#32).record.valid = true ∧ (running (inPio p .none) tx4 7#32).ctl.pio = p := by decide

/-- Each waiting row, polling and at the final read, with its bit set and clear. -/
theorem witness_PioWaitsLeadOnOrEndTheRun :
    (∀ p ∈ [PioState.txWait, .rxWait, .eotWait], ∀ x ∈ [WaitState.sample, .yield],
      (running (inPio p x) tx4 7#32).ctl.pio = p ∧
      (after (exec (.waitBit .eot) (running (inPio p x) tx4 7#32)) fun w => w.ctl.wait) ≠ some .none) ∧
    (∀ p ∈ [PioState.txWait, .rxWait, .eotWait], ∀ x ∈ [WaitState.poll, .final],
      let s := running (inPio p x) tx4 7#32
      s.record.valid = true ∧ s.ctl.pio = p ∧ s.ctl.wait = x ∧ s.win.stat.getLsbD 0 = true ∧
      s.win.stat.getLsbD 1 = true ∧ s.win.stat.getLsbD 2 = true) ∧
    (let s := running (inPio .txWait .final) tx4 0#32
     s.ctl.wait = .final ∧ s.win.stat.getLsbD 0 = false ∧ s.win.stat.getLsbD 1 = false ∧
     s.win.stat.getLsbD 2 = false) ∧
    (running (inPio .eotLog .none) tx4 0#32).ctl.pio = .eotLog := by decide

theorem witness_PioRunFrame :
    (∃ u, exec (.pioRun rx4 8#6) (running (inPio .rxMemWr .none) rx4 7#32) = .next u) ∧
    Mem.wf (running (inPio .rxMemWr .none) rx4 7#32).mem ∧
    (∃ u, exec (.pioRun tx4 8#6) midMessage = .next u) ∧ tx4.txp = true ∧ midMessage.ctl.pio = .txWait :=
  ⟨⟨_, rfl⟩, by decide, ⟨_, rfl⟩, by decide, by decide⟩

/-- P1's message: a known peer; at its last word a well-formed descriptor and a valid message. -/
theorem witness_ExecuteAcceptsAGoodMessage :
    (let s : State := { s1 7#32 with mem := memP1 }
     s.ctl.seq = .idle ∧ (0x1000#32).toNat % 4 = 0 ∧ s.recs.lookup 0#8 = some .s0 ∧ (255#8 : BitVec 8) ≠ 0#8) ∧
    (let s := fetching
     let ws := s.w.words ++ [s.mem.readLE (s.w.descBase + BitVec.ofNat 32 (4 * s.w.words.length)) 4]
     s.ctl.seq = .fetchDesc ∧ s.record.valid = true ∧ s.w.words.length + 1 = 5 * s.w.n.toNat ∧
     (∀ d ∈ descriptorsOf ws, d.ctrl &&& 0x0000C0FC#32 = 0#32 ∧ d.transfer.wellFormed s.record.wordLen = true) ∧
     validate ((descriptorsOf ws).map Td.transfer) = true) := by decide

/-- The last word of a message, and the first of two descriptors. -/
theorem witness_ExecuteFetchesEveryDescriptorOnceInOrder :
    (fetching.ctl.seq = .fetchDesc ∧ fetching.record.valid = true ∧
      fetching.w.words.length + 1 = 5 * fetching.w.n.toNat) ∧
    (let s : State := { fetching with w := { fetching.w with n := 2#8, words := [] } }
     s.ctl.seq = .fetchDesc ∧ s.record.valid = true ∧ s.w.words.length + 1 ≠ 5 * s.w.n.toNat) ∧
    ((s1 7#32).ctl.seq = .idle ∧ (after (exec (.execute 0#8 2#8 0x1000#32) (s1 7#32)) fun _ => ()) = some ()) ∧
    (List.replicate 10 0#32).length = 5 * 2 := by decide

/-- A misaligned base, an unknown peer, an empty message; a last word that leaves a descriptor with a reserved bit, or an
invalid message (its speed); and the two rejection rows. -/
theorem witness_ExecuteRejectionTouchesNoHardware :
    ((s1 7#32).ctl.seq = .idle ∧ (0x1002#32).toNat % 4 ≠ 0 ∧ (s1 7#32).recs.lookup 9#8 = none ∧
      (0x1000#32).toNat % 4 = 0 ∧ (s1 7#32).recs.lookup 0#8 = some .s0) ∧
    (fetching.ctl.seq = .fetchDesc ∧ fetching.record.valid = true ∧
      fetching.w.words.length + 1 = 5 * fetching.w.n.toNat) ∧
    (∃ d ∈ descriptorsOf ([4#32, 4#32, 0x2000#32, 0#32] ++ [0#32]),
      ¬(d.ctrl &&& 0x0000C0FC#32 = 0#32 ∧ d.transfer.wellFormed 8#6 = true)) ∧
    validate ((descriptorsOf (fetching.w.words ++ [50000000#32])).map Td.transfer) = false ∧
    (running ⟨.rejCpl, .none, .none, .none, .none⟩ tx4 7#32).ctl.seq = .rejCpl ∧
    (running ⟨.rejRsp, .none, .none, .none, .none⟩ tx4 7#32).ctl.seq = .rejRsp := by decide

theorem witness_AssertWritesTheCacheWithSpienSet :
    let s := running ⟨.assertWr, .none, .none, .none, .none⟩ tx4 7#32
    s.ctl.seq = .assertWr ∧ s.record.valid = true ∧ s.record.cacheValid = true ∧ s.ctl.upd = .none := by decide

theorem witness_AssertWaitEntersTheLoopOrSkipsIt :
    (∀ x ∈ [WaitState.poll, .final],
      let s := running ⟨.assertWait, .none, x, .none, .none⟩ tx4 4#32
      s.ctl.seq = .assertWait ∧ s.record.valid = true ∧ s.ctl.wait = x ∧ s.win.stat.getLsbD 2 = true) ∧
    (let s := running ⟨.assertWait, .none, .final, .none, .none⟩ tx4 0xFFFFFFFB#32
     s.ctl.wait = .final ∧ s.win.stat.getLsbD 2 = false) ∧
    (running ⟨.assertLog, .none, .none, .none, .none⟩ tx4 0#32).ctl.seq = .assertLog := by decide

/-- A current transfer of nonzero length, an exhausted list, and a transfer at its head. -/
theorem witness_DataTransferStartsWithItsWordLength :
    (midMessage.currentTransfer = some tx4 ∧ tx4.len ≠ 0#32) ∧
    ({ midMessage with w := { midMessage.w with xi := 1#8 } } : State).currentTransfer = none ∧
    (let s := running ⟨.xferHead, .none, .none, .none, .none⟩ tx4 7#32
     s.ctl.seq = .xferHead ∧ s.record.valid = true ∧ tx4.len ≠ 0#32) := by decide

/-- Both directions, word lengths at both ends. -/
theorem witness_TransferConfigurationUpdateSetsThreeFields :
    ∀ w ∈ [4#6, 32#6],
      let s : State := { running ⟨.xferConfWr, .none, .none, .none, .none⟩ tx4 7#32 with w := { midMessage.w with wl := w } }
      s.ctl.seq = .xferConfWr ∧ s.record.valid = true ∧ s.record.cacheValid = true ∧ s.ctl.upd = .none ∧
      tx4.len ≠ 0#32 ∧ unitCount tx4.len (unitBytes w) ≠ 0#32 ∧ unitCount 3#32 (unitBytes 32#6) = 0#32 ∧
      4 ≤ s.w.wl.toNat ∧ s.w.wl.toNat ≤ 32 := by decide

/-- The run goes on; it returns short; it returns whole, with a delay and without. -/
theorem witness_TransferAccountsForItsBytes :
    (let s := running (inPio .eotWait .sample) tx4 7#32
     s.ctl.seq = .xferPio ∧ s.record.valid = true ∧ tx4.len ≠ 0#32 ∧
     (after (exec (.pioRun tx4 s.w.wl) s) fun u => u.ctl.pio) = some .eotWait) ∧
    (let s := running (inPio .eotWait .poll) tx4 7#32
     (after (exec (.pioRun tx4 s.w.wl) s) fun u => (u.ctl.pio, u.w.nRet)) = some (.none, 1#32)) ∧
    (let s := running (inPio .eotLog .none) tx4 0#32
     (after (exec (.pioRun tx4 s.w.wl) s) fun u => (u.ctl.pio, u.w.nRet)) = some (.none, 1#32)) ∧
    rx4.delay ≠ 0#16 ∧ tx4.delay = 0#16 := by decide

theorem witness_TransferTakesItsDelayThenTheNextFollows :
    ((running ⟨.xferHead, .none, .none, .none, .none⟩ skip50 7#32).currentTransfer = some skip50 ∧ skip50.len = 0#32) ∧
    (running ⟨.xferHead, .none, .none, .none, .none⟩ skip50 7#32).ctl.seq = .xferHead ∧ skip50.delay ≠ 0#16 ∧
    (∀ x ∈ [DlyState.sample, .wait],
      let s := running ⟨.xferDelay, .none, .none, x, .none⟩ rx4 7#32
      s.ctl.seq = .xferDelay ∧ s.record.valid = true ∧ s.ctl.dly = x) ∧ rx4.len ≠ 0#32 ∧
    (let s : State := { running ⟨.xferDelay, .none, .none, .wait, .none⟩ rx4 7#32 with now := 99 }
     s.now - s.w.t0 < (100#16).toNat) ∧
    (let s : State := { running ⟨.xferDelay, .none, .none, .wait, .none⟩ rx4 7#32 with now := 100 }
     (100#16).toNat ≤ s.now - s.w.t0) := by decide

theorem witness_DeassertThenCompletionThenResponse :
    ∀ q ∈ [SeqState.deassertWr, .finalCpl, .finalRsp],
      let s := running ⟨q, .none, .none, .none, .none⟩ tx4 7#32
      s.ctl.seq = q ∧ s.record.valid = true ∧ s.record.cacheValid = true ∧ s.ctl.upd = .none := by decide

theorem witness_InitialConfigurationValue :
    (4 ≤ (4#6).toNat ∧ (4#6).toNat ≤ 32) ∧ (4 ≤ (32#6).toNat ∧ (32#6).toNat ≤ 32) ∧ ConfField.trm ≠ .wl ∧
    ConfField.trm ≠ .csidx := by decide

/-- A new peer on S1 (slot 1 is the lowest free), a known peer, and a full table. -/
theorem witness_ConfigureCreatesOrReusesOneRecord :
    ((s1 7#32).ctl.seq = .idle ∧ 4 ≤ (4#6).toNat ∧ (32#6).toNat ≤ 32 ∧
      (∀ j ∈ Slot.all, ((s1 7#32).recs.get j).valid = true → ((s1 7#32).recs.get j).peer ≠ 1#8) ∧
      ((s1 7#32).recs.get .s1).valid = false ∧
      (∀ j ∈ Slot.all, j.handle < Slot.s1.handle → ((s1 7#32).recs.get j).valid = true)) ∧
    ((full.recs.get .s2).valid = true ∧ (full.recs.get .s2).peer = 2#8) ∧
    (∀ j ∈ Slot.all, (full.recs.get j).valid = true ∧ (full.recs.get j).peer ≠ 4#8) := by decide

theorem full_peersDistinct : full.PeersDistinct := by
  intro j k; cases j <;> cases k <;> decide

theorem witness_ConfigureWritesTheInitialValueThenResponds :
    (running ⟨.cfgWr, .none, .none, .none, .none⟩ tx4 7#32).ctl.seq = .cfgWr ∧
    (running ⟨.cfgWr, .none, .none, .none, .none⟩ tx4 7#32).record.valid = true ∧
    (running ⟨.cfgRsp .enomem, .none, .none, .none, .none⟩ tx4 7#32).ctl.seq = .cfgRsp .enomem := by decide

/-- S2 (a known peer) and S3 (a new peer) at the port. -/
theorem witness_ConfigureRunsToItsResponseInThreeSteps :
    (let s : State := { s1 7#32 with port := some ⟨encodeConfigure 0#8 0#2 4#6, 0#32⟩ }
     s.attached = true ∧ s.windowBase.toNat % 8 = 0 ∧ s.cohOk = true ∧ s.ctl.seq = .idle ∧
     s.recs.lookup 0#8 = some .s0) ∧
    (let s : State := { s1 7#32 with port := some ⟨encodeConfigure 1#8 2#2 32#6, 0#32⟩ }
     s.cohOk = true ∧ s.ctl.seq = .idle ∧ s.recs.lookup 1#8 = none ∧ s.recs.free = some .s1) := by decide

theorem witness_ReleaseClearsThePeersRecordThenResponds :
    full.PeersDistinct ∧ full.ctl.seq = .idle ∧ (full.recs.get .s3).valid = true ∧ (full.recs.get .s3).peer = 3#8 ∧
    (∀ k ∈ Slot.all, (full.recs.get k).valid = true → (full.recs.get k).peer ≠ 4#8) ∧
    (running ⟨.relRsp .einval, .none, .none, .none, .none⟩ tx4 7#32).ctl.seq = .relRsp .einval :=
  ⟨full_peersDistinct, by decide, by decide, by decide, by decide, by decide⟩

theorem witness_HostCommandsAreHeldWhileAnotherRuns :
    (∃ s t, s.ctl.seq ≠ .idle ∧ s.port = some ⟨0x00000002#32, 0#32⟩ ∧ step s = .next t) ∧
    (running ⟨.assertWr, .none, .none, .none, .none⟩ tx4 7#32).ctl.seq.inMessage = true ∧
    ∀ q ∈ [SeqState.cfgWr, .cfgRsp .ok, .relRsp .ok, .fetchDesc, .rejCpl, .rejRsp, .finalCpl, .finalRsp],
      (running ⟨q, .none, .none, .none, .none⟩ tx4 7#32).ctl.seq = q :=
  ⟨⟨{ midMessage with port := some ⟨0x00000002#32, 0#32⟩ }, _, by decide, rfl, rfl⟩, by decide, by decide⟩

end Sys2Proof.Tests
end

section
/-!
PROOFS. The statements of family 00_scope: the moves of the other agents, the dispatch of a step, field updates,
CONF.UPDATE, the descriptor fetch, the rejection of EXECUTE and the events of a step.
-/
namespace Sys2Proof.Machine

/-! ## The moves of the other agents -/

/-- Host stores keep the canonical form, and a byte that none of them names reads as before (R52, R82). -/
theorem hostStores_wf_read (stores : List (Word × Byte)) {m : Mem} (h : Mem.wf m) :
    Mem.wf (hostStores stores m) ∧
      ∀ a : Nat, (∀ x ∈ stores, x.1.toNat ≠ a) → (hostStores stores m).read a = m.read a := by
  induction stores generalizing m with
  | nil => exact ⟨h, fun _ _ => rfl⟩
  | cons x xs ih =>
    obtain ⟨hwf, hread⟩ := ih (Mem.write_wf (b := x.2) h x.1.isLt)
    refine ⟨hwf, fun a ha => ?_⟩
    have hx : a ≠ x.1.toNat := (ha x (by simp)).symm
    calc (hostStores xs (Mem.write m x.1.toNat x.2)).read a
        = (Mem.write m x.1.toNat x.2).read a := hread a fun y hy => ha y (by simp [hy])
      _ = m.read a := by rw [Mem.read_write h, if_neg hx]

/-- Settles O9: field by field, and memory by induction on the host's stores. -/
theorem otherAgentsLeaveTheEngineAlone : Obligations.OtherAgentsLeaveTheEngineAlone := by
  intro s
  have hnow : s.now ≤ s.arrive.now := by rw [arrive_now]; omega
  have hmem : s.nextInput.stores = [] → s.arrive.mem = s.mem := fun h => by
    simp [State.arrive, hostStores, h]
  exact ⟨rfl, rfl, rfl, rfl, rfl, rfl, rfl, hnow, fun _ => arrive_port_of,
    fun h => ⟨arrive_attached_of h, arrive_windowBase_of h, arrive_windowPhys_of h⟩, hmem,
    hostStores_wf_read s.nextInput.stores⟩

/-! ## The dispatch of a step -/

/-- An idle engine with a decodable command at its port runs it, the port freed (R50). -/
theorem engineStep_command {s : State} {c : Command} {i : Instr} (hq : s.ctl.seq = .idle) (hp : s.port = some c)
    (hd : decodeCommand c.cmd c.arg = .ok i) : engineStep s = exec i s.takeCommand := by
  simp [engineStep, fetch, fetchCommand, hq, hp, hd]

/-- Settles O7: the row of an attached engine is the decoded command, or the current transfer's instruction. -/
theorem stepRunsTheDecodedInstruction : Obligations.StepRunsTheDecodedInstruction := by
  intro s i ha hb
  rw [step_of_attached ha hb]
  constructor
  · intro c hq hp hd
    rw [engineStep_command (s := s.arrive) hq (arrive_port_of hp) hd]
    rfl
  · intro t hq hc hi
    rw [engineStep_transfer (s := s.arrive) hq, loopStep, arrive_currentTransfer, hc, exec_transfer hi]

/-! ## Field updates (R12) -/

theorem getLsbD_bitsOnes {i : Nat} (hi : i < 32) (width : Nat) :
    (bitsOnes width).getLsbD i = decide (i < width) := by
  simp only [bitsOnes, BitVec.getLsbD_ofNat, Nat.testBit_two_pow_sub_one, hi, decide_true, Bool.true_and]

theorem getLsbD_bitsMask {i : Nat} (hi : i < 32) (lo width : Nat) :
    (bitsMask lo width).getLsbD i = decide (lo ≤ i ∧ i < lo + width) := by
  have h : i - lo < 32 := by omega
  rw [bitsMask, BitVec.getLsbD_shiftLeft, getLsbD_bitsOnes h]
  simp only [hi, decide_true, Bool.true_and, ← decide_not, ← Bool.decide_and, decide_eq_decide]
  omega

/-- R12, bit by bit, for any place of a field. -/
theorem getLsbD_setBits {i : Nat} (hi : i < 32) (lo width : Nat) (v x : Word) :
    (setBits lo width v x).getLsbD i =
      if lo ≤ i ∧ i < lo + width then x.getLsbD (i - lo) else v.getLsbD i := by
  simp only [setBits, BitVec.getLsbD_or, BitVec.getLsbD_and, BitVec.getLsbD_not, BitVec.getLsbD_shiftLeft,
    getLsbD_bitsMask hi, hi]
  by_cases h : lo ≤ i ∧ i < lo + width
  · have hlo : ¬ i < lo := by omega
    simp [h, hlo]
  · simp [h]

/-- Settles O13: a CONF field is a field at its place. -/
theorem fieldUpdateChangesExactlyItsField : Obligations.FieldUpdateChangesExactlyItsField :=
  fun f v x _ hi => getLsbD_setBits hi f.lo f.width v x

/-! ## CONF.UPDATE (R124) -/

theorem exec_confUpdate (us : List FieldUpdate) {s : State} (hv : s.record.valid = true) :
    exec (.confUpdate us) s = .next (confUpdate us s) :=
  State.onRecord_valid hv

/-- Settles O23: the three cases of CONF.UPDATE by the place of its read. -/
theorem confUpdateWritesTheModifiedValue : Obligations.ConfUpdateWritesTheModifiedValue := by
  intro us s hv
  rw [exec_confUpdate us hv]
  refine ⟨fun hu hc => ⟨_, rfl, ?_⟩, fun hu hc => ?_, fun hu => ?_⟩
  · have hctl : { s.ctl with upd := .none } = s.ctl := by rw [← hu]
    rw [confUpdate_cached us hu hc, confWrote, hctl]
  · rw [confUpdate_unset us hu hc, confRead]
  · rw [confUpdate_pending us hu, confWrote]

/-! ## The descriptor fetch (R81, R97) -/

/-- In the fetch row EXECUTE is one fetch step, whatever operands it is given. -/
theorem exec_execute_fetchDesc (peer n : BitVec 8) (base : Word) {s : State} (hq : s.ctl.seq = .fetchDesc)
    (hv : s.record.valid = true) : exec (.execute peer n base) s = .next (fetchDescriptorWord s) := by
  simp [exec, execExecute, resumeExecute, hq, hv]

/-- At an idle engine EXECUTE is its acceptance. -/
theorem exec_execute_idle (peer n : BitVec 8) (base : Word) {s : State} (hq : s.ctl.seq = .idle) :
    exec (.execute peer n base) s = .next (acceptExecute peer n base s) := by
  simp [exec, execExecute, hq]

theorem acceptExecute_trace (peer n : BitVec 8) (base : Word) (s : State) :
    (acceptExecute peer n base s).trace = s.trace := by
  obtain ⟨-, h⟩ | ⟨k, -, -, -, h⟩ | ⟨k, -, -, -, h⟩ := acceptExecute_cases peer n base s <;> simp [h]

/-- Five words in list order make a descriptor (R98). -/
theorem descriptorsOf_getElem? (n : Nat) : ∀ ws : List Word, ws.length = 5 * n → ∀ i < n,
    ∃ d : Td, (descriptorsOf ws)[i]? = some d ∧ ws[5 * i]? = some d.ctrl ∧ ws[5 * i + 1]? = some d.len ∧
      ws[5 * i + 2]? = some d.txaddr ∧ ws[5 * i + 3]? = some d.rxaddr ∧ ws[5 * i + 4]? = some d.speed := by
  induction n with
  | zero => intro _ _ i hi; omega
  | succ n ih =>
    intro ws h i hi
    match ws, h with
    | w0 :: w1 :: w2 :: w3 :: w4 :: ws, h =>
      cases i with
      | zero => exact ⟨⟨w0, w1, w2, w3, w4⟩, rfl, rfl, rfl, rfl, rfl, rfl⟩
      | succ i =>
        obtain ⟨d, hd⟩ := ih ws (by simp at h; omega) i (by omega)
        exact ⟨d, by simpa [descriptorsOf, Nat.mul_add, Nat.add_right_comm _ 5] using hd⟩

/-- Settles O41: the cases of a fetch step, and the descriptors by induction on their number. -/
theorem executeFetchesEveryDescriptorOnceInOrder : Obligations.ExecuteFetchesEveryDescriptorOnceInOrder := by
  refine ⟨fun peer n base s hq hv => ?_, fun peer n base s t hq h => ?_,
    fun n ws h => ⟨descriptorsOf_length n ws h, descriptorsOf_getElem? n ws h⟩⟩
  · refine ⟨_, _, exec_execute_fetchDesc peer n base hq hv, rfl, ?_⟩
    obtain ⟨hne, e⟩ | ⟨hlast, e⟩ := fetchDescriptorWord_cases s
    · have hctl : { s.ctl with seq := .fetchDesc } = s.ctl := by rw [← hq]
      rw [e]
      exact ⟨rfl, rfl, rfl, rfl, rfl, rfl, rfl, rfl, rfl, fun _ => by rw [hctl]; rfl, by simp [hne]⟩
    · rw [e]
      refine ⟨rfl, rfl, rfl, rfl, rfl, rfl, rfl, rfl, rfl, fun hne => absurd hlast hne, ?_⟩
      dsimp only
      split <;> simp [hlast]
  · rw [exec_execute_idle peer n base hq] at h
    cases h
    exact acceptExecute_trace peer n base s

/-! ## The rejection of EXECUTE (R102, R103, R182, R183) -/

/-- A message with an ill-formed descriptor, or with an invalid list, is not accepted (R103, R182). -/
theorem messageAccepted_eq_false {recLen : BitVec 6} {tds : List Td}
    (h : (∃ d ∈ tds, ¬(d.ctrl &&& 0x0000C0FC#32 = 0#32 ∧ d.transfer.wellFormed recLen = true)) ∨
      validate (tds.map Td.transfer) = false) : messageAccepted recLen tds = false := by
  obtain ⟨d, hd, hbad⟩ | hval := h
  · have hall : tds.all (fun d => d.reservedClear && d.transfer.wellFormed recLen) = false := by
      rw [List.all_eq_false]
      exact ⟨d, hd, by simpa [Td.reservedClear, Row.hits, Row.xferSkip] using hbad⟩
    simp [messageAccepted, hall]
  · simp [messageAccepted, hval]

/-- Settles O42: the rejecting cases of acceptance and of the last fetch step, and the two rows of the rejection. -/
theorem executeRejectionTouchesNoHardware : Obligations.ExecuteRejectionTouchesNoHardware := by
  intro peer n base s
  refine ⟨fun hq hrej => ?_, fun k hq hb hk hn => ?_, fun v ws hq hv hlast hv' hws hbad => ?_, fun hq => ?_,
    fun hq => ?_⟩
  · rw [exec_execute_idle peer n base hq]
    obtain ⟨-, e⟩ | ⟨k, hb, hk, -⟩ | ⟨k, hb, hk, -⟩ := acceptExecute_cases peer n base s
    · rw [e]; rfl
    · simp [hb, hk] at hrej
    · simp [hb, hk] at hrej
  · rw [exec_execute_idle peer n base hq]
    obtain ⟨h, -⟩ | ⟨k', -, hk', -, e⟩ | ⟨k', -, -, hn', -⟩ := acceptExecute_cases peer n base s
    · simp [hb, hk] at h
    · obtain rfl : k = k' := by simpa [hk] using hk'
      rw [e]
    · exact absurd hn hn'
  · subst hv' hws
    rw [exec_execute_fetchDesc peer n base hq hv]
    obtain ⟨hne, -⟩ | ⟨-, e⟩ := fetchDescriptorWord_cases s
    · exact absurd hlast hne
    · have hacc := messageAccepted_eq_false hbad
      rw [e, fetchedWord, descWordAddr, hacc]
      rfl
  · simp [exec, execExecute, resumeExecute, hq, rejectComplete, State.emit, State.setSeq]
  · simp [exec, execExecute, resumeExecute, hq, rejectRespond, State.setOutcome, State.respond, State.setW,
      State.emit, State.setSeq]

/-! ## The event of a step (R16) -/

/-- From `s` to `t` one event was added, and under `p` it is none of the forbidden ones. -/
def Emits (p : Prop) (s t : State) : Prop := ∃ e : Event, t.trace = e :: s.trace ∧ (p → e.forbidden = false)

section
variable {p : Prop} {s t u : State}

/-- What is done without an event after it does not matter to what was emitted. -/
theorem Emits.then (h : Emits p s t) (ht : u.trace = t.trace) : Emits p s u := by
  obtain ⟨e, he, hp⟩ := h
  exact ⟨e, ht.trans he, hp⟩

@[simp] theorem nextTransfer_trace (s : State) : (nextTransfer s).trace = s.trace := by
  obtain ⟨_, _, _, _, h, -⟩ := nextTransfer_frame s
  rw [h]

@[simp] theorem afterTransfer_trace (x : Transfer) (s : State) : (afterTransfer x s).trace = s.trace := by
  obtain ⟨_, _, _, _, h, -⟩ := afterTransfer_frame x s
  rw [h]

@[simp] theorem enterLoop_trace (s : State) : (enterLoop s).trace = s.trace := by
  obtain ⟨_, _, _, _, h, -⟩ := selectTransfer_frame (s.setW { s.w with xi := 0#8 })
  rw [enterLoop, h]
  rfl

@[simp] theorem transferAccount_trace (x : Transfer) (s : State) : (transferAccount x s).trace = s.trace := by
  simp only [transferAccount]
  split <;> simp

theorem readStat_emits (s : State) : Emits p s (readStat s) := ⟨_, readStat_trace s, fun _ => rfl⟩

/-- Each step of WAIT.BIT is one event (R148). -/
theorem waitStep_emits (b : StatFlag) (s : State) : Emits p s (waitStep b s) := by
  unfold waitStep
  split
  · exact ⟨.sample, rfl, fun _ => rfl⟩
  · exact ⟨.sample, rfl, fun _ => rfl⟩
  · refine (readStat_emits s).then ?_
    simp only [waitPoll]
    split <;> [skip; split] <;> simp
  · exact ⟨.yield, rfl, fun _ => rfl⟩
  · exact (readStat_emits s).then (by simp [waitFinal])

/-- Each step of DELAY is one event, but for a delay that has not elapsed (R193). -/
theorem delayStep_emits (d : BitVec 16) (s : State) :
    Emits p s (delayStep d s) ∨ (s.ctl.dly = .wait ∧ delayStep d s = s) := by
  unfold delayStep
  split
  · exact .inl ⟨.sample, rfl, fun _ => rfl⟩
  · exact .inl ⟨.sample, rfl, fun _ => rfl⟩
  · next hd =>
    split
    · exact .inl ⟨.delayDone d, rfl, fun _ => rfl⟩
    · exact .inr ⟨hd, rfl⟩

/-- A PIO row that waits is one event, whatever follows the wait (R167). -/
theorem pioWait_emits (b : StatFlag) (ok timeout : State → State) (s : State)
    (hok : ∀ u, (ok u).trace = u.trace) (htimeout : ∀ u, (timeout u).trace = u.trace) :
    Emits p s (pioWait b ok timeout s) := by
  refine (waitStep_emits b s).then ?_
  simp only [pioWait]
  split <;> [split; skip]
  · exact hok _
  · exact htimeout _
  · rfl

/-- Each step of a running PIO.RUN is one event (R167). -/
theorem pioStep_emits (x : Transfer) (wl : BitVec 6) {s : State} (hp : s.ctl.pio ≠ .none) :
    Emits p s (pioStep x wl s) := by
  unfold pioStep
  split
  · contradiction
  · exact pioWait_emits _ _ _ s (fun _ => rfl) (fun _ => rfl)
  · exact ⟨_, rfl, fun _ => rfl⟩
  · exact ⟨_, by rw [pioTxWr, pioCount_trace, regWrite_trace], fun _ => rfl⟩
  · exact ⟨_, by rw [pioRxDummy, gotoPio_trace, regWrite_trace], fun _ => rfl⟩
  · exact pioWait_emits _ _ _ s (fun _ => rfl) (fun _ => rfl)
  · exact ⟨_, rfl, fun _ => rfl⟩
  · exact ⟨_, by rw [pioRxMemWr, pioCount_trace]; rfl, fun _ => rfl⟩
  · exact pioWait_emits _ _ _ s (fun _ => rfl) (fun _ => rfl)
  · exact ⟨_, rfl, fun _ => rfl⟩

/-- A row that is a CONF.UPDATE is one event, and a read of CONF only where the cache is UNSET (R124, R131). -/
theorem updateThen_emits (us : List FieldUpdate) (next : State → State) (s : State)
    (hnext : ∀ u, (next u).trace = u.trace) (hc : p → s.record.cacheValid = true) :
    Emits p s (updateThen us next s) := by
  obtain ⟨v, r, -, e⟩ | ⟨-, hunset, e⟩ := updateThen_cases us next s
  · exact ⟨_, by rw [e, hnext]; rfl, fun _ => rfl⟩
  · exact ⟨_, by rw [e]; rfl, fun hp => by simp [hc hp] at hunset⟩

theorem transferConfWr_emits (x : Transfer) (s : State) (hc : p → s.record.cacheValid = true) :
    Emits p s (transferConfWr x s) :=
  updateThen_emits _ _ s (fun _ => by simp) hc

theorem deassertWrite_emits (s : State) (hc : p → s.record.cacheValid = true) : Emits p s (deassertWrite s) :=
  updateThen_emits _ _ s (fun _ => rfl) hc

theorem fetchDescriptorWord_emits (s : State) : Emits p s (fetchDescriptorWord s) := by
  obtain ⟨-, e⟩ | ⟨-, e⟩ := fetchDescriptorWord_cases s <;> exact ⟨_, by rw [e], fun _ => rfl⟩

theorem assertWait_emits (s : State) : Emits p s (Machine.assertWait s) := by
  refine (waitStep_emits .eot s).then ?_
  simp only [Machine.assertWait]
  split <;> [split; skip] <;> simp

theorem transferPio_emits (x : Transfer) {s : State} (hp : s.ctl.pio ≠ .none) : Emits p s (transferPio x s) := by
  refine (pioStep_emits x s.w.wl hp).then ?_
  simp only [transferPio]
  split <;> simp

theorem transferPio_entry_trace (x : Transfer) {s : State} (hp : s.ctl.pio = .none) :
    (transferPio x s).trace = s.trace := by
  have h : (pioStep x s.w.wl s).trace = s.trace := by simp [pioStep, hp]
  simp only [transferPio]
  split <;> simp [h]

theorem transferDelay_emits (x : Transfer) (s : State) :
    Emits p s (transferDelay x s) ∨ (s.ctl.dly = .wait ∧ transferDelay x s = s) := by
  obtain h | ⟨hd, h⟩ := delayStep_emits (p := p) x.delay s
  · refine .inl (h.then ?_)
    simp only [transferDelay]
    split <;> simp
  · exact .inr ⟨hd, by simp [transferDelay, h, hd]⟩

/-- The row of a transfer of length 0 is at most one event (R187). -/
theorem skipHead_emits (x : Transfer) (s : State) :
    Emits p s (if x.delay = 0#16 then nextTransfer s else transferDelay x (enterDelay s)) ∨
      (if x.delay = 0#16 then nextTransfer s else transferDelay x (enterDelay s)).trace = s.trace := by
  split
  · exact .inr (nextTransfer_trace s)
  · obtain h | ⟨-, h⟩ := transferDelay_emits (p := p) x (enterDelay s)
    · exact .inl h
    · exact .inr (by rw [h]; rfl)

end

theorem SeqState.usesRecord_of_inMessage {q : SeqState} (h : q.inMessage = true) : q.usesRecord = true := by
  cases q <;> simp_all [SeqState.inMessage, SeqState.usesRecord]

/-- In a row of a message from Assert to De-assert the running record's cache is set (R131). -/
theorem State.RecordsReady.cacheValid {s : State} (h : s.RecordsReady) (hq : s.ctl.seq.inMessage = true) :
    s.record.cacheValid = true := by
  obtain ⟨-, hvalid, hcache⟩ := h
  obtain h | ⟨h, -⟩ := hcache s.w.slot (hvalid (SeqState.usesRecord_of_inMessage hq))
  · exact h
  · simp [h, SeqState.inMessage] at hq

/-- A transfer of nonzero length runs where a checked message is in its Configuration or PIO row (R186). -/
theorem State.MessageChecked.len_ne_zero {s : State} {x : Transfer} (h : s.MessageChecked)
    (hq : s.ctl.seq = .xferConfWr ∨ s.ctl.seq = .xferPio) (hx : s.currentTransfer = some x) : x.len ≠ 0#32 := by
  obtain ⟨-, hmsg⟩ := h
  obtain ⟨-, -, hrow, -⟩ := hmsg (by rcases hq with hq | hq <;> rw [hq] <;> rfl)
  obtain ⟨y, hy, hlen, -⟩ := hrow hq
  simp_all

/-- Every row after acceptance adds one event, never a forbidden one where the records are ready and the statuses
reportable. A row without an event is a delay that has not elapsed, or one no run rests in (R16, R44 b). -/
theorem EngineRow.emits {s t : State} (h : EngineRow s t) (hi : s.ctl.seq ≠ .idle) :
    Emits (s.RecordsReady ∧ s.StatusReportable) s t ∨
      (t.trace = s.trace ∧ (s.ctl.wf → s.MessageChecked → s.ctl.dly = .wait ∧ t = s)) := by
  have hcache : s.ctl.seq.inMessage = true → s.RecordsReady ∧ s.StatusReportable → s.record.cacheValid = true :=
    fun hq ⟨hr, _⟩ => hr.cacheValid hq
  cases h with
  | wait h => exact absurd h hi
  | illFormed h => exact absurd h hi
  | configure h => exact absurd h hi
  | release h => exact absurd h hi
  | execute h => exact absurd h hi
  | cfgWr h hv => exact .inl ⟨_, by rw [configureWrite, State.setSeq_trace, regWrite_trace]; rfl, fun _ => rfl⟩
  | cfgRsp st h => exact .inl ⟨_, rfl, fun ⟨_, _, hst, _⟩ => by simpa [Event.forbidden, h] using hst⟩
  | relRsp st h => exact .inl ⟨_, rfl, fun ⟨_, _, _, hst⟩ => by simpa [Event.forbidden, h] using hst⟩
  | fetchDesc h hv => exact .inl (fetchDescriptorWord_emits s)
  | rejCpl h => exact .inl ⟨_, rfl, fun _ => rfl⟩
  | rejRsp h => exact .inl ⟨_, rfl, fun _ => rfl⟩
  | assertWr h hv =>
    exact .inl (updateThen_emits assertUpdate (fun t => (t.setSeq .assertWait).setWait .sample)
      (s.setW { s.w with status := .ok, actual := 0#32 }) (fun _ => rfl) (hcache (by rw [h]; rfl)))
  | assertWait h hv => exact .inl (assertWait_emits s)
  | assertLog h => exact .inl ⟨_, rfl, fun _ => rfl⟩
  | loopEnd h hc hv =>
    exact .inl (deassertWrite_emits (s.setSeq .deassertWr)
      (hcache (by rcases h with h | h | h | h <;> rw [h] <;> rfl)))
  | @skipHead h x hc hl =>
    refine (skipHead_emits x s).imp_right fun htrace => ⟨htrace, fun hwf hm => ?_⟩
    obtain h | h := h
    · exact absurd h hwf.1
    · exact absurd hl (hm.len_ne_zero h hc)
  | @head h x hc hl hv => exact .inl (transferConfWr_emits x (transferHead x s) (hcache (by rw [h]; rfl)))
  | @confWr h x hc hl hv => exact .inl (transferConfWr_emits x s (hcache (by rw [h]; rfl)))
  | @pio h x hc hl hv =>
    by_cases hp : s.ctl.pio = .none
    · exact .inr ⟨transferPio_entry_trace x hp, fun ⟨_, hpio, _⟩ _ => absurd hp (hpio.mpr h)⟩
    · exact .inl (transferPio_emits x hp)
  | @delay h x hc => exact (transferDelay_emits x s).imp_right fun ⟨hd, e⟩ => ⟨by rw [e], fun _ _ => ⟨hd, e⟩⟩
  | deassertWr h hv => exact .inl (deassertWrite_emits s (hcache (by rw [h]; rfl)))
  | finalCpl h => exact .inl ⟨_, rfl, fun ⟨_, hst, _⟩ => by simpa [Event.forbidden, h] using hst⟩
  | finalRsp h => exact .inl ⟨_, rfl, fun ⟨_, hst, _⟩ => by simpa [Event.forbidden, h] using hst⟩

/-! ## The statuses reported (R196, R243) -/

/-- Where an idle row leads and what it emits: nothing, or the answer to a reserved OPC (log 12). -/
theorem EngineRow.idle_effect {s t : State} (h : EngineRow s t) (hi : s.ctl.seq = .idle) :
    t.ctl.seq ∈ [.idle, .cfgRsp .einval, .cfgRsp .enomem, .relRsp .einval, .relRsp .ok, .rejRsp, .cfgWr,
      SeqState.fetchDesc] ∧ (t.trace = s.trace ∨ t.trace = .rsp .einval 0#2 :: s.trace) := by
  obtain rfl | ⟨-, ⟨q, hq, rfl⟩ | rfl | ⟨_, _, _, _, -, -, rfl⟩ | ⟨_, _, _, _, -, -, -, rfl⟩ | ⟨_, _, -, rfl⟩ |
    ⟨_, _, _, _, -, -, -, rfl⟩ | ⟨_, _, _, _, -, -, -, rfl⟩⟩ := h.accept hi
  · simp [hi]
  · refine ⟨?_, .inl rfl⟩
    rcases hq with rfl | rfl | rfl | rfl <;> simp
  · simp [State.respond, State.takeCommand]
  all_goals simp [State.takeCommand]

/-- The rows whose W.status Cpl and Rsp are about to report (R196). -/
def SeqState.reports (q : SeqState) : Prop := q.inMessage = true ∨ q = .finalCpl ∨ q = .finalRsp

/-- A row that reports W.status comes from one that does, or is the Assert row that starts it (R198). -/
theorem SeqState.reports_of_nexts {q q' : SeqState} (h : q' ∈ q.nexts) (hq : q'.reports) :
    q.reports ∨ q' = .assertWr := by
  cases q with
  | fetchDesc =>
    obtain rfl | rfl | rfl : q' = .fetchDesc ∨ q' = .assertWr ∨ q' = .rejRsp := by simpa [SeqState.nexts] using h
    · simp [SeqState.reports, SeqState.inMessage] at hq
    · exact .inr rfl
    · simp [SeqState.reports, SeqState.inMessage] at hq
  | _ => simp_all [SeqState.nexts, SeqState.reports, SeqState.inMessage]

/-- No row leads to a response of CONFIGURE or RELEASE with ST_ETIMEDOUT (R231, R243). -/
theorem SeqState.nexts_ne_etimedout {q q' : SeqState} (h : q' ∈ q.nexts) :
    q' ≠ .cfgRsp .etimedout ∧ q' ≠ .relRsp .etimedout := by
  constructor <;> rintro rfl <;> cases q <;> simp [SeqState.nexts] at h

@[simp] theorem nextTransfer_status (s : State) : (nextTransfer s).w.status = s.w.status := by
  obtain ⟨_, _, _, _, h, -⟩ := nextTransfer_frame s
  rw [h]

@[simp] theorem afterTransfer_status (x : Transfer) (s : State) : (afterTransfer x s).w.status = s.w.status := by
  obtain ⟨_, _, _, _, h, -⟩ := afterTransfer_frame x s
  rw [h]

@[simp] theorem enterLoop_status (s : State) : (enterLoop s).w.status = s.w.status := by
  obtain ⟨_, _, _, _, h, -⟩ := selectTransfer_frame (s.setW { s.w with xi := 0#8 })
  rw [enterLoop, h]
  rfl

@[simp] theorem transferDelay_status (x : Transfer) (s : State) : (transferDelay x s).w.status = s.w.status := by
  obtain ⟨_, hw⟩ := delayStep_w x.delay s
  simp only [transferDelay]
  split <;> simp [hw]

@[simp] theorem assertWait_status (s : State) : (Machine.assertWait s).w.status = s.w.status := by
  have h := (waitStep_same .eot s).status
  simp only [Machine.assertWait]
  split <;> [split; skip] <;> simp [h, State.takeExit]

/-- The account of a PIO run keeps W.status, or sets it to ST_EIO for a short transfer (R192). -/
theorem transferPio_status (x : Transfer) (s : State) :
    (transferPio x s).w.status = s.w.status ∨ (transferPio x s).w.status = .eio := by
  have h := (pioStep_same x s.w.wl s).status
  simp only [transferPio, transferAccount]
  split
  · split
    · exact .inl (by simp [h])
    · exact .inr rfl
  · exact .inl h

theorem updateThen_status (us : List FieldUpdate) (next : State → State) (s : State)
    (hnext : ∀ u, (next u).w.status = u.w.status) : (updateThen us next s).w.status = s.w.status := by
  obtain ⟨v, r, -, e⟩ | ⟨-, -, e⟩ := updateThen_cases us next s
  · rw [e, hnext]; rfl
  · rw [e]; rfl

theorem transferConfWr_status (x : Transfer) (s : State) : (transferConfWr x s).w.status = s.w.status :=
  updateThen_status _ _ s fun _ => by simp [pioEntry]

theorem deassertWrite_status (s : State) : (deassertWrite s).w.status = s.w.status :=
  updateThen_status _ _ s fun _ => rfl

theorem assertWrite_status (s : State) : (assertWrite s).w.status = .ok :=
  updateThen_status assertUpdate (fun t => (t.setSeq .assertWait).setWait .sample)
    (s.setW { s.w with status := .ok, actual := 0#32 }) fun _ => rfl

theorem fetchDescriptorWord_status (s : State) : (fetchDescriptorWord s).w.status = s.w.status := by
  obtain ⟨-, e⟩ | ⟨-, e⟩ := fetchDescriptorWord_cases s <;> rw [e]

/-- A row after acceptance keeps W.status, or sets it to ST_OK (Assert) or ST_EIO (a short transfer) (R184, R192). -/
theorem EngineRow.status {s t : State} (h : EngineRow s t) (hi : s.ctl.seq ≠ .idle) :
    (s.ctl.seq ≠ .assertWr ∧ t.w.status = s.w.status) ∨ t.w.status = .ok ∨ t.w.status = .eio := by
  cases h with
  | wait h => exact absurd h hi
  | illFormed h => exact absurd h hi
  | configure h => exact absurd h hi
  | release h => exact absurd h hi
  | execute h => exact absurd h hi
  | cfgWr h hv => exact .inl ⟨by simp [h], by simp [configureWrite]⟩
  | cfgRsp st h => exact .inl ⟨by simp [h], rfl⟩
  | relRsp st h => exact .inl ⟨by simp [h], rfl⟩
  | fetchDesc h hv => exact .inl ⟨by simp [h], fetchDescriptorWord_status s⟩
  | rejCpl h => exact .inl ⟨by simp [h], rfl⟩
  | rejRsp h => exact .inl ⟨by simp [h], rfl⟩
  | assertWr h hv => exact .inr (.inl (assertWrite_status s))
  | assertWait h hv => exact .inl ⟨by simp [h], assertWait_status s⟩
  | assertLog h => exact .inl ⟨by simp [h], rfl⟩
  | loopEnd h hc hv =>
    exact .inl ⟨by rcases h with h | h | h | h <;> simp [h], deassertWrite_status (s.setSeq .deassertWr)⟩
  | @skipHead h x hc hl =>
    refine .inl ⟨by rcases h with h | h | h <;> simp [h], ?_⟩
    split <;> simp [enterDelay]
  | @head h x hc hl hv => exact .inl ⟨by simp [h], transferConfWr_status x (transferHead x s)⟩
  | @confWr h x hc hl hv => exact .inl ⟨by simp [h], transferConfWr_status x s⟩
  | @pio h x hc hl hv =>
    obtain e | e := transferPio_status x s
    · exact .inl ⟨by simp [h], e⟩
    · exact .inr (.inr e)
  | @delay h x hc => exact .inl ⟨by simp [h], transferDelay_status x s⟩
  | deassertWr h hv => exact .inl ⟨by simp [h], deassertWrite_status s⟩
  | finalCpl h => exact .inl ⟨by simp [h], rfl⟩
  | finalRsp h => exact .inl ⟨by simp [h], rfl⟩

/-- No row makes the statuses unreportable (R196, R243). -/
theorem EngineRow.statusReportable {s t : State} (h : EngineRow s t) (hs : s.StatusReportable) :
    t.StatusReportable := by
  by_cases hi : s.ctl.seq = .idle
  · obtain ⟨hseq, -⟩ := h.idle_effect hi
    rw [State.StatusReportable]
    generalize t.ctl.seq = q at hseq
    fin_cases hseq <;> simp [SeqState.inMessage]
  · have hseq := h.nextSeq hi
    obtain ⟨hcfg, hrel⟩ := SeqState.nexts_ne_etimedout hseq
    refine ⟨fun hq => ?_, hcfg, hrel⟩
    obtain ⟨hne, hkept⟩ | hok | heio := h.status hi
    · obtain hrep | hassert := SeqState.reports_of_nexts hseq hq
      · obtain hst | hst := hs.1 hrep
        · exact .inl (by rwa [hkept])
        · exact absurd hst hne
      · exact .inr hassert
    · exact .inl (by simp [hok])
    · exact .inl (by simp [heio])

/-- Settles O53: the event of a row after acceptance (`EngineRow.emits`), of an idle row, and the statuses. -/
theorem stepEmitsNoForbiddenEvent : Obligations.StepEmitsNoForbiddenEvent := by
  refine ⟨fun s t hr hs h => ⟨(step_row h).statusReportable hs, ?_⟩, fun s t hwf hm hi h => ?_, fun s t hi h =>
    ((step_row h).idle_effect hi).2⟩
  · by_cases hi : s.ctl.seq = .idle
    · obtain e | e := ((step_row h).idle_effect hi).2
      · exact ⟨[], e, by simp⟩
      · exact ⟨[.rsp .einval 0#2], e, by simp [Event.forbidden]⟩
    · obtain ⟨e, he, hok⟩ | ⟨he, -⟩ := (step_row h).emits hi
      · exact ⟨[e], he, by simpa using hok ⟨hr, hs⟩⟩
      · exact ⟨[], he, by simp⟩
  · obtain ⟨e, he, -⟩ | ⟨-, hdelay⟩ := (step_row h).emits hi
    · exact .inl ⟨e, he⟩
    · exact .inr (hdelay hwf hm)

end Sys2Proof.Machine
end

section
/-!
PROOFS. The statements of family 10_state: the fields of CONF and STAT.
-/
namespace Sys2Proof

open Machine

/-! ## The fields of CONF and STAT (R12, R23, R27, R125) -/

theorem toNat_bitsOnes {width : Nat} (h : width ≤ 32) : (bitsOnes width).toNat = 2 ^ width - 1 := by
  have hpow : 2 ^ width ≤ 2 ^ 32 := Nat.pow_le_pow_right (by decide) h
  rw [bitsOnes, BitVec.toNat_ofNat, Nat.mod_eq_of_lt (by omega)]

theorem toNat_bitsMask {lo width : Nat} (h : lo + width ≤ 32) :
    (bitsMask lo width).toNat = (2 ^ width - 1) * 2 ^ lo := by
  have hlt : (2 ^ width - 1) * 2 ^ lo < 2 ^ 32 := calc
    (2 ^ width - 1) * 2 ^ lo < 2 ^ width * 2 ^ lo :=
      Nat.mul_lt_mul_of_pos_right (Nat.sub_lt (by positivity) (by decide)) (by positivity)
    _ = 2 ^ (lo + width) := by rw [Nat.pow_add, Nat.mul_comm]
    _ ≤ 2 ^ 32 := Nat.pow_le_pow_right (by decide) h
  rw [bitsMask, BitVec.toNat_shiftLeft, toNat_bitsOnes (by omega), Nat.shiftLeft_eq, Nat.mod_eq_of_lt hlt]

theorem toNat_and_bitsOnes {width : Nat} (h : width ≤ 32) (x : Word) :
    (x &&& bitsOnes width).toNat = x.toNat % 2 ^ width := by
  rw [BitVec.toNat_and, toNat_bitsOnes h, Nat.and_two_pow_sub_one_eq_mod]

theorem toNat_getBits {lo width : Nat} (h : width ≤ 32) (v : Word) :
    (getBits lo width v).toNat = v.toNat / 2 ^ lo % 2 ^ width := by
  rw [getBits, toNat_and_bitsOnes h, BitVec.toNat_ushiftRight, Nat.shiftRight_eq_div_pow]

theorem getLsbD_getBits {i : Nat} (hi : i < 32) (lo width : Nat) (v : Word) :
    (getBits lo width v).getLsbD i = (v.getLsbD (lo + i) && decide (i < width)) := by
  rw [getBits, BitVec.getLsbD_and, BitVec.getLsbD_ushiftRight, getLsbD_bitsOnes hi]

/-- Getting the field that was set gives the value, cut to the field (R12, R125). -/
theorem getBits_setBits_same {lo width : Nat} (h : lo + width ≤ 32) (v x : Word) :
    getBits lo width (setBits lo width v x) = x &&& bitsOnes width := by
  refine BitVec.eq_of_getLsbD_eq fun i hi => ?_
  rw [getLsbD_getBits hi, BitVec.getLsbD_and, getLsbD_bitsOnes hi]
  by_cases hw : i < width
  · rw [getLsbD_setBits (by omega), if_pos (by omega), Nat.add_sub_cancel_left]
  · simp [hw]

/-- Setting a field leaves every field beside it (R12, R125). -/
theorem getBits_setBits_disjoint {lo width lo' width' : Nat} (h' : lo' + width' ≤ 32)
    (h : lo' + width' ≤ lo ∨ lo + width ≤ lo') (v x : Word) :
    getBits lo' width' (setBits lo width v x) = getBits lo' width' v := by
  refine BitVec.eq_of_getLsbD_eq fun i hi => ?_
  rw [getLsbD_getBits hi, getLsbD_getBits hi]
  by_cases hw : i < width'
  · rw [getLsbD_setBits (by omega), if_neg (by omega)]
  · simp [hw]

/-- A second set of a field wins (R12, R125). -/
theorem setBits_setBits (lo width : Nat) (v x y : Word) :
    setBits lo width (setBits lo width v x) y = setBits lo width v y := by
  refine BitVec.eq_of_getLsbD_eq fun i hi => ?_
  simp only [getLsbD_setBits hi]
  split <;> rfl

theorem ConfField.lo_add_width_le (f : ConfField) : f.lo + f.width ≤ 32 := by
  cases f <;> decide

/-- No two fields of CONF share a bit (R23). -/
theorem ConfField.disjoint {f g : ConfField} (h : g ≠ f) : g.lo + g.width ≤ f.lo ∨ f.lo + f.width ≤ g.lo := by
  cases f <;> cases g <;> simp_all [ConfField.lo, ConfField.width]

theorem getField_setField_same (f : ConfField) (v x : Word) :
    getField f (setField f v x) = x &&& bitsOnes f.width :=
  getBits_setBits_same f.lo_add_width_le v x

theorem getField_setField_other {f g : ConfField} (h : g ≠ f) (v x : Word) :
    getField g (setField f v x) = getField g v :=
  getBits_setBits_disjoint g.lo_add_width_le (ConfField.disjoint h) v x

theorem StatFlag.bit_lt (b : StatFlag) : b.bit + 1 ≤ 32 := by
  cases b <;> decide

/-- No two flags of STAT share a bit (R27). -/
theorem StatFlag.bit_injective {f g : StatFlag} (h : f.bit = g.bit) : f = g := by
  cases f <;> cases g <;> simp_all [StatFlag.bit]

theorem toNat_getFlag (b : StatFlag) (v : Word) : (getFlag b v).toNat = v.toNat / 2 ^ b.bit % 2 :=
  toNat_getBits (width := 1) (by decide) v

/-- A flag is set iff its field is 1 (R141, R125). -/
theorem StatFlag.isSet_iff (b : StatFlag) (v : Word) : b.isSet v = true ↔ getFlag b v = 1#32 := by
  rw [StatFlag.isSet, BitVec.getLsbD, Nat.testBit_eq_decide_div_mod_eq, decide_eq_true_iff, ← toNat_getFlag,
    BitVec.toNat_eq]
  rfl

/-- Settles O14: each field is a field at its place, the laws are those of any two disjoint places, and the masks are
numbers. -/
theorem fieldAccessorsObeyTheirLaws : Obligations.FieldAccessorsObeyTheirLaws := by
  refine ⟨fun f g v x y => ?_, fun f g v x y => ?_, ?_⟩
  · have hf := f.lo_add_width_le
    refine ⟨toNat_getBits (by omega) v, toNat_bitsMask hf, ?_, fun h => getField_setField_other h v x,
      setBits_setBits _ _ v x y⟩
    rw [getField_setField_same, toNat_and_bitsOnes (by omega)]
  · have hf := f.bit_lt
    refine ⟨toNat_getFlag f v, ?_, ?_, fun h => ?_, setBits_setBits _ _ v x y, f.isSet_iff v⟩
    · simp [StatFlag.mask, toNat_bitsMask hf]
    · rw [getFlag, setFlag, getBits_setBits_same hf, toNat_and_bitsOnes (by decide), pow_one]
    · have hne : g.bit ≠ f.bit := fun e => h (StatFlag.bit_injective e)
      exact getBits_setBits_disjoint g.bit_lt (by omega) v x
  · decide

end Sys2Proof
end

section
/-!
PROOFS. The statements of family 10_state: the record table under a step, and the configurations.
-/
namespace Sys2Proof.Machine

/-! ## What a step does to the record table and to HW_CONF -/

/-- The records a row can put into slot `k` (R122, R221, R222, R228). -/
inductive RecChange (s : State) (k : Slot) : Rec → Prop
  | reconfigured (cs : BitVec 2) {b : BitVec 6} (hb : wordLengthLegal b = true) :
      RecChange s k { s.recs.get k with cs := cs, wordLen := b }
  | created {p : BitVec 8} (hi : s.ctl.seq = .idle) (hp : s.recs.lookup p = none) (cs : BitVec 2) {b : BitVec 6}
      (hb : wordLengthLegal b = true) :
      RecChange s k { s.recs.get k with
        valid := true, peer := p, base := s.windowBase, phys := s.windowPhys, cs := cs, wordLen := b
        cacheValid := false, shadowValid := false }
  | released : RecChange s k { s.recs.get k with valid := false }
  | written {v : Word} (hk : k = s.w.slot) (hv : confRow s = some v) :
      RecChange s k { s.recs.get k with cache := v, cacheValid := true, shadow := v, shadowValid := true }

/-- A row changes at most one slot of the record table. -/
theorem EngineRow.recs {s t : State} (h : EngineRow s t) :
    t.recs = s.recs ∨ ∃ k r, RecChange s k r ∧ t.recs = s.recs.set k r := by
  by_cases hi : s.ctl.seq = .idle
  · obtain rfl | ⟨-, ⟨q, -, rfl⟩ | rfl | ⟨_, c, _, k, hb, -, rfl⟩ | ⟨_, c, _, k, hb, hp, -, rfl⟩ | ⟨_, k, -, rfl⟩ |
      ⟨_, _, _, _, -, -, -, rfl⟩ | ⟨_, _, _, _, -, -, -, rfl⟩⟩ := h.accept hi
    · exact .inl rfl
    · exact .inl rfl
    · exact .inl rfl
    · exact .inr ⟨k, _, .reconfigured c hb, rfl⟩
    · exact .inr ⟨k, _, .created hi hp c hb, rfl⟩
    · exact .inr ⟨k, _, .released, rfl⟩
    · exact .inl rfl
    · exact .inl rfl
  · have heff := h.conf hi
    unfold ConfEffect at heff
    cases hv : confRow s with
    | none => rw [hv] at heff; exact .inl heff.1
    | some v => rw [hv] at heff; exact .inr ⟨_, _, .written rfl hv, heff.recs⟩

/-- What holds of every record before a row, and of every record a row puts into a slot, holds of every record after. -/
theorem EngineRow.forall_recs {s t : State} (h : EngineRow s t) {P : Slot → Rec → Prop}
    (hold : ∀ k, P k (s.recs.get k)) (hnew : ∀ k r, RecChange s k r → P k r) (k : Slot) : P k (t.recs.get k) := by
  obtain e | ⟨j, r, hr, e⟩ := h.recs
  · rw [e]; exact hold k
  · rw [e, Recs.get_set]
    split
    · next hjk => rw [hjk]; exact hnew j r hr
    · exact hold k

/-- What no idle row changes: HW_CONF, the window, and the control tuple but for SEQ. -/
theorem EngineRow.accept_frame {s t : State} (h : EngineRow s t) (hi : s.ctl.seq = .idle) :
    t.hwConf = s.hwConf ∧ t.hwConfValid = s.hwConfValid ∧ t.windowBase = s.windowBase ∧ t.attached = s.attached ∧
      t.ctl = { s.ctl with seq := t.ctl.seq } := by
  obtain rfl | ⟨-, ⟨_, -, rfl⟩ | rfl | ⟨_, _, _, _, -, -, rfl⟩ | ⟨_, _, _, _, -, -, -, rfl⟩ | ⟨_, _, -, rfl⟩ |
    ⟨_, _, _, _, -, -, -, rfl⟩ | ⟨_, _, _, _, -, -, -, rfl⟩⟩ := h.accept hi <;> exact ⟨rfl, rfl, rfl, rfl, rfl⟩

/-- HW_CONF follows the write of CONF of a row, and only that (R126). -/
theorem EngineRow.hwConf {s t : State} (h : EngineRow s t) :
    (t.hwConf = s.hwConf ∧ t.hwConfValid = s.hwConfValid) ∨ confRow s = some t.hwConf := by
  by_cases hi : s.ctl.seq = .idle
  · obtain ⟨hconf, hvalid, -⟩ := h.accept_frame hi
    exact .inl ⟨hconf, hvalid⟩
  · have heff := h.conf hi
    unfold ConfEffect at heff
    cases hv : confRow s with
    | none => rw [hv] at heff; exact .inl heff.2
    | some v => rw [hv] at heff; exact .inr (by rw [heff.hwConf])

/-! ## What the rows write to CONF -/

theorem wordLengthLegal_iff (w : BitVec 6) : wordLengthLegal w = true ↔ 4 ≤ w.toNat ∧ w.toNat ≤ 32 := by
  simp [wordLengthLegal]

/-- The WL field holds a legal word length, less one (R24). -/
theorem toNat_getField_wl {w : BitVec 6} (h : wordLengthLegal w = true) (v : Word) :
    (getField .wl (setField .wl v (wlValue w))).toNat = w.toNat - 1 := by
  obtain ⟨hlo, hhi⟩ := (wordLengthLegal_iff w).mp h
  rw [getField_setField_same, toNat_and_bitsOnes (by decide), wlValue, BitVec.toNat_sub, BitVec.toNat_setWidth]
  simp only [ConfField.width, BitVec.toNat_ofNat]
  omega

/-- The TRM field holds the transfer mode (R25, R190). -/
theorem getField_trm (txp : Bool) (v : Word) : getField .trm (setField .trm v (trmValue txp)) = trmValue txp := by
  rw [getField_setField_same]
  cases txp <;> decide

theorem trmValue_ne_reserved (txp : Bool) : trmValue txp ≠ 3#32 := by
  cases txp <;> decide

theorem getField_setField_zero (f : ConfField) (v : Word) : getField f (setField f v 0#32) = 0#32 := by
  rw [getField_setField_same, BitVec.zero_and]

theorem getField_zero (f : ConfField) : getField f 0#32 = 0#32 := by
  simp [getField, getBits]

theorem wordLengthLegal_effective {x : Transfer} {recLen : BitVec 6} (hx : x.wellFormed recLen = true)
    (hl : wordLengthLegal recLen = true) : wordLengthLegal (effectiveWordLength x.bpw recLen) = true := by
  obtain ⟨hover, -⟩ : overrideLegal x.bpw = true ∧ _ := by simpa only [Transfer.wellFormed, Bool.and_eq_true] using hx
  unfold effectiveWordLength
  split
  · exact hl
  · next hne => simpa [overrideLegal, hne] using hover

/-- SPIEN and CSIDX are no fields that a clean value constrains. -/
theorem confClean_setField {f : ConfField} (hf : f = .spien ∨ f = .csidx) (v x : Word) :
    confClean (setField f v x) = confClean v := by
  rcases hf with rfl | rfl <;> simp [confClean, getField_setField_other]

theorem confClean_transferUpdate {v : Word} (h : confClean v = true) (txp : Bool) {w : BitVec 6}
    (hw : wordLengthLegal w = true) (cs : BitVec 2) : confClean (applyUpdates (transferUpdate txp w cs) v) = true := by
  obtain ⟨hlo, hhi⟩ := (wordLengthLegal_iff w).mp hw
  have hwl : 3 ≤ w.toNat - 1 ∧ w.toNat - 1 ≤ 31 := by omega
  simp only [transferUpdate, applyUpdates, List.foldl_cons, List.foldl_nil, confClean_setField (.inr rfl)]
  simp [confClean, getField_setField_other, toNat_getField_wl hw, getField_trm, trmValue_ne_reserved, hwl] at h ⊢
  grind

theorem confClean_confInit {w : BitVec 6} (hw : wordLengthLegal w = true) (cs : BitVec 2) :
    confClean (confInit w cs) = true := by
  obtain ⟨hlo, hhi⟩ := (wordLengthLegal_iff w).mp hw
  have hwl : 3 ≤ w.toNat - 1 ∧ w.toNat - 1 ≤ 31 := by omega
  simp only [confInit, applyUpdates, List.foldl_cons, List.foldl_nil, Config.confInitOther,
    confClean_setField (.inl rfl)]
  simp [confClean, getField_setField_other, toNat_getField_wl hw, getField_setField_zero, getField_zero, hwl]

/-- A CONF.UPDATE that writes with no read half done writes an update of the set cache (R124). -/
theorem confValue_cached {us : List FieldUpdate} {s : State} {v : Word} (hu : s.ctl.upd = .none)
    (h : confValue us s = some v) : s.record.cacheValid = true ∧ v = applyUpdates us s.record.cache := by
  obtain ⟨hc, hv⟩ : s.record.cacheValid = true ∧ applyUpdates us s.record.cache = v := by simpa [confValue, hu] using h
  exact ⟨hc, hv.symm⟩

/-- The updates of CONF that the rows of a message make (R184, R190, R195). -/
inductive MessageUpdate (s : State) : List FieldUpdate → Prop
  | assert : MessageUpdate s assertUpdate
  | deassert : MessageUpdate s deassertUpdate
  | transfer (x : Transfer) (hx : x.wellFormed s.record.wordLen = true) :
      MessageUpdate s (transferUpdate x.txp (effectiveWordLength x.bpw s.record.wordLen) s.record.cs)

/-- Every value a row writes to CONF: the initial value, or what an update of the message's makes (R184, R190, R195,
R223). -/
theorem confRow_cases {s : State} {v : Word} (hm : s.MessageChecked) (h : confRow s = some v) :
    (s.ctl.seq = .cfgWr ∧ v = confInit s.record.wordLen s.record.cs) ∨
      (s.ctl.seq.inMessage = true ∧ ∃ us, MessageUpdate s us ∧ confValue us s = some v) := by
  obtain ⟨-, hmsg⟩ := hm
  have hwf {x : Transfer} (hq : s.ctl.seq.inMessage = true) (hx : s.currentTransfer = some x) :
      x.wellFormed s.record.wordLen = true := by
    obtain ⟨-, hall, -⟩ := hmsg hq
    exact (hall x (currentTransfer_mem hx)).1
  cases hq : s.ctl.seq with
  | cfgWr => simp only [confRow, hq, Option.some.injEq] at h; exact .inl ⟨rfl, h.symm⟩
  | assertWr => simp only [confRow, hq] at h; exact .inr ⟨rfl, _, .assert, h⟩
  | deassertWr => simp only [confRow, hq] at h; exact .inr ⟨rfl, _, .deassert, h⟩
  | xferPio => simp [confRow, hq] at h; exact .inr ⟨rfl, _, .deassert, h.2⟩
  | xferDelay => simp [confRow, hq] at h; exact .inr ⟨rfl, _, .deassert, h.2⟩
  | xferHead =>
    cases hx : s.currentTransfer with
    | none => simp only [confRow, hq, hx] at h; exact .inr ⟨rfl, _, .deassert, h⟩
    | some x =>
      simp [confRow, hq, hx] at h
      exact .inr ⟨rfl, _, .transfer x (hwf (by rw [hq]; rfl) hx), h.2⟩
  | xferConfWr =>
    cases hx : s.currentTransfer with
    | none => simp only [confRow, hq, hx] at h; exact .inr ⟨rfl, _, .deassert, h⟩
    | some x =>
      obtain ⟨-, -, hrow, -⟩ := hmsg (by rw [hq]; rfl)
      obtain ⟨y, hy, -, hwl⟩ := hrow (.inl hq)
      obtain rfl : y = x := by simpa [hx] using hy.symm
      simp [confRow, hq, hx, hwl] at h
      exact .inr ⟨rfl, _, .transfer y (hwf (by rw [hq]; rfl) hx), h.2⟩
  | _ => simp [confRow, hq] at h

theorem confClean_messageUpdate {s : State} {us : List FieldUpdate} (h : MessageUpdate s us)
    (hl : wordLengthLegal s.record.wordLen = true) {v : Word} (hv : confClean v = true) :
    confClean (applyUpdates us v) = true := by
  cases h with
  | assert => exact (confClean_setField (.inl rfl) v 1#32).trans hv
  | deassert => exact (confClean_setField (.inl rfl) v 0#32).trans hv
  | transfer x hx => exact confClean_transferUpdate hv x.txp (wordLengthLegal_effective hx hl) s.record.cs

/-- What a row writes to CONF is clean (R104). -/
theorem confRow_clean {s : State} {v : Word} (hr : s.RecordsReady) (hl : s.WordLengthsLegal) (hm : s.MessageChecked)
    (hc : s.ConfsClean) (h : confRow s = some v) : confClean v = true := by
  obtain ⟨hu, hvalid, -⟩ := hr
  obtain ⟨hq, rfl⟩ | ⟨hq, us, hus, hv⟩ := confRow_cases hm h
  · exact confClean_confInit (hl _ (hvalid (by rw [hq]; rfl))) _
  · have hrec : s.record.valid = true := hvalid (SeqState.usesRecord_of_inMessage hq)
    obtain ⟨hcache, rfl⟩ := confValue_cached hu hv
    exact confClean_messageUpdate hus (hl _ hrec) (hc.1 _ hrec hcache)

/-! ## The configurations stay clean (R23, R104, R290) -/

theorem EngineRow.wordLengthsLegal {s t : State} (h : EngineRow s t) (hl : s.WordLengthsLegal) :
    t.WordLengthsLegal := by
  refine h.forall_recs (P := fun _ r => r.valid = true → wordLengthLegal r.wordLen = true) hl fun k r hr => ?_
  cases hr with
  | reconfigured cs hb => exact fun _ => hb
  | created hi hp cs hb => exact fun _ => hb
  | released => simp
  | written hk hv => exact hl k

theorem EngineRow.confsClean {s t : State} (h : EngineRow s t) (hr : s.RecordsReady) (hl : s.WordLengthsLegal)
    (hm : s.MessageChecked) (hc : s.ConfsClean) : t.ConfsClean := by
  constructor
  · refine h.forall_recs (P := fun _ r => r.valid = true → r.cacheValid = true → confClean r.cache = true) hc.1
      fun k r hchange => ?_
    cases hchange with
    | reconfigured cs hb => exact hc.1 k
    | created hi hp cs hb => simp
    | released => simp
    | written hk hv => exact fun _ _ => confRow_clean hr hl hm hc hv
  · obtain ⟨e, ev⟩ | hv := h.hwConf
    · rw [e, ev]; exact hc.2
    · exact fun _ => confRow_clean hr hl hm hc hv

/-- Settles O52: no row makes a word length illegal or writes an unclean value to CONF. -/
theorem stepKeepsConfigurationsClean : Obligations.StepKeepsConfigurationsClean :=
  fun _ _ hr hl hm hc h => ⟨(step_row h).wordLengthsLegal hl, (step_row h).confsClean hr hl hm hc⟩

end Sys2Proof.Machine
end

section
/-!
PROOFS. The statements of family 10_state: what every step keeps of the record table, the window and the control tuple.
-/
namespace Sys2Proof.Machine

/-! ## One record per peer (R34) -/

/-- A record a row puts into a slot belongs to the peer of the slot's old valid record, or to one that had none. -/
theorem RecChange.peer {s : State} {k : Slot} {r : Rec} (h : RecChange s k r) (hv : r.valid = true) :
    ((s.recs.get k).valid = true ∧ r.peer = (s.recs.get k).peer) ∨
      ∀ j, (s.recs.get j).valid = true → (s.recs.get j).peer ≠ r.peer := by
  cases h with
  | reconfigured cs hb => exact .inl ⟨hv, rfl⟩
  | created hi hp cs hb => exact .inr fun j => Recs.lookup_none hp j
  | released => simp at hv
  | written hk hw => exact .inl ⟨hv, rfl⟩

theorem EngineRow.peersDistinct {s t : State} (h : EngineRow s t) (hs : s.PeersDistinct) : t.PeersDistinct := by
  obtain e | ⟨k, r, hr, e⟩ := h.recs
  · unfold State.PeersDistinct
    rwa [e]
  -- the changed slot against another one
  have hother {j : Slot} (hjk : j ≠ k) (hj : (s.recs.get j).valid = true) (hv : r.valid = true) :
      (s.recs.get j).peer ≠ r.peer := by
    obtain ⟨hk, hp⟩ | hnew := hr.peer hv
    · exact fun heq => hjk (hs j k hj hk (heq.trans hp))
    · exact hnew j hj
  intro i j hi hj hp
  simp only [e, Recs.get_set] at hi hj hp
  by_cases hik : i = k <;> by_cases hjk : j = k <;> simp only [hik, hjk, if_true, if_false] at hi hj hp
  · rw [hik, hjk]
  · exact absurd hp.symm (hother hjk hj hi)
  · exact absurd hp (hother hik hi hj)
  · exact hs i j hi hj hp

theorem Recs.lookup_eq_none_iff {rs : Recs} {p : BitVec 8} :
    rs.lookup p = none ↔ ∀ k : Slot, (rs.get k).valid = true → (rs.get k).peer ≠ p := by
  refine ⟨fun h k => Recs.lookup_none h k, fun h => ?_⟩
  cases hk : rs.lookup p with
  | none => rfl
  | some k =>
    obtain ⟨hv, hp⟩ := Recs.lookup_some hk
    exact absurd hp (h k hv)

theorem State.PeersDistinct.lookup_eq_some_iff {s : State} (hs : s.PeersDistinct) {p : BitVec 8} {k : Slot} :
    s.recs.lookup p = some k ↔ (s.recs.get k).valid = true ∧ (s.recs.get k).peer = p := by
  refine ⟨Recs.lookup_some, fun ⟨hv, hp⟩ => ?_⟩
  cases hj : s.recs.lookup p with
  | none => exact absurd hp (Recs.lookup_none hj k hv)
  | some j =>
    obtain ⟨hvj, hpj⟩ := Recs.lookup_some hj
    rw [hs j k hvj hv (hpj.trans hp.symm)]

theorem reset_invalid (k : Slot) : (State.reset.recs.get k).valid = false := by
  cases k <;> rfl

theorem reset_peersDistinct : State.reset.PeersDistinct := fun j _ hj => by
  simp [reset_invalid j] at hj

/-- Settles O16: the one slot a row changes belongs to its old peer or to a peer without a record. -/
theorem noTwoRecordsAliasOnePeer : Obligations.NoTwoRecordsAliasOnePeer :=
  ⟨reset_peersDistinct, fun _ _ hs h => (step_row h).peersDistinct hs, fun _ _ _ hs => hs.lookup_eq_some_iff,
    fun _ _ => Recs.lookup_eq_none_iff⟩

/-! ## The window base (R37, R62) -/

/-- The row of the descriptor fetch is one fetch step. -/
theorem EngineRow.fetch_eq {s t : State} (h : EngineRow s t) (hf : s.ctl.seq = .fetchDesc) :
    t = fetchDescriptorWord s := by
  cases h with
  | fetchDesc => rfl
  | _ => simp_all

theorem fetchDescriptorWord_host (s : State) :
    (fetchDescriptorWord s).windowBase = s.windowBase ∧ (fetchDescriptorWord s).attached = s.attached ∧
      (fetchDescriptorWord s).port = s.port := by
  obtain ⟨-, e⟩ | ⟨-, e⟩ := fetchDescriptorWord_cases s <;> rw [e] <;> exact ⟨rfl, rfl, rfl⟩

/-- No row after acceptance touches what the host supplies: the window, and the command at the port (R37, R50). -/
theorem EngineRow.host {s t : State} (h : EngineRow s t) (hi : s.ctl.seq ≠ .idle) :
    t.windowBase = s.windowBase ∧ t.attached = s.attached ∧ t.port = s.port := by
  by_cases hf : s.ctl.seq = .fetchDesc
  · rw [h.fetch_eq hf]
    exact fetchDescriptorWord_host s
  · have hframe := h.frame hi hf
    exact ⟨hframe.windowBase, hframe.attached, hframe.port⟩

/-- No row moves the window. -/
theorem EngineRow.window {s t : State} (h : EngineRow s t) :
    t.windowBase = s.windowBase ∧ t.attached = s.attached := by
  by_cases hi : s.ctl.seq = .idle
  · obtain ⟨-, -, hbase, hattached, -⟩ := h.accept_frame hi
    exact ⟨hbase, hattached⟩
  · obtain ⟨hbase, hattached, -⟩ := h.host hi
    exact ⟨hbase, hattached⟩

/-- The other agents' moves keep the bases copied: the window is attached once, before any record. -/
theorem arrive_basesCopied {s : State} (hs : s.BasesCopied) : s.arrive.BasesCopied := by
  obtain ⟨hbase, hidle⟩ := hs
  by_cases ha : s.attached = true
  · exact ⟨fun k hk => (hbase k hk).trans (arrive_windowBase_of ha).symm, fun h => by simp [arrive_attached_of ha] at h⟩
  · obtain ⟨hq, hnone⟩ := hidle (by simpa using ha)
    exact ⟨fun k hk => by simp [hnone k] at hk, fun _ => ⟨hq, hnone⟩⟩

theorem EngineRow.base_eq {s t : State} (h : EngineRow s t)
    (hs : ∀ k : Slot, (s.recs.get k).valid = true → (s.recs.get k).base = s.windowBase) (k : Slot) :
    (t.recs.get k).valid = true → (t.recs.get k).base = t.windowBase := by
  rw [h.window.1]
  refine h.forall_recs (P := fun _ r => r.valid = true → r.base = s.windowBase) hs (fun k r hr => ?_) k
  cases hr with
  | reconfigured cs hb => exact hs k
  | created hi hp cs hb => exact fun _ => rfl
  | released => simp
  | written hk hv => exact hs k

/-- Settles O17: the record a row creates copies the base, and an unattached engine only waits (log 5). -/
theorem stepKeepsBasesCopied : Obligations.StepKeepsBasesCopied := by
  intro s t hs h
  obtain ⟨hbase, hidle⟩ := arrive_basesCopied hs
  obtain ⟨hlaunch, -, -⟩ := step_next_iff.mp h
  have hrow := step_row h
  refine ⟨hrow.base_eq hbase, fun ha => ?_⟩
  rw [hrow.window.2] at ha
  obtain ⟨hq, hnone⟩ := hidle ha
  have hport : s.arrive.port = none := by
    simpa [launchRefusal, ha, show s.ctl.seq = .idle from hq] using hlaunch
  obtain rfl | ⟨hne, -⟩ := hrow.accept hq
  · exact ⟨hq, hnone⟩
  · exact absurd hport hne

/-! ## The control tuple (R43) -/

/-- PIO, WAIT and DLY are NONE. -/
def Ctl.quiet (c : Ctl) : Prop := c.pio = .none ∧ c.wait = .none ∧ c.dly = .none

/-- The control states in which the tuple is quiet (R43). -/
def SeqState.still : SeqState → Bool
  | .xferHead | .xferPio | .xferDelay | .assertWait => false
  | .idle | .cfgWr | .cfgRsp _ | .relRsp _ | .fetchDesc | .rejCpl | .rejRsp | .assertWr | .assertLog | .xferConfWr
  | .deassertWr | .finalCpl | .finalRsp => true

theorem Ctl.wf.quiet {c : Ctl} (h : c.wf) (hq : c.seq.still = true) : c.quiet := by
  obtain ⟨-, hpio, hdly, hwait⟩ := h
  have hp : c.pio = .none := not_not.mp fun hne => by simp [hpio.mp hne, SeqState.still] at hq
  have hd : c.dly = .none := not_not.mp fun hne => by simp [hdly.mp hne, SeqState.still] at hq
  have hw : c.wait = .none := not_not.mp fun hne => by
    obtain h | h := hwait.mp hne
    · simp [h, SeqState.still] at hq
    · simp [hp, PioState.waits] at h
  exact ⟨hp, hw, hd⟩

theorem Ctl.quiet.wf {c : Ctl} (h : c.quiet) (hq : c.seq.still = true) : c.wf := by
  obtain ⟨hp, hw, hd⟩ := h
  have hne (q : SeqState) (h : q.still = false) : c.seq ≠ q := fun e => by simp [e, h] at hq
  exact ⟨hne .xferHead rfl, by simp [hp, hne .xferPio rfl], by simp [hd, hne .xferDelay rfl],
    by simp [hp, hw, PioState.waits, hne .assertWait rfl]⟩

/-- A quiet tuple after the selection of a transfer: De-assert, a delay about to start, or a Configuration update. -/
theorem Ctl.quiet.wf_selected {c : Ctl} (h : c.quiet) {q : SeqState} {d : DlyState}
    (hq : (q = .deassertWr ∧ d = c.dly) ∨ (q = .xferDelay ∧ d = .sample) ∨ (q = .xferConfWr ∧ d = c.dly)) :
    Ctl.wf { c with seq := q, dly := d } := by
  obtain ⟨hp, hw, hd⟩ := h
  rcases hq with ⟨rfl, rfl⟩ | ⟨rfl, rfl⟩ | ⟨rfl, rfl⟩ <;> simp [Ctl.wf, hp, hw, hd, PioState.waits]

theorem nextTransfer_wf {s : State} (h : s.ctl.quiet) : (nextTransfer s).ctl.wf := by
  obtain ⟨_, _, _, _, e, hq⟩ := nextTransfer_frame s
  rw [e]; exact h.wf_selected hq

theorem afterTransfer_wf (x : Transfer) {s : State} (h : s.ctl.quiet) : (afterTransfer x s).ctl.wf := by
  obtain ⟨_, _, _, _, e, hq⟩ := afterTransfer_frame x s
  rw [e]; exact h.wf_selected hq

theorem enterLoop_wf {s : State} (h : s.ctl.quiet) : (enterLoop s).ctl.wf := by
  obtain ⟨_, _, _, _, e, hq⟩ := selectTransfer_frame (s.setW { s.w with xi := 0#8 })
  rw [enterLoop, e]; exact h.wf_selected hq

/-- WAIT runs exactly in the PIO rows that wait. -/
def Ctl.pioWaits (c : Ctl) : Prop := c.wait ≠ .none ↔ c.pio.waits = true

theorem gotoPio_pioWaits (p : PioState) {s : State} (h : s.ctl.wait = .none) : (gotoPio p s).ctl.pioWaits := by
  rw [gotoPio_ctl]
  cases p <;> simp [Ctl.pioWaits, PioState.waits, h]

/-- A PIO row that waits keeps WAIT running while it stays. -/
theorem pioWait_pioWaits (b : StatFlag) {ok timeout : State → State} {s : State} (hs : s.ctl.pio.waits = true)
    (hok : ∀ u : State, u.ctl.wait = .none → (ok u).ctl.pioWaits)
    (htimeout : ∀ u : State, u.ctl.wait = .none → (timeout u).ctl.pioWaits) :
    (pioWait b ok timeout s).ctl.pioWaits := by
  simp only [pioWait]
  split
  · next hw =>
    split
    · exact hok _ hw
    · exact htimeout _ hw
  · next hw => simp [Ctl.pioWaits, hw, hs]

/-- A run sets WAIT going exactly in the rows that wait (R43, R167). -/
theorem pioStep_pioWaits (x : Transfer) (wl : BitVec 6) {s : State} (h : s.ctl.pioWaits) :
    (pioStep x wl s).ctl.pioWaits := by
  have hnone (hp : s.ctl.pio.waits = false) : s.ctl.wait = .none := not_not.mp fun hne => by
    simp [h.mp hne] at hp
  have hbreak (u : State) (_ : u.ctl.wait = .none) : (u.takeExit .pioBreak).ctl.pioWaits := by
    simp [Ctl.pioWaits, State.takeExit, PioState.waits]
  unfold pioStep
  split <;> rename_i hp
  · exact gotoPio_pioWaits _ (hnone (by rw [hp]; rfl))
  · exact pioWait_pioWaits _ (by rw [hp]; rfl) (fun u hw => by simp [Ctl.pioWaits, hw, PioState.waits]) hbreak
  · simp [Ctl.pioWaits, pioTxMemRd, hnone (by rw [hp]; rfl), PioState.waits]
  · exact gotoPio_pioWaits _ (by simpa using hnone (by rw [hp]; rfl))
  · exact gotoPio_pioWaits _ (by simpa using hnone (by rw [hp]; rfl))
  · exact pioWait_pioWaits _ (by rw [hp]; rfl) (fun u hw => by simp [Ctl.pioWaits, hw, PioState.waits]) hbreak
  · simp [Ctl.pioWaits, pioRxRd, hnone (by rw [hp]; rfl), PioState.waits]
  · exact gotoPio_pioWaits _ (by simpa using hnone (by rw [hp]; rfl))
  · exact pioWait_pioWaits _ (by rw [hp]; rfl) (fun u hw => by simp [Ctl.pioWaits, pioReturn, hw, PioState.waits])
      (fun u hw => by simp [Ctl.pioWaits, hw, PioState.waits])
  · simp [Ctl.pioWaits, pioReturn, hnone (by rw [hp]; rfl), PioState.waits]

/-- Changing SEQ alone in a quiet tuple, to a state in which it is quiet. -/
theorem Ctl.quiet.wf_seq {c : Ctl} (h : c.quiet) {q : SeqState} (hq : q.still = true) : Ctl.wf { c with seq := q } :=
  Ctl.quiet.wf (c := { c with seq := q }) h hq

/-- In the PIO row a tuple is well-formed iff a run goes on, its waits do, and there is no delay. -/
theorem Ctl.wf_xferPio {c : Ctl} (hq : c.seq = .xferPio) (hp : c.pio ≠ .none) (hd : c.dly = .none)
    (hw : c.pioWaits) : c.wf := by
  unfold Ctl.pioWaits at hw
  simp [Ctl.wf, hq, hp, hd, hw]

theorem pioEntry_wf (x : Transfer) (wl : BitVec 6) {s : State} (hq : s.ctl.seq = .xferPio) (hd : s.ctl.dly = .none)
    (hw : s.ctl.wait = .none) : (pioEntry x wl s).ctl.wf := by
  refine Ctl.wf_xferPio (by simpa [pioEntry] using hq) ?_ (by simpa [pioEntry] using hd) (gotoPio_pioWaits _ hw)
  rw [pioEntry_eq]
  obtain h | h | h := pioStart_cases x (unitCount x.len (unitBytes wl)) <;> simp [h]

/-- A row that is a CONF.UPDATE moves the tuple as what follows its write does. -/
theorem updateThen_wf (us : List FieldUpdate) {next : State → State} {s : State} (hs : s.ctl.quiet)
    (hq : s.ctl.seq.still = true) (hnext : ∀ u : State, u.ctl.quiet → (next u).ctl.wf) :
    (updateThen us next s).ctl.wf := by
  obtain ⟨v, r, -, e⟩ | ⟨-, -, e⟩ := updateThen_cases us next s
  · rw [e]; exact hnext _ hs
  · rw [e]; exact hs.wf hq

theorem transferConfWr_wf (x : Transfer) {s : State} (hs : s.ctl.quiet) (hq : s.ctl.seq.still = true) :
    (transferConfWr x s).ctl.wf :=
  updateThen_wf _ hs hq fun _ ⟨_, hw, hd⟩ => pioEntry_wf _ _ rfl hd hw

theorem assertWait_wf {s : State} (h : s.ctl.wf) (hq : s.ctl.seq = .assertWait) : (Machine.assertWait s).ctl.wf := by
  obtain ⟨-, hpio, hdly, -⟩ := h
  have hp : s.ctl.pio = .none := by simpa [hq] using hpio
  have hd : s.ctl.dly = .none := by simpa [hq] using hdly
  simp only [Machine.assertWait]
  split
  · next hw =>
    have hquiet : (waitStep .eot s).ctl.quiet := ⟨by simpa using hp, hw, by simpa using hd⟩
    split
    · exact enterLoop_wf hquiet
    · exact hquiet.wf_seq rfl
  · next hw => simp [Ctl.wf, hp, hd, hw, hq]

theorem transferPio_wf (x : Transfer) {s : State} (h : s.ctl.wf) (hq : s.ctl.seq = .xferPio) :
    (transferPio x s).ctl.wf := by
  obtain ⟨-, -, hdly, hwait⟩ := h
  have hd : (pioStep x s.w.wl s).ctl.dly = .none := by simpa [hq] using hdly
  have hw : (pioStep x s.w.wl s).ctl.pioWaits := pioStep_pioWaits x s.w.wl (by simpa [Ctl.pioWaits, hq] using hwait)
  simp only [transferPio]
  split
  · next hp =>
    have hquiet : (pioStep x s.w.wl s).ctl.quiet := ⟨hp, by simpa [Ctl.pioWaits, hp, PioState.waits] using hw, hd⟩
    simp only [transferAccount]
    split
    · exact afterTransfer_wf x hquiet
    · exact hquiet.wf_seq rfl
  · next hp => exact Ctl.wf_xferPio (by simpa using hq) hp hd hw

theorem transferDelay_wf (x : Transfer) {s : State} (h : s.ctl.wf) (hq : s.ctl.seq = .xferDelay) :
    (transferDelay x s).ctl.wf := by
  obtain ⟨-, hpio, -, hwait⟩ := h
  have hp : s.ctl.pio = .none := by simpa [hq] using hpio
  have hw : s.ctl.wait = .none := by simpa [hq, hp, PioState.waits] using hwait
  obtain ⟨d, hd⟩ := delayStep_ctl x.delay s
  simp only [transferDelay]
  split
  · next hnone => exact nextTransfer_wf ⟨by simp [hd, hp], by simp [hd, hw], hnone⟩
  · next hsome => rw [hd] at hsome ⊢; simp_all [Ctl.wf, PioState.waits]

theorem SeqState.still_of_idle_effect {q : SeqState} (h : q ∈ [.idle, .cfgRsp .einval, .cfgRsp .enomem,
    .relRsp .einval, .relRsp .ok, .rejRsp, .cfgWr, SeqState.fetchDesc]) : q.still = true := by
  fin_cases h <;> rfl

/-- In the rows of a transfer a checked message has a current transfer. -/
theorem State.MessageChecked.current_ne_none {s : State} (h : s.MessageChecked)
    (hq : s.ctl.seq = .xferConfWr ∨ s.ctl.seq = .xferPio ∨ s.ctl.seq = .xferDelay) : s.currentTransfer ≠ none := by
  obtain ⟨-, hmsg⟩ := h
  obtain ⟨-, -, hdata, hdelay⟩ := hmsg (by rcases hq with hq | hq | hq <;> rw [hq] <;> rfl)
  rcases hq with hq | hq | hq
  · obtain ⟨x, hx, -⟩ := hdata (.inl hq); simp [hx]
  · obtain ⟨x, hx, -⟩ := hdata (.inr hq); simp [hx]
  · obtain ⟨x, hx, -⟩ := hdelay hq; simp [hx]

theorem EngineRow.ctl_wf {s t : State} (h : EngineRow s t) (hm : s.MessageChecked) (hs : s.ctl.wf) : t.ctl.wf := by
  by_cases hi : s.ctl.seq = .idle
  · obtain ⟨-, -, -, -, hctl⟩ := h.accept_frame hi
    rw [hctl]
    exact (hs.quiet (by rw [hi]; rfl)).wf_seq (SeqState.still_of_idle_effect (h.idle_effect hi).1)
  -- the row moves SEQ alone
  have hseq {q q' : SeqState} (hq : s.ctl.seq = q) (hstill : q.still = true) (hstill' : q'.still = true) :
      Ctl.wf { s.ctl with seq := q' } := (hs.quiet (by rw [hq]; exact hstill)).wf_seq hstill'
  cases h with
  | wait h => exact absurd h hi
  | illFormed h => exact absurd h hi
  | configure h => exact absurd h hi
  | release h => exact absurd h hi
  | execute h => exact absurd h hi
  | cfgWr h hv => simpa [configureWrite] using hseq h rfl (q' := .cfgRsp .ok) rfl
  | cfgRsp st h => exact hseq h rfl rfl
  | relRsp st h => exact hseq h rfl rfl
  | fetchDesc h hv =>
    obtain ⟨-, e⟩ | ⟨-, e⟩ := fetchDescriptorWord_cases s <;> rw [e]
    · exact hseq h rfl rfl
    · exact hseq h rfl (by split <;> rfl)
  | rejCpl h => exact hseq h rfl rfl
  | rejRsp h => exact hseq h rfl rfl
  | assertWr h hv =>
    have hq : s.ctl.seq.still = true := by rw [h]; rfl
    exact updateThen_wf assertUpdate (s := s.setW { s.w with status := .ok, actual := 0#32 }) (hs.quiet hq) hq
      fun u ⟨hp, _, hd⟩ => by simp [Ctl.wf, hp, hd]
  | assertWait h hv => exact assertWait_wf hs h
  | assertLog h => exact hseq h rfl rfl
  | loopEnd h hc hv =>
    obtain h | h := h
    · exact absurd h hs.1
    · exact absurd hc (hm.current_ne_none h)
  | @skipHead h x hc hl =>
    obtain h | h := h
    · exact absurd h hs.1
    · exact absurd hl (hm.len_ne_zero h hc)
  | head h => exact absurd h hs.1
  | @confWr h x hc hl hv =>
    have hq : s.ctl.seq.still = true := by rw [h]; rfl
    exact transferConfWr_wf x (hs.quiet hq) hq
  | @pio h x hc hl hv => exact transferPio_wf x hs h
  | @delay h x hc => exact transferDelay_wf x hs h
  | deassertWr h hv =>
    have hq : s.ctl.seq.still = true := by rw [h]; rfl
    exact updateThen_wf deassertUpdate (hs.quiet hq) hq fun u hu => hu.wf_seq rfl
  | finalCpl h => exact hseq h rfl rfl
  | finalRsp h => exact hseq h rfl rfl

/-- Settles O15: row by row (`EngineRow.ctl_wf`). -/
theorem stepKeepsTheControlTupleWellFormed : Obligations.StepKeepsTheControlTupleWellFormed :=
  fun _ _ hm hs h => (step_row h).ctl_wf hm hs

end Sys2Proof.Machine
end

section
/-!
PROOFS. The statements of family 10_state: the message of a running EXECUTE stays a checked one.
-/
namespace Sys2Proof.Machine

/-! ## The transfer being run (R186, R194) -/

/-- Where a transfer is run it is the list's current one, with its effective word length latched, or with a delay. -/
def State.TransferLatched (s : State) : Prop :=
  ((s.ctl.seq = .xferConfWr ∨ s.ctl.seq = .xferPio) →
    ∃ x, s.currentTransfer = some x ∧ x.len ≠ 0#32 ∧ s.w.wl = effectiveWordLength x.bpw s.record.wordLen) ∧
  (s.ctl.seq = .xferDelay → ∃ x, s.currentTransfer = some x ∧ x.delay ≠ 0#16)

/-- Nothing to show where no transfer is run. -/
theorem State.TransferLatched.of_no_transfer {s : State}
    (h : ¬(s.ctl.seq = .xferConfWr ∨ s.ctl.seq = .xferPio) ∧ s.ctl.seq ≠ .xferDelay) : s.TransferLatched :=
  ⟨fun hq => absurd hq h.1, fun hq => absurd hq h.2⟩

theorem selectTransfer_latched (s : State) : (selectTransfer s).TransferLatched := by
  obtain ⟨xi, e | ⟨x, -, hd, hx, e⟩ | ⟨x, hl, hx, e⟩⟩ := selectTransfer_cases s
  · rw [e]; exact .of_no_transfer (by simp)
  · refine ⟨fun hq => ?_, fun _ => ⟨x, hx, hd⟩⟩
    rw [e] at hq; simp at hq
  · refine ⟨fun _ => ⟨x, hx, hl, ?_⟩, fun hq => ?_⟩
    · rw [e]; rfl
    · rw [e] at hq; simp at hq

/-- The delay of the current transfer is next. -/
theorem enterDelay_latched {s : State} {x : Transfer} (hx : s.currentTransfer = some x) (hd : x.delay ≠ 0#16) :
    (enterDelay s).TransferLatched :=
  ⟨fun hq => by simp [enterDelay] at hq, fun _ => ⟨x, hx, hd⟩⟩

theorem afterTransfer_latched {s : State} {x : Transfer} (hx : s.currentTransfer = some x) :
    (afterTransfer x s).TransferLatched := by
  unfold afterTransfer
  split
  · exact selectTransfer_latched _
  · next hd => exact enterDelay_latched hx hd

/-- The current transfer depends on the list, its length and W.xi alone (R186). -/
theorem currentTransfer_congr {s t : State} (hmsg : t.w.msg = s.w.msg) (hn : t.w.n = s.w.n) (hxi : t.w.xi = s.w.xi) :
    t.currentTransfer = s.currentTransfer := by
  simp [State.currentTransfer, State.remaining, hmsg, hn, hxi]

theorem Work.SameMessage.currentTransfer {s t : State} (h : s.w.SameMessage t.w) :
    t.currentTransfer = s.currentTransfer := currentTransfer_congr h.msg h.n h.xi

theorem ConfBy.wordLen {s t : State} {o : Option Word} (h : ConfBy s t o) (hslot : t.w.slot = s.w.slot) :
    t.record.wordLen = s.record.wordLen := by
  cases o with
  | none => rw [State.record, h.1, hslot, State.record]
  | some v => rw [State.record, h.recs, hslot, Recs.get_set_same]

/-- The Configuration update keeps the transfer and its word length (R190). -/
theorem transferConfWr_latched {s : State} {x : Transfer} (hq : s.ctl.seq = .xferConfWr)
    (hx : s.currentTransfer = some x) (hl : x.len ≠ 0#32)
    (hwl : s.w.wl = effectiveWordLength x.bpw s.record.wordLen) : (transferConfWr x s).TransferLatched := by
  have hlen := (transferConfWr_conf x s).wordLen (transferConfWr_same x s).slot
  have hsame : s.w.SameMessage (transferConfWr x s).w := by
    obtain ⟨v, r, -, e⟩ | ⟨-, -, e⟩ := updateThen_cases (transferUpdate x.txp s.w.wl s.record.cs)
      (fun r => pioEntry x r.w.wl (r.setSeq .xferPio)) s <;> rw [transferConfWr, e]
    · constructor <;> simp [pioEntry, confWrote]
    · constructor <;> rfl
  refine ⟨fun _ => ⟨x, hsame.currentTransfer.trans hx, hl, by rw [hsame.wl, hlen, hwl]⟩, fun h => ?_⟩
  obtain e | e := transferConfWr_seq x s
  · simp [e] at h
  · simp [e, hq] at h

theorem assertWait_latched {s : State} (hq : s.ctl.seq = .assertWait) : (Machine.assertWait s).TransferLatched := by
  simp only [Machine.assertWait]
  split <;> [split; skip]
  · exact selectTransfer_latched _
  · exact .of_no_transfer (by simp [State.takeExit])
  · exact .of_no_transfer (by simp [hq])

theorem transferPio_latched {s : State} {x : Transfer} (hq : s.ctl.seq = .xferPio) (hx : s.currentTransfer = some x)
    (hl : x.len ≠ 0#32) (hwl : s.w.wl = effectiveWordLength x.bpw s.record.wordLen) :
    (transferPio x s).TransferLatched := by
  have hsame := pioStep_same x s.w.wl s
  have hcur : (pioStep x s.w.wl s).currentTransfer = some x := hsame.currentTransfer.trans hx
  have hrec : (pioStep x s.w.wl s).record = s.record := by simp [State.record, hsame.slot]
  simp only [transferPio, transferAccount]
  split <;> [split; skip]
  · exact afterTransfer_latched hcur
  · exact .of_no_transfer (by simp [State.takeExit])
  · exact ⟨fun _ => ⟨x, hcur, hl, by rw [hsame.wl, hrec, hwl]⟩, fun h => by simp [hq] at h⟩

theorem transferDelay_latched {s : State} {x : Transfer} (hq : s.ctl.seq = .xferDelay) (hx : s.currentTransfer = some x)
    (hd : x.delay ≠ 0#16) : (transferDelay x s).TransferLatched := by
  obtain ⟨t0, hw⟩ := delayStep_w x.delay s
  have hcur : (delayStep x.delay s).currentTransfer = some x := by
    rw [currentTransfer_congr (s := s) (by rw [hw]) (by rw [hw]) (by rw [hw]), hx]
  simp only [transferDelay]
  split
  · exact selectTransfer_latched _
  · exact ⟨fun h => by simp [hq] at h, fun _ => ⟨x, hcur, hd⟩⟩

/-- The transfer being run after a row is the list's current one. -/
theorem EngineRow.latched {s t : State} (h : EngineRow s t) (hi : s.ctl.seq ≠ .idle) (hs : s.TransferLatched) :
    t.TransferLatched := by
  have hseq := h.nextSeq hi
  obtain ⟨hdata, hdelay⟩ := hs
  cases h with
  | wait h => exact absurd h hi
  | illFormed h => exact absurd h hi
  | configure h => exact absurd h hi
  | release h => exact absurd h hi
  | execute h => exact absurd h hi
  | assertWait h hv => exact assertWait_latched h
  | @skipHead h x hc hl =>
    split
    · exact selectTransfer_latched _
    · next hd => exact transferDelay_latched rfl hc hd
  | @head h x hc hl hv => exact transferConfWr_latched (s := transferHead x s) rfl hc hl rfl
  | @confWr h x hc hl hv =>
    obtain ⟨y, hy, -, hwl⟩ := hdata (.inl h)
    obtain rfl : y = x := by simpa [hc] using hy.symm
    exact transferConfWr_latched h hc hl hwl
  | @pio h x hc hl hv =>
    obtain ⟨y, hy, -, hwl⟩ := hdata (.inr h)
    obtain rfl : y = x := by simpa [hc] using hy.symm
    exact transferPio_latched h hc hl hwl
  | @delay h x hc =>
    obtain ⟨y, hy, hd⟩ := hdelay h
    obtain rfl : y = x := by simpa [hc] using hy.symm
    exact transferDelay_latched h hc hd
  | loopEnd h hc hv =>
    obtain e | e := updateThen_seq deassertUpdate (State.setSeq · .finalCpl) (s.setSeq .deassertWr) .finalCpl
      (fun _ => rfl) <;> exact .of_no_transfer (by rw [deassertWrite, e]; simp)
  | _ =>
    refine .of_no_transfer ?_
    simp only [*, SeqState.nexts, List.mem_cons, List.not_mem_nil, or_false] at hseq
    grind

/-! ## The checked message (R103, R111, R182) -/

theorem State.MessageChecked.latched {s : State} (h : s.MessageChecked) : s.TransferLatched := by
  obtain ⟨-, hmsg⟩ := h
  refine ⟨fun hq => ?_, fun hq => ?_⟩
  · obtain ⟨-, -, hdata, -⟩ := hmsg (by rcases hq with hq | hq <;> rw [hq] <;> rfl)
    exact hdata hq
  · obtain ⟨-, -, -, hdelay⟩ := hmsg (by rw [hq]; rfl)
    exact hdelay hq

/-- The list has W.n transfers, each well-formed for the record and valid. -/
def State.ListChecked (s : State) : Prop :=
  s.w.n.toNat = s.w.msg.length ∧ ∀ x ∈ s.w.msg, x.wellFormed s.record.wordLen = true ∧ x.valid = true

theorem State.messageChecked_iff (s : State) : s.MessageChecked ↔
    (s.ctl.seq = .fetchDesc → s.w.words.length < 5 * s.w.n.toNat) ∧
      (s.ctl.seq.inMessage = true → s.ListChecked ∧ s.TransferLatched) := by
  simp only [State.MessageChecked, State.ListChecked, State.TransferLatched, and_assoc]

/-- An accepted message has checked transfers (R103, R182). -/
theorem messageAccepted_forall {recLen : BitVec 6} {tds : List Td} (h : messageAccepted recLen tds = true) :
    ∀ x ∈ tds.map Td.transfer, x.wellFormed recLen = true ∧ x.valid = true := by
  simp only [messageAccepted, validate, Bool.and_eq_true, List.all_eq_true] at h
  obtain ⟨hwf, -, hvalid⟩ := h
  intro x hx
  obtain ⟨d, hd, rfl⟩ := List.mem_map.mp hx
  exact ⟨(hwf d hd).2, hvalid _ hx⟩

/-- A fetch step leaves a word still to come, or a checked message before its Assert, or a rejection. -/
theorem fetchDescriptorWord_checked {s : State} (hlt : s.w.words.length < 5 * s.w.n.toNat) :
    (fetchDescriptorWord s).MessageChecked := by
  obtain ⟨hne, e⟩ | ⟨hlast, e⟩ := fetchDescriptorWord_cases s
  · rw [e, State.messageChecked_iff]
    exact ⟨fun _ => by simp; omega, fun h => by simp [SeqState.inMessage] at h⟩
  · have hlen := descriptorsOf_length s.w.n.toNat (s.w.words ++ [fetchedWord s]) (by simpa using hlast)
    rw [e, State.messageChecked_iff]
    dsimp only
    split
    · next hacc =>
      refine ⟨fun h => by simp at h, fun _ => ⟨⟨?_, messageAccepted_forall hacc⟩, .of_no_transfer (by simp)⟩⟩
      simp [hlen]
    · exact ⟨fun h => by simp at h, fun h => by simp [SeqState.inMessage] at h⟩

/-- A row after acceptance is in a message only if the row before it was, or fetched the last word (R198). -/
theorem SeqState.inMessage_of_nexts {q q' : SeqState} (h : q' ∈ q.nexts) (hf : q ≠ .fetchDesc)
    (hq : q'.inMessage = true) : q.inMessage = true := by
  cases q <;> simp_all [SeqState.nexts, SeqState.inMessage]

theorem SeqState.fetchDesc_of_nexts {q : SeqState} (h : .fetchDesc ∈ q.nexts) : q = .fetchDesc := by
  cases q <;> simp [SeqState.nexts] at h
  rfl

/-- An accepted EXECUTE has a word to come, and no idle row is in a message (R50, R111). -/
theorem EngineRow.accept_messageChecked {s t : State} (h : EngineRow s t) (hi : s.ctl.seq = .idle) :
    t.MessageChecked := by
  have hidle := (h.idle_effect hi).1
  refine ⟨fun hq => ?_, fun hq => ?_⟩
  · obtain rfl | ⟨-, ⟨q, hq', rfl⟩ | rfl | ⟨_, _, _, _, -, -, rfl⟩ | ⟨_, _, _, _, -, -, -, rfl⟩ | ⟨_, _, -, rfl⟩ |
      ⟨_, _, _, _, -, -, -, rfl⟩ | ⟨_, n, _, _, -, -, hn, rfl⟩⟩ := h.accept hi
    · simp [hi] at hq
    · rcases hq' with rfl | rfl | rfl | rfl <;> simp at hq
    · simp [State.respond] at hq
    · simp at hq
    · simp at hq
    · simp at hq
    · simp at hq
    · have hpos : 0 < n.toNat := Nat.pos_of_ne_zero fun h => hn (BitVec.eq_of_toNat_eq h)
      simpa using hpos
  · generalize t.ctl.seq = q at hidle hq
    fin_cases hidle <;> simp [SeqState.inMessage] at hq

theorem EngineRow.messageChecked {s t : State} (h : EngineRow s t) (hm : s.MessageChecked) : t.MessageChecked := by
  by_cases hi : s.ctl.seq = .idle
  · exact h.accept_messageChecked hi
  by_cases hf : s.ctl.seq = .fetchDesc
  · rw [h.fetch_eq hf]
    exact fetchDescriptorWord_checked (hm.1 hf)
  have hseq := h.nextSeq hi
  have hframe := h.frame hi hf
  have hlen := (h.conf hi).wordLen hframe.slot
  refine (State.messageChecked_iff t).mpr ⟨fun hq => ?_, fun hq => ⟨?_, h.latched hi hm.latched⟩⟩
  · exact absurd (SeqState.fetchDesc_of_nexts (hq ▸ hseq)) hf
  · obtain ⟨hlist, -⟩ := ((State.messageChecked_iff s).mp hm).2 (SeqState.inMessage_of_nexts hseq hf hq)
    rw [State.ListChecked, hframe.n, hframe.msg, hlen]
    exact hlist

/-- Settles O50: row by row (`EngineRow.messageChecked`). -/
theorem stepKeepsTheMessageChecked : Obligations.StepKeepsTheMessageChecked :=
  fun _ _ hm h => (step_row h).messageChecked hm

end Sys2Proof.Machine
end

section
/-!
PROOFS. The statements of family 10_state: reset, the dispatch of the rows after acceptance, and the single operations.
-/
namespace Sys2Proof.Machine

/-! ## Reset (R55) -/

/-- Settles O11: `State.reset` field by field. -/
theorem resetLeavesWhatTheSpecGives : Obligations.ResetLeavesWhatTheSpecGives := by
  refine ⟨rfl, reset_invalid, fun k => ?_, rfl, rfl, rfl, rfl⟩
  cases k <;> rfl

/-- Settles O12: at reset no record is valid, SEQ is IDLE and no wait runs, which is the premise of each invariant. -/
theorem resetMeetsTheInvariants : Obligations.ResetMeetsTheInvariants := by
  have hrec {P : Slot → Prop} (k : Slot) (hv : (State.reset.recs.get k).valid = true) : P k := by
    simp [reset_invalid k] at hv
  have hrun : State.reset.RunGloballyCoherent := by rintro (h | h | h) <;> cases h
  have hmsg : State.reset.MessageChecked := ⟨by decide, by simp [State.reset, Ctl.reset, SeqState.inMessage]⟩
  have hpio : State.reset.PioCounted := fun h => by cases h
  have hfinal : State.reset.FinalAfterDeadline := fun h => by cases h
  have hstatus : State.reset.StatusReportable := ⟨by decide, by decide, by decide⟩
  exact ⟨by decide, by decide, reset_peersDistinct, ⟨rfl, by decide, hrec⟩, rfl, ⟨hrec, by decide⟩, hrun, hrec, hmsg,
    ⟨hrec, by decide⟩, hpio, ⟨hrec, fun _ => ⟨rfl, reset_invalid⟩⟩, hfinal, hstatus⟩

/-! ## The dispatch of the rows after acceptance (R44, R50) -/

/-- A busy engine goes on with the command in progress. -/
theorem engineStep_busy {s : State} (hi : s.ctl.seq ≠ .idle) : engineStep s = resume s := by
  cases hq : s.ctl.seq with
  | idle => exact absurd hq hi
  | xferHead | xferConfWr | xferPio | xferDelay =>
    rw [engineStep_transfer (by simp [hq])]
    simp [resume, resumeExecute, hq]
  | _ => simp [engineStep, fetch, hq]

theorem exec_configure_busy (peer : BitVec 8) (cs : BitVec 2) (bpw : BitVec 6) {s : State} (hi : s.ctl.seq ≠ .idle) :
    exec (.configure peer cs bpw) s = resumeConfigure s := by
  simp [exec, execConfigure, hi]

theorem exec_release_busy (peer : BitVec 8) {s : State} (hi : s.ctl.seq ≠ .idle) :
    exec (.release peer) s = resumeRelease s := by
  simp [exec, execRelease, hi]

theorem exec_execute_busy (peer n : BitVec 8) (base : Word) {s : State} (hi : s.ctl.seq ≠ .idle) :
    exec (.execute peer n base) s = resumeExecute s := by
  simp [exec, execExecute, hi]

/-- Settles O8: `resume` runs the rows of the command whose control state it is. -/
theorem stepContinuesTheCommandInProgress : Obligations.StepContinuesTheCommandInProgress := by
  intro s ha hb
  rw [step_of_attached ha hb]
  refine ⟨fun hq peer cs bpw => ?_, fun ⟨st, hq⟩ peer => ?_, fun hq peer n base => ?_⟩
  · have hi : s.arrive.ctl.seq ≠ .idle := by obtain hq | ⟨st, hq⟩ := hq <;> simp [hq]
    rw [engineStep_busy hi, exec_configure_busy _ _ _ hi]
    obtain hq | ⟨st, hq⟩ := hq <;> simp [resume, hq]
  · have hi : s.arrive.ctl.seq ≠ .idle := by simp [hq]
    rw [engineStep_busy hi, exec_release_busy _ hi]
    simp [resume, hq]
  · have hi : s.arrive.ctl.seq ≠ .idle := fun h => by simp_all [SeqState.inMessage]
    rw [engineStep_busy hi, exec_execute_busy _ _ _ hi]
    cases hseq : s.ctl.seq <;> simp_all [resume, SeqState.inMessage]

/-- Settles O10: the launch conditions, then the idle row. -/
theorem stepRefusesAViolatedLaunchAndWaitsWhenIdle : Obligations.StepRefusesAViolatedLaunchAndWaitsWhenIdle := by
  intro s
  refine ⟨fun ha hb => ?_, fun ha hq hp => ?_, fun hq hp hcoh hb => ?_⟩
  · simp [step, launchRefusal, arrive_attached_of ha, arrive_windowBase_of ha, hb]
  · obtain ⟨c, hc⟩ := Option.ne_none_iff_exists'.mp hp
    simp [step, launchRefusal, ha, hq, arrive_port_of hc]
  · have hlaunch : launchRefusal s.arrive = none := by
      unfold launchRefusal
      split
      · next ha => simp [hb ha]
      · simp [hp]
    have hidle : engineStep s.arrive = .next s.arrive := by simp [engineStep, fetch, fetchCommand, hq, hp]
    exact step_next_iff.mpr ⟨hlaunch, hidle, hcoh⟩

/-- Settles O59: the port is in the frame of a busy row, and a command's rows are those of its own kind (log 15). -/
theorem hostCommandsAreHeldWhileAnotherRuns : Obligations.HostCommandsAreHeldWhileAnotherRuns := by
  refine ⟨fun s t c hi hp h => ?_,
    fun s => ⟨fun hq peer cs bpw => ?_, fun hq peer => ?_, fun hq peer n base => ?_⟩⟩
  · obtain ⟨-, -, hport⟩ := (step_row h).host hi
    exact hport.trans (arrive_port_of hp)
  · have hi : s.ctl.seq ≠ .idle := fun h => by simp_all [SeqState.inMessage]
    rw [exec_configure_busy _ _ _ hi]
    cases hseq : s.ctl.seq <;> simp_all [resumeConfigure, SeqState.inMessage]
  · have hi : s.ctl.seq ≠ .idle := fun h => by simp_all [SeqState.inMessage]
    rw [exec_release_busy _ hi]
    cases hseq : s.ctl.seq <;> simp_all [resumeRelease, SeqState.inMessage]
  · have hi : s.ctl.seq ≠ .idle := fun h => by simp_all
    rw [exec_execute_busy _ _ _ hi]
    cases hseq : s.ctl.seq <;> simp_all [resumeExecute]

/-! ## The operations on a record (R121, R193) -/

/-- A transfer of nonzero length runs on a record. -/
theorem transferStep_data {x : Transfer} (hl : x.len ≠ 0#32) (s : State) :
    transferStep x s = s.onRecord (dataTransferStep x s) := by
  simp [transferStep, hl]

/-- Settles O24: each of the operations is one on the record of W.slot. -/
theorem operationsOnAnInvalidRecordFault : Obligations.OperationsOnAnInvalidRecordFault := by
  intro s hv
  exact ⟨fun _ => State.onRecord_invalid hv, fun _ _ => State.onRecord_invalid hv, fun _ => State.onRecord_invalid hv,
    fun _ => State.onRecord_invalid hv, fun _ _ => State.onRecord_invalid hv,
    fun _ _ _ hl => (transferStep_data hl s).trans (State.onRecord_invalid hv),
    fun _ _ hl => (transferStep_data hl s).trans (State.onRecord_invalid hv)⟩

/-- Settles O21: the two cases of REG.READ. -/
theorem regReadServesTheCacheOrReadsTheBus : Obligations.RegReadServesTheCacheOrReadsTheBus := by
  intro r s hv
  have hexec : exec (.regRead r) s = .next (regRead r s) := State.onRecord_valid hv
  refine ⟨fun hr hc => ?_, fun hbus => ?_⟩
  · rw [hexec, hr, regRead_conf_cached hc, State.setRet]
  · have hmiss : ¬(r = .conf ∧ s.record.cacheValid = true) := by
      rintro ⟨rfl, hc⟩
      simp [hc] at hbus
    rw [hexec, regRead, if_neg hmiss, busRead, State.setRet, State.emit, State.busAddr]

/-- DELAY that has not sampled latches the time (R193). -/
theorem delayStep_sample (d : BitVec 16) {s : State} (h : s.ctl.dly = .none ∨ s.ctl.dly = .sample) :
    delayStep d s = { s with
      w := { s.w with t0 := s.now }, trace := .sample :: s.trace, ctl := { s.ctl with dly := .wait } } := by
  obtain h | h := h <;> simp only [delayStep, h] <;> rfl

/-- DELAY with ticks missing changes nothing (R193). -/
theorem delayStep_wait {d : BitVec 16} {s : State} (h : s.ctl.dly = .wait) (hlt : s.now - s.w.t0 < d.toNat) :
    delayStep d s = s := by
  simp only [delayStep, h]
  rw [if_neg (by omega)]

/-- DELAY at or after its ticks ends (R193). -/
theorem delayStep_done {d : BitVec 16} {s : State} (h : s.ctl.dly = .wait) (hle : d.toNat ≤ s.now - s.w.t0) :
    delayStep d s = { s with trace := .delayDone d :: s.trace, ctl := { s.ctl with dly := .none } } := by
  simp only [delayStep, h]
  rw [if_pos hle]
  rfl

/-- Settles O32: the three cases of a step of DELAY. -/
theorem delayLastsAtLeastItsTicks : Obligations.DelayLastsAtLeastItsTicks := by
  intro d s
  exact ⟨fun h => congrArg Host.Outcome.next (delayStep_sample d h),
    fun h hlt => congrArg Host.Outcome.next (delayStep_wait h hlt),
    fun h hle => congrArg Host.Outcome.next (delayStep_done h hle)⟩

/-! ## Validation (R182) -/

theorem transfer_valid_iff (x : Transfer) : x.valid = true ↔
    (x.speed.toNat = 0 ∨ (1464 ≤ x.speed.toNat ∧ x.speed.toNat ≤ 48000000)) ∧
      (x.len ≠ 0#32 → x.txp = true ∨ x.rxp = true) := by
  have hzero : x.speed = 0#32 ↔ x.speed.toNat = 0 := BitVec.toNat_inj.symm
  simp [Transfer.valid, Config.maxHz, Config.minHz, BitVec.lt_def, hzero]
  grind

/-- Settles O39: validation is V1 and V2 to V4 on each transfer. -/
theorem validationAcceptsExactlyTheGoodMessages : Obligations.ValidationAcceptsExactlyTheGoodMessages := by
  intro msg
  simp [validate, transfer_valid_iff]

end Sys2Proof.Machine
end

section
/-!
PROOFS. The statements of family 10_state: the rows of CONFIGURE and EXECUTE after acceptance and the transfer kinds.
-/
namespace Sys2Proof.Machine

/-! ## CONFIGURE after acceptance (R223, R231) -/

theorem configureWrite_eq (s : State) : configureWrite s = { s with
    ctl := { s.ctl with seq := .cfgRsp .ok }
    w := { s.w with v := confInit s.record.wordLen s.record.cs }
    win := { s.win with conf := confInit s.record.wordLen s.record.cs }
    trace := .busWr s.record.base 0x00#32 (confInit s.record.wordLen s.record.cs) :: s.trace
    recs := s.recs.set s.w.slot { s.record with
      cache := confInit s.record.wordLen s.record.cs, cacheValid := true
      shadow := confInit s.record.wordLen s.record.cs, shadowValid := true }
    hwConf := confInit s.record.wordLen s.record.cs
    hwConfValid := true } := by
  rw [configureWrite, regWrite_conf_eq]
  rfl

/-- Settles O56: the write row is REG.WRITE of CONF (`regWrite_conf_eq`), the response row the response. -/
theorem configureWritesTheInitialValueThenResponds : Obligations.ConfigureWritesTheInitialValueThenResponds := by
  intro peer cs bpw s
  refine ⟨fun hq hv => ⟨_, rfl, ?_⟩, fun st hq => ?_⟩
  · rw [exec_configure_busy _ _ _ (by simp [hq])]
    simp only [resumeConfigure, hq, State.onRecord_valid hv, configureWrite_eq]
  · rw [exec_configure_busy _ _ _ (by simp [hq])]
    simp only [resumeConfigure, hq]
    rfl

/-! ## De-assert, completion, response (R195, R196) -/

/-- The De-assert update clears bit 31 (R195). -/
theorem applyUpdates_deassert (v : Word) : applyUpdates deassertUpdate v = v &&& 0x7FFFFFFF#32 := by
  have hmask : bitsMask (ConfField.lo .spien) (ConfField.width .spien) = 0x80000000#32 := by decide
  simp [applyUpdates, deassertUpdate, setField, setBits, hmask]

/-- Settles O49: De-assert is CONF.UPDATE with the cache set (`updateThen_cached`). -/
theorem deassertThenCompletionThenResponse : Obligations.DeassertThenCompletionThenResponse := by
  intro peer n base s
  refine ⟨fun hq hv hc hu => ⟨_, rfl, ?_⟩, fun hq => ?_, fun hq => ?_⟩ <;>
    rw [exec_execute_busy _ _ _ (by simp [hq])] <;> simp only [resumeExecute, hq]
  · have hctl : { s.ctl with seq := .finalCpl, upd := .none } = { s.ctl with seq := .finalCpl } := by rw [← hu]
    rw [State.onRecord_valid hv, deassertWrite, updateThen_cached _ _ hu hc, applyUpdates_deassert, ← hctl]
    rfl
  · rfl
  · rfl

/-! ## The Assert wait (R185, R198) -/

theorem exec_waitBit (b : StatFlag) {s : State} (hv : s.record.valid = true) :
    exec (.waitBit b) s = .next (waitStep b s) :=
  State.onRecord_valid hv

/-- A read that shows the bit set ends the wait with OK, the final one too (R148). -/
theorem waitStep_bit_set (b : StatFlag) {s : State} (h : s.ctl.wait = .poll ∨ s.ctl.wait = .final)
    (hb : b.isSet s.win.stat = true) : (waitStep b s).ctl.wait = .none ∧ (waitStep b s).w.wres = .ok := by
  obtain h | h := h <;>
    simp [waitStep, h, waitPoll, waitFinal, readStat_w, hb, waitReturn_ctl, waitReturn_w]

/-- A final read that shows the bit clear ends the wait with TIMEOUT (R143). -/
theorem waitStep_final_clear (b : StatFlag) {s : State} (h : s.ctl.wait = .final) (hb : b.isSet s.win.stat = false) :
    (waitStep b s).ctl.wait = .none ∧ (waitStep b s).w.wres = .timeout := by
  simp [waitStep, h, waitFinal, readStat_w, hb, waitReturn_ctl, waitReturn_w]

/-- The Assert wait is a step of WAIT.BIT, and where that returned what follows it (R185). -/
theorem assertWait_eq (s : State) : Machine.assertWait s =
    if (waitStep .eot s).ctl.wait ≠ .none then waitStep .eot s
    else if (waitStep .eot s).w.wres = .ok then enterLoop (waitStep .eot s)
    else (waitStep .eot s).setSeq .assertLog := by
  rw [ite_not]
  rfl

/-- Settles O44: the row is `assertWait_eq` over WAIT.BIT on EOT. -/
theorem assertWaitEntersTheLoopOrSkipsIt : Obligations.AssertWaitEntersTheLoopOrSkipsIt := by
  intro peer n base s
  refine ⟨fun hq hv => ⟨_, exec_waitBit .eot hv, ?_⟩, fun hq => ?_⟩
  · have hsame := waitStep_same .eot s
    refine ⟨by simp, by simp, by simp, hsame.status, hsame.actual, ?_, waitStep_bit_set .eot,
      waitStep_final_clear .eot⟩
    rw [exec_execute_busy _ _ _ (by simp [hq])]
    simp only [resumeExecute, hq]
    rw [State.onRecord_valid hv, assertWait_eq]
    rfl
  · rw [exec_execute_busy _ _ _ (by simp [hq])]
    simp only [resumeExecute, hq]
    rfl

/-! ## The head of a transfer (R186, R187, R194) -/

theorem currentTransfer_eq (s : State) :
    s.currentTransfer = if s.w.xi.toNat < s.w.n.toNat then s.w.msg[s.w.xi.toNat]? else none := by
  rw [State.currentTransfer, State.remaining, List.head?_drop, List.getElem?_take]

/-- XFER.TX and XFER.RX are the loop body on a transfer with their length, override and delay. -/
theorem exec_data {i : Instr} {rxp : Bool} {len : Word} {a : XferArgs}
    (h : i = .xferTx rxp len a ∨ i = .xferRx len a) :
    ∃ x : Transfer, x.len = len ∧ x.bpw = a.bpw ∧ x.delay = a.delay ∧ ∀ s, exec i s = transferStep x s := by
  obtain rfl | rfl := h
  · exact ⟨txTransfer rxp len a, rfl, rfl, rfl, fun _ => rfl⟩
  · exact ⟨rxTransfer len a, rfl, rfl, rfl, fun _ => rfl⟩

/-- On a valid record a transfer of nonzero length completes its row. -/
theorem transferStep_valid {x : Transfer} {s : State} (hl : x.len ≠ 0#32) (hv : s.record.valid = true) :
    transferStep x s = .next (dataTransferStep x s) := by
  rw [transferStep_data hl, State.onRecord_valid hv]

theorem dataTransferStep_head (x : Transfer) {s : State} (hq : s.ctl.seq = .xferHead) :
    dataTransferStep x s = dataTransferStep x (transferHead x s) := by
  simp [dataTransferStep, hq, transferHead]

/-- Settles O45: the list's element, the cases of the selection, and the head that falls through (R43). -/
theorem dataTransferStartsWithItsWordLength : Obligations.DataTransferStartsWithItsWordLength := by
  refine ⟨currentTransfer_eq, fun s x hx hl => selectTransfer_data hx hl, fun s => selectTransfer_none,
    fun rxp len a s i hq hv hl hi => ?_⟩
  obtain ⟨x, hlen, hbpw, -, hexec⟩ := exec_data hi
  have hl' : x.len ≠ 0#32 := by rwa [hlen]
  rw [hexec, hexec, transferStep_valid hl' hv, dataTransferStep_head x hq, ← hbpw]
  exact (transferStep_valid (s := transferHead x s) hl' hv).symm

/-! ## The delay of a transfer (R187, R193) -/

/-- The delay row of any of the three kinds (R198). -/
theorem exec_transferDelay {i : Instr} {txp rxp : Bool} {len : Word} {a : XferArgs} {s : State}
    (hq : s.ctl.seq = .xferDelay) (hi : i = .xferSkip txp rxp a ∨
      (s.record.valid = true ∧ len ≠ 0#32 ∧ (i = .xferTx rxp len a ∨ i = .xferRx len a))) :
    ∃ x : Transfer, x.delay = a.delay ∧ exec i s = .next (transferDelay x s) := by
  obtain rfl | ⟨hv, hl, hi⟩ := hi
  · refine ⟨skipTransfer txp rxp a, rfl, ?_⟩
    have hstep : skipTransferStep (skipTransfer txp rxp a) s = transferDelay (skipTransfer txp rxp a) s := by
      simp [skipTransferStep, hq]
    exact congrArg Host.Outcome.next hstep
  · obtain ⟨x, hlen, -, hd, hexec⟩ := exec_data hi
    refine ⟨x, hd, ?_⟩
    rw [hexec, transferStep_valid (by rwa [hlen]) hv]
    simp [dataTransferStep, hq]

theorem transferDelay_sample (x : Transfer) {s : State} (h : s.ctl.dly = .none ∨ s.ctl.dly = .sample) :
    transferDelay x s = { s with
      w := { s.w with t0 := s.now }, trace := .sample :: s.trace, ctl := { s.ctl with dly := .wait } } := by
  simp [transferDelay, delayStep_sample x.delay h]

theorem transferDelay_wait {x : Transfer} {s : State} (h : s.ctl.dly = .wait) (hlt : s.now - s.w.t0 < x.delay.toNat) :
    transferDelay x s = s := by
  simp [transferDelay, delayStep_wait h hlt, h]

theorem transferDelay_done {x : Transfer} {s : State} (h : s.ctl.dly = .wait)
    (hle : x.delay.toNat ≤ s.now - s.w.t0) : transferDelay x s = selectTransfer { s with
      w := { s.w with xi := s.w.xi + 1#8 }, trace := .delayDone x.delay :: s.trace
      ctl := { s.ctl with dly := .none } } := by
  simp [transferDelay, delayStep_done h hle, nextTransfer, countTransfer, State.setW]

/-- XFER.SKIP at the internal head takes its delay or passes on (R187). -/
theorem exec_xferSkip_head (txp rxp : Bool) (a : XferArgs) {s : State} (hq : s.ctl.seq = .xferHead) :
    exec (.xferSkip txp rxp a) s = .next
      (if a.delay = 0#16 then nextTransfer s else transferDelay (skipTransfer txp rxp a) (enterDelay s)) := by
  have hstep : skipTransferStep (skipTransfer txp rxp a) s =
      if a.delay = 0#16 then nextTransfer s else transferDelay (skipTransfer txp rxp a) (enterDelay s) := by
    simp only [skipTransferStep, hq]
    rfl
  exact congrArg Host.Outcome.next hstep

/-- Settles O48: the selection on a transfer of length 0, and the three cases of DELAY in the delay row. -/
theorem transferTakesItsDelayThenTheNextFollows : Obligations.TransferTakesItsDelayThenTheNextFollows := by
  refine ⟨fun s x hx hl => ⟨selectTransfer_skip hx hl, selectTransfer_delay hx hl⟩,
    fun txp rxp len a s i => ⟨fun hq hd => ?_, fun hq hd => ?_, fun hq hi => ?_⟩⟩
  · rw [exec_xferSkip_head txp rxp a hq, if_pos hd]
    rfl
  · rw [exec_xferSkip_head txp rxp a hq, if_neg hd, transferDelay_sample _ (.inr rfl)]
    rfl
  · obtain ⟨x, hd, hexec⟩ := exec_transferDelay hq hi
    rw [hexec, ← hd]
    exact ⟨fun h => by rw [transferDelay_sample x (.inr h)], fun h hlt => by rw [transferDelay_wait h hlt],
      fun h hle => by rw [transferDelay_done h hle]⟩

/-! ## PIO in a transfer (R191, R192) -/

/-- Settles O47: PIO.RUN, and where it returned the account. -/
theorem transferAccountsForItsBytes : Obligations.TransferAccountsForItsBytes := by
  intro len a s i x rxp hi hq hv hl
  obtain ⟨hlen, hdelay, hexec⟩ : x.len = len ∧ x.delay = a.delay ∧ exec i s = transferStep x s := by
    obtain ⟨rfl, rfl⟩ | ⟨rfl, rfl⟩ := hi <;> exact ⟨rfl, rfl, rfl⟩
  have hrow : exec i s = .next (transferPio x s) := by
    rw [hexec, transferStep_valid (by rwa [hlen]) hv]
    simp [dataTransferStep, hq]
  refine ⟨pioStep x s.w.wl s, State.onRecord_valid hv, fun hp => ?_, fun hp hn => ?_, fun hp hn hd => ?_,
    fun hp hn hd => ?_, fun hp => ?_⟩
  · simp [hrow, transferPio, hp]
  · rw [← hlen] at hn
    simp [hrow, transferPio, transferAccount, hp, hn, State.takeExit, State.setW, State.setSeq]
  · rw [← hlen] at hn
    rw [← hdelay] at hd
    simp [hrow, transferPio, transferAccount, afterTransfer, hp, hn, hd, enterDelay, State.setW, State.setSeq,
      State.setDly]
  · rw [← hlen] at hn
    rw [← hdelay] at hd
    simp [hrow, transferPio, transferAccount, afterTransfer, hp, hn, hd, nextTransfer, countTransfer, State.setW]
  · simp only [pioStep, hp]
    exact ⟨rfl, rfl⟩

/-! ## The Configuration update of a transfer (R190) -/

/-- TRM, WL and CSIDX take the transfer's values, and every other field stays (R190). -/
theorem transferUpdate_fields (txp : Bool) {wl : BitVec 6} (hwl : wordLengthLegal wl = true) (cs : BitVec 2)
    (v : Word) :
    getField .trm (applyUpdates (transferUpdate txp wl cs) v) = trmValue txp ∧
    (getField .wl (applyUpdates (transferUpdate txp wl cs) v)).toNat = wl.toNat - 1 ∧
    (getField .csidx (applyUpdates (transferUpdate txp wl cs) v)).toNat = cs.toNat ∧
    ∀ f, f ≠ .trm → f ≠ .wl → f ≠ .csidx →
      getField f (applyUpdates (transferUpdate txp wl cs) v) = getField f v := by
  simp only [transferUpdate, applyUpdates, List.foldl_cons, List.foldl_nil]
  refine ⟨?_, ?_, ?_, fun f htrm hwl hcs => ?_⟩
  · rw [getField_setField_other (by decide), getField_setField_other (by decide), getField_trm]
  · rw [getField_setField_other (by decide), toNat_getField_wl hwl]
  · rw [getField_setField_same, toNat_and_bitsOnes (by decide), BitVec.toNat_setWidth]
    simp only [ConfField.width]
    omega
  · rw [getField_setField_other hcs, getField_setField_other hwl, getField_setField_other htrm]

/-- The Configuration row with the cache set: the update is written and PIO.RUN entered (R190, R198). -/
theorem transferConfWr_cached (x : Transfer) {s : State} (hu : s.ctl.upd = .none)
    (hc : s.record.cacheValid = true) : transferConfWr x s =
      pioEntry x s.w.wl ((confWrote (applyUpdates (transferUpdate x.txp s.w.wl s.record.cs) s.record.cache)
        s.record.cache s).setSeq .xferPio) :=
  updateThen_cached _ _ hu hc

/-- Settles O46: the update field by field, and the entry of PIO.RUN by direction. -/
theorem transferConfigurationUpdateSetsThreeFields : Obligations.TransferConfigurationUpdateSetsThreeFields := by
  intro len a s i trm hq hv hc hu hl hlo hhi hi
  obtain ⟨x, hlen, hbuf, htrm, hexec⟩ : ∃ x : Transfer, x.len = len ∧ (x.txp = true ∨ x.rxp = true) ∧
      trm = trmValue x.txp ∧ exec i s = transferStep x s := by
    obtain ⟨⟨rxp, rfl⟩, rfl⟩ | ⟨rfl, rfl⟩ := hi
    · exact ⟨txTransfer rxp len a, rfl, .inl rfl, rfl, rfl⟩
    · exact ⟨rxTransfer len a, rfl, .inr rfl, rfl, rfl⟩
  have hrow : exec i s = .next (transferConfWr x s) := by
    rw [hexec, transferStep_valid (by rwa [hlen]) hv]
    simp [dataTransferStep, hq]
  obtain ⟨hftrm, hfwl, hfcs, hfother⟩ := transferUpdate_fields x.txp ((wordLengthLegal_iff _).mpr ⟨hlo, hhi⟩)
    s.record.cs s.record.cache
  refine ⟨_, _, hrow, htrm ▸ hftrm, hfwl, hfcs, hfother, ?_⟩
  rw [transferConfWr_cached x hu hc, pioEntry_eq, hlen]
  have htx : trm = 2#32 → x.txp = true := by
    rw [htrm]; cases x.txp <;> decide
  have hrx : trm = 1#32 → x.txp = false := by
    rw [htrm]; cases x.txp <;> decide
  refine ⟨rfl, rfl, rfl, rfl, fun hcount hdir => ?_, fun hcount hdir => ?_, fun hcount => ?_⟩ <;>
    dsimp only at hcount ⊢
  · simp [pioStart, hcount, htx hdir]
  · have hrxp : x.rxp = true := by simpa [hrx hdir] using hbuf
    simp [pioStart, hcount, hrx hdir, hrxp, confWrote]
  · simp [pioStart, hcount]

end Sys2Proof.Machine
end

section
/-!
PROOFS. The statements of family 20_memory: the little-endian value of a read, the bytes of a store, the canonical form,
and the write-through of REG.WRITE.
-/
namespace Sys2Proof.Machine

/-! ## MemRead (R73) -/

/-- The address of byte k of an access (R66). -/
theorem toNat_add_ofNat (a : Word) (k : Nat) : (a + BitVec.ofNat 32 k).toNat = (a.toNat + k) % 2 ^ 32 := by
  rw [BitVec.toNat_add, BitVec.toNat_ofNat, Nat.add_mod_mod]

/-- Byte k + 1 of an access at a is byte k of one at a + 1. -/
theorem toNat_add_one_add (a : Word) (k : Nat) : ((a + 1#32).toNat + k) % 2 ^ 32 = (a.toNat + (k + 1)) % 2 ^ 32 := by
  rw [show a + 1#32 = a + BitVec.ofNat 32 1 from rfl, toNat_add_ofNat]
  omega

/-- A byte put below a word that leaves room for it. -/
theorem toNat_shiftLeft_or_byte {x : Word} (hx : x.toNat < 2 ^ 24) (b : Byte) :
    (x <<< 8 ||| b.zeroExtend 32).toNat = b.toNat + x.toNat * 2 ^ 8 := by
  have hb : b.toNat < 2 ^ 8 := b.isLt
  have hshift : (x <<< 8).toNat = x.toNat <<< 8 := by
    rw [BitVec.toNat_shiftLeft, Nat.shiftLeft_eq, Nat.mod_eq_of_lt (by omega)]
  have hbyte : (b.zeroExtend 32).toNat = b.toNat := BitVec.toNat_setWidth_of_le (by decide)
  rw [BitVec.toNat_or, hshift, hbyte, ← Nat.shiftLeft_add_eq_or_of_lt hb, Nat.shiftLeft_eq, Nat.add_comm]

/-- A read of at most a word is below 2^(8n). -/
theorem Mem.readLE_lt (m : Mem) (a : Word) {n : Nat} (hn : n ≤ 4) : (m.readLE a n).toNat < 2 ^ (8 * n) := by
  induction n generalizing a with
  | zero => simp [Mem.readLE]
  | succ n ih =>
    have htail : (m.readLE (a + 1#32) n).toNat < 2 ^ (8 * n) := ih (a + 1#32) (by omega)
    have hroom : 2 ^ (8 * n) ≤ 2 ^ 24 := Nat.pow_le_pow_right (by decide) (by omega)
    have hb : (Mem.read m a.toNat).toNat < 2 ^ 8 := (Mem.read m a.toNat).isLt
    rw [Mem.readLE, toNat_shiftLeft_or_byte (by omega), Nat.mul_succ, Nat.pow_add]
    omega

/-- The value of a read of at most a word: its bytes, little-endian, at addresses modulo 2^32. -/
theorem Mem.toNat_readLE (m : Mem) (a : Word) {n : Nat} (hn : n ≤ 4) : (m.readLE a n).toNat =
    ((List.range n).map fun k => (m.read ((a.toNat + k) % 2 ^ 32)).toNat * 2 ^ (8 * k)).sum := by
  induction n generalizing a with
  | zero => rfl
  | succ n ih =>
    have hroom : (m.readLE (a + 1#32) n).toNat < 2 ^ 24 :=
      (m.readLE_lt _ (by omega)).trans_le (Nat.pow_le_pow_right (by decide) (by omega))
    have htail : ∀ k, (m.read (((a + 1#32).toNat + k) % 2 ^ 32)).toNat * 2 ^ (8 * k) * 2 ^ 8 =
        (m.read ((a.toNat + (k + 1)) % 2 ^ 32)).toNat * 2 ^ (8 * (k + 1)) := fun k => by
      rw [toNat_add_one_add, Nat.mul_assoc, ← Nat.pow_add, Nat.mul_succ]
    rw [Mem.readLE, toNat_shiftLeft_or_byte hroom, ih (a + 1#32) (by omega), List.range_succ_eq_map, List.map_cons,
      List.sum_cons, List.map_map, ← List.sum_map_mul_right, Nat.add_zero, Nat.mod_eq_of_lt a.isLt, Nat.mul_zero,
      Nat.pow_zero, Nat.mul_one]
    exact congrArg (_ + List.sum ·) (List.map_congr_left fun k _ => htail k)

/-- Settles O18: the value by induction on the number of bytes, the frame by `memRead_eq`. -/
theorem memReadAssemblesLittleEndianBytes : Obligations.MemReadAssemblesLittleEndianBytes := by
  intro a s n hn
  have hn4 : n ≤ 4 := by omega
  exact ⟨s.mem.toNat_readLE a hn4, s.mem.readLE_lt a hn4, memRead_eq a n s⟩

/-! ## MemWrite (R74) -/

/-- What MemWrite leaves (R74). -/
theorem memWrite_eq (a v : Word) (n : Nat) (s : State) : memWrite a n v s = { s with
    mem := s.mem.writeLE a v n, trace := .memWr a n (lowBytes n v) :: s.trace } := by
  simp only [memWrite, State.setMem, State.emit]

theorem toNat_lowBytes {n : Nat} (hn : n ≤ 4) (v : Word) : (lowBytes n v).toNat = v.toNat % 2 ^ (8 * n) :=
  toNat_and_bitsOnes (by omega) v

/-- A store of at most a word puts byte k of the value at the k-th address. -/
theorem Mem.read_writeLE_inside {m : Mem} (h : Mem.wf m) (a v : Word) {n k : Nat} (hn : n ≤ 4) (hk : k < n) :
    ((m.writeLE a v n).read ((a.toNat + k) % 2 ^ 32)).toNat = v.toNat / 2 ^ (8 * k) % 256 := by
  induction n generalizing m a v k with
  | zero => omega
  | succ n ih =>
    have hwf : Mem.wf (m.write a.toNat (v.truncate 8)) := Mem.write_wf h a.isLt
    rw [Mem.writeLE]
    cases k with
    | zero =>
      -- the bytes stored after the first do not reach its address
      have hout : ∀ j < n, a.toNat ≠ (a + 1#32 + BitVec.ofNat 32 j).toNat := fun j hj => by
        rw [toNat_add_ofNat, toNat_add_one_add]
        omega
      rw [Nat.add_zero, Nat.mod_eq_of_lt a.isLt, Mem.read_writeLE_outside hwf _ _ _ _ hout, Mem.read_write h, if_pos rfl]
      simp
    | succ k =>
      rw [← toNat_add_one_add, ih hwf _ _ (by omega) (by omega), BitVec.toNat_ushiftRight, Nat.shiftRight_eq_div_pow,
        Nat.div_div_eq_div_mul, ← Nat.pow_add, Nat.mul_succ, Nat.add_comm 8]

/-- Settles O19: byte by byte, by induction on the number of bytes. -/
theorem memWriteStoresExactlyItsBytes : Obligations.MemWriteStoresExactlyItsBytes := by
  intro a v s n hwf hn
  have hn4 : n ≤ 4 := by omega
  refine ⟨fun k hk => Mem.read_writeLE_inside hwf a v hn4 hk, fun x hx => ?_, _, toNat_lowBytes hn4 v,
    memWrite_eq a v n s⟩
  exact Mem.read_writeLE_outside hwf a v n x fun k hk => by
    rw [toNat_add_ofNat]
    exact hx k hk

/-! ## The canonical form (R63) -/

@[simp] theorem nextTransfer_mem (s : State) : (nextTransfer s).mem = s.mem := by
  obtain ⟨_, _, _, _, h, -⟩ := nextTransfer_frame s
  rw [h]

@[simp] theorem afterTransfer_mem (x : Transfer) (s : State) : (afterTransfer x s).mem = s.mem := by
  obtain ⟨_, _, _, _, h, -⟩ := afterTransfer_frame x s
  rw [h]

@[simp] theorem enterLoop_mem (s : State) : (enterLoop s).mem = s.mem := by
  obtain ⟨_, _, _, _, h, -⟩ := selectTransfer_frame (s.setW { s.w with xi := 0#8 })
  rw [enterLoop, h]
  rfl

@[simp] theorem transferDelay_mem (x : Transfer) (s : State) : (transferDelay x s).mem = s.mem := by
  simp only [transferDelay]
  split <;> simp

@[simp] theorem assertWait_mem (s : State) : (Machine.assertWait s).mem = s.mem := by
  simp only [Machine.assertWait]
  split <;> [split; skip] <;> simp

@[simp] theorem fetchDescriptorWord_mem (s : State) : (fetchDescriptorWord s).mem = s.mem := by
  obtain ⟨-, e⟩ | ⟨-, e⟩ := fetchDescriptorWord_cases s <;> rw [e]

/-- A row that is a CONF.UPDATE leaves memory alone if what follows the write does. -/
theorem updateThen_mem (us : List FieldUpdate) {next : State → State} (s : State) (h : ∀ u, (next u).mem = u.mem) :
    (updateThen us next s).mem = s.mem := by
  obtain ⟨_, _, -, e⟩ | ⟨-, -, e⟩ := updateThen_cases us next s
  · rw [e, h]; rfl
  · rw [e]; rfl

@[simp] theorem assertWrite_mem (s : State) : (assertWrite s).mem = s.mem :=
  updateThen_mem assertUpdate (s.setW { s.w with status := .ok, actual := 0#32 }) fun _ => rfl

@[simp] theorem deassertWrite_mem (s : State) : (deassertWrite s).mem = s.mem :=
  updateThen_mem deassertUpdate s fun _ => rfl

@[simp] theorem transferConfWr_mem (x : Transfer) (s : State) : (transferConfWr x s).mem = s.mem :=
  updateThen_mem _ s fun _ => pioEntry_mem _ _ _

/-- A row of PIO.RUN that waits leaves memory alone if what follows the wait does. -/
theorem pioWait_mem (b : StatFlag) {ok timeout : State → State} (hok : ∀ u, (ok u).mem = u.mem)
    (htimeout : ∀ u, (timeout u).mem = u.mem) (s : State) : (pioWait b ok timeout s).mem = s.mem := by
  simp only [pioWait]
  split <;> [split; skip]
  · rw [hok, waitStep_mem]
  · rw [htimeout, waitStep_mem]
  · exact waitStep_mem b s

/-- PIO.RUN stores in its row RX_MEMWR, and in no other (R160). -/
theorem pioStep_mem (x : Transfer) (wl : BitVec 6) (s : State) : (pioStep x wl s).mem =
    if s.ctl.pio = .rxMemWr then s.mem.writeLE (unitAddr x.rxaddr s.w.c s.w.unit) s.w.u s.w.unit.toNat else s.mem := by
  cases hp : s.ctl.pio <;> simp only [pioStep, hp, reduceCtorEq, if_true, if_false]
  case none => exact pioEntry_mem x wl s
  case txWait => exact pioWait_mem .txrdy (State.setPio_mem · _) (takeExit_mem · _) s
  case txMemRd => rfl
  case txWr => simp [pioTxWr]
  case rxDummy => simp [pioRxDummy]
  case rxWait => exact pioWait_mem .rxrdy (State.setPio_mem · _) (takeExit_mem · _) s
  case rxRd => simp [pioRxRd]
  case rxMemWr => simp [pioRxMemWr, memWrite_eq]
  case eotWait => exact pioWait_mem .eot pioReturn_mem (State.setPio_mem · _) s
  case eotLog => rfl

@[simp] theorem transferPio_mem (x : Transfer) (s : State) : (transferPio x s).mem = (pioStep x s.w.wl s).mem := by
  simp only [transferPio, transferAccount]
  split <;> [split; skip] <;> simp

theorem EngineRow.accept_mem {s t : State} (h : EngineRow s t) (hi : s.ctl.seq = .idle) : t.mem = s.mem := by
  obtain rfl | ⟨-, ⟨_, -, rfl⟩ | rfl | ⟨_, _, _, _, -, -, rfl⟩ | ⟨_, _, _, _, -, -, -, rfl⟩ | ⟨_, _, -, rfl⟩ |
    ⟨_, _, _, _, -, -, -, rfl⟩ | ⟨_, _, _, _, -, -, -, rfl⟩⟩ := h.accept hi <;> rfl

/-- No row writes memory but a data row of PIO.RUN, and that by one store. -/
theorem EngineRow.mem {s t : State} (h : EngineRow s t) :
    t.mem = s.mem ∨ ∃ a v n, t.mem = s.mem.writeLE a v n := by
  by_cases hi : s.ctl.seq = .idle
  · exact .inl (h.accept_mem hi)
  cases h with
  | wait h => exact absurd h hi
  | illFormed h => exact absurd h hi
  | configure h => exact absurd h hi
  | release h => exact absurd h hi
  | execute h => exact absurd h hi
  | @pio h x hc hl hv =>
    rw [transferPio_mem, pioStep_mem]
    split
    · exact .inr ⟨_, _, _, rfl⟩
    · exact .inl rfl
  | cfgWr h hv => exact .inl (by rw [configureWrite_eq])
  | fetchDesc h hv => exact .inl (fetchDescriptorWord_mem s)
  | assertWr h hv => exact .inl (assertWrite_mem s)
  | assertWait h hv => exact .inl (assertWait_mem s)
  | loopEnd h hc hv => exact .inl (deassertWrite_mem _)
  | @skipHead h x hc hl =>
    left
    split
    · exact nextTransfer_mem s
    · exact transferDelay_mem x (enterDelay s)
  | @head h x hc hl hv => exact .inl (transferConfWr_mem x (transferHead x s))
  | @confWr h x hc hl hv => exact .inl (transferConfWr_mem x s)
  | @delay h x hc => exact .inl (transferDelay_mem x s)
  | deassertWr h hv => exact .inl (deassertWrite_mem s)
  | _ => exact .inl rfl

/-- Settles O20: the host's stores and the one store of a row keep the canonical form. -/
theorem stepKeepsMemoryCanonical : Obligations.StepKeepsMemoryCanonical := by
  intro s t hwf h
  have harrive : Mem.wf s.arrive.mem := (hostStores_wf_read s.nextInput.stores hwf).1
  obtain e | ⟨a, v, n, e⟩ := (step_row h).mem
  · rwa [e]
  · rw [e]
    exact Mem.writeLE_wf harrive a v n

/-! ## REG.WRITE (R122) -/

theorem exec_regWrite (r : RegId) (v : Word) {s : State} (hv : s.record.valid = true) :
    exec (.regWrite r v) s = .next (regWrite r v s) :=
  State.onRecord_valid hv

/-- Settles O22: CONF is written through, any other register is one bus write. -/
theorem regWriteIsOneBusWriteAndWritesThrough : Obligations.RegWriteIsOneBusWriteAndWritesThrough := by
  intro r v s hv
  rw [exec_regWrite r v hv]
  by_cases hr : r = .conf
  · subst hr
    rw [regWrite_conf, if_pos rfl]
    rfl
  · rw [regWrite_other v hr, if_neg hr]
    rfl

end Sys2Proof.Machine
end

section
/-!
PROOFS. The statements of family 30_encoding: the rows of the opcode table, the two decoders and the encoder, the kinds
of a descriptor, ill-formed commands, unit sizes, the acceptance of EXECUTE and the words of the ports.
-/
namespace Sys2Proof

/-! ## Rows of the opcode table (R92) -/

theorem Row.hits_iff {r : Row} {w : Word} : r.hits w = true ↔ w &&& r.mask = r.pattern := by
  simp [Row.hits]

/-- Rows whose patterns differ on the bits that both test take no common word. -/
theorem Row.hits_disjoint {r r' : Row} (hne : r.pattern &&& r'.mask ≠ r'.pattern &&& r.mask) {w : Word} :
    ¬(r.hits w = true ∧ r'.hits w = true) := by
  rintro ⟨h, h'⟩
  rw [Row.hits_iff] at h h'
  apply hne
  rw [← h, ← h', BitVec.and_assoc, BitVec.and_assoc, BitVec.and_comm r.mask]

/-- A word of a row is the row's pattern and the word's own operand bits. -/
theorem Row.eq_of_hits {r : Row} {w : Word} (h : r.hits w = true) : w = (w &&& ~~~r.mask) ||| r.pattern := by
  rw [← Row.hits_iff.1 h]
  ext i hi
  simp only [BitVec.getElem_or, BitVec.getElem_and, BitVec.getElem_not]
  cases w[i] <;> cases r.mask[i] <;> rfl

/-- A row that tests all of OPC fixes it. -/
theorem Row.cmdOpc_of_hits {r : Row} (hm : cmdOpc r.mask = BitVec.allOnes 4) {w : Word} (h : r.hits w = true) :
    cmdOpc w = cmdOpc r.pattern := by
  calc cmdOpc w = cmdOpc w &&& cmdOpc r.mask := by rw [hm, BitVec.and_allOnes]
    _ = cmdOpc (w &&& r.mask) := BitVec.extractLsb'_and.symm
    _ = cmdOpc r.pattern := by rw [Row.hits_iff.1 h]

/-- The first word of an instruction with a row is of that row (`RowMatch`). -/
theorem Row.hits_of_rowMatch {i : Instr} {r : Row} {w : Word} {ws : List Word} (h : Laws.RowMatch.Statement i)
    (hr : Laws.RowMatch.rowOf i = some r) (he : encode i = w :: ws) : r.hits w = true := by
  rw [Laws.RowMatch.Statement, hr] at h
  obtain ⟨w', ws', he', hw⟩ := h
  rw [he] at he'
  cases he'
  exact hw

/-! ## The command decoder (R92 to R96, R110) -/

theorem cmdClass_eq_none_iff (cmd : Word) :
    cmdClass cmd = none ↔ cmdOpc cmd ≠ 1#4 ∧ cmdOpc cmd ≠ 2#4 ∧ cmdOpc cmd ≠ 3#4 := by
  unfold cmdClass
  split_ifs <;> simp_all

theorem cmdOpc_eq_iff (cmd : Word) (v : BitVec 4) : cmdOpc cmd = v ↔ cmd.toNat % 16 = v.toNat := by
  rw [← BitVec.toNat_inj]
  simp [cmdOpc]

/-- What the command decoder takes: the words of the three rows, with ARG 0 where it is reserved. -/
theorem decodeCommand_eq_ok_iff {cmd arg : Word} {i : Instr} : decodeCommand cmd arg = .ok i ↔
    (Row.configure.hits cmd = true ∧ arg = 0#32 ∧ i = .configure (cmdPeer cmd) (cmdCs cmd) (cmdBpw cmd)) ∨
    (Row.release.hits cmd = true ∧ arg = 0#32 ∧ i = .release (cmdPeer cmd)) ∨
    (Row.execute.hits cmd = true ∧ i = .execute (cmdPeer cmd) (cmdNxfer cmd) arg) := by
  constructor
  · intro h
    unfold decodeCommand at h
    split at h
    · split at h <;> simp_all
    · split at h
      · split at h <;> simp_all
      · split at h
        · simp_all
        · split at h <;> cases h
  · rintro (⟨h, rfl, rfl⟩ | ⟨h, rfl, rfl⟩ | ⟨h, rfl⟩)
    · simp [decodeCommand, h]
    · have hc : Row.configure.hits cmd ≠ true := fun hc => Row.hits_disjoint (by decide) ⟨hc, h⟩
      simp [decodeCommand, h, hc]
    · have hc : Row.configure.hits cmd ≠ true := fun hc => Row.hits_disjoint (by decide) ⟨hc, h⟩
      have hr : Row.release.hits cmd ≠ true := fun hr => Row.hits_disjoint (by decide) ⟨hr, h⟩
      simp [decodeCommand, h, hc, hr]

/-- An error of the command decoder is the reserved opcode, of a word of no class, or concerns a command. -/
theorem decodeCommand_error {cmd arg : Word} {e : DecodeError} (h : decodeCommand cmd arg = .error e) :
    (e = .reservedOpcode ∧ cmdClass cmd = none) ∨ ∃ c, e.cmdClass = some c := by
  unfold decodeCommand at h
  split at h
  · split at h <;> cases h
    exact .inr ⟨_, rfl⟩
  · split at h
    · split at h <;> cases h
      exact .inr ⟨_, rfl⟩
    · split at h
      · cases h
      · split at h <;> cases h
        · exact .inr ⟨_, rfl⟩
        · exact .inl ⟨rfl, ‹_›⟩

/-- The reserved opcode is the error of exactly the words of no class. -/
theorem decodeCommand_eq_reservedOpcode_iff {cmd arg : Word} :
    decodeCommand cmd arg = .error .reservedOpcode ↔ cmdClass cmd = none := by
  constructor
  · intro h
    obtain ⟨-, hclass⟩ | ⟨c, hc⟩ := decodeCommand_error h
    · exact hclass
    · cases hc
  · intro h
    obtain ⟨h1, h2, h3⟩ := (cmdClass_eq_none_iff cmd).1 h
    have hc : Row.configure.hits cmd ≠ true := fun hc => h1 (Row.cmdOpc_of_hits (by decide) hc)
    have hr : Row.release.hits cmd ≠ true := fun hr => h2 (Row.cmdOpc_of_hits (by decide) hr)
    have he : Row.execute.hits cmd ≠ true := fun he => h3 (Row.cmdOpc_of_hits (by decide) he)
    simp [decodeCommand, hc, hr, he, h]

/-- Settles O3: the rows are those of `decodeCommand_eq_ok_iff`, disjoint by `Row.hits_disjoint`. -/
theorem commandDecoderTakesExactlyTheTableRows : Obligations.CommandDecoderTakesExactlyTheTableRows := by
  intro cmd arg
  have hc : Row.configure.hits cmd = true ↔ cmd &&& 0xFFC0C00F#32 = 1#32 := Row.hits_iff
  have hr : Row.release.hits cmd = true ↔ cmd &&& 0xFFFFF00F#32 = 2#32 := Row.hits_iff
  have he : Row.execute.hits cmd = true ↔ cmd &&& 0xFF00F00F#32 = 3#32 := Row.hits_iff
  rw [← hc, ← hr, ← he]
  refine ⟨?_, Row.hits_disjoint (by decide), Row.hits_disjoint (by decide), Row.hits_disjoint (by decide), ?_⟩
  · simp only [decodeCommand_eq_ok_iff, exists_or, exists_and_left, exists_eq, and_true]
  · rw [decodeCommand_eq_reservedOpcode_iff, cmdClass_eq_none_iff]
    simp only [ne_eq, cmdOpc_eq_iff]
    rfl

/-! ## The encoder (R93 to R99) -/

/-- The operand bits of a CONFIGURE word, put back over the row's pattern (R93). -/
theorem encodeConfigure_fields (w : Word) : encodeConfigure (cmdPeer w) (cmdCs w) (cmdBpw w) =
    (w &&& ~~~Row.configure.mask) ||| Row.configure.pattern := by
  apply BitVec.eq_of_getLsbD_eq
  intro i hi
  simp only [encodeConfigure, cmdPeer, cmdCs, cmdBpw, Row.configure, BitVec.getLsbD_append, BitVec.getLsbD_or,
    BitVec.getLsbD_and, BitVec.getLsbD_extractLsb']
  interval_cases i <;> simp

/-- Likewise of a RELEASE word (R94). -/
theorem encodeRelease_fields (w : Word) : encodeRelease (cmdPeer w) =
    (w &&& ~~~Row.release.mask) ||| Row.release.pattern := by
  apply BitVec.eq_of_getLsbD_eq
  intro i hi
  simp only [encodeRelease, cmdPeer, Row.release, BitVec.getLsbD_append, BitVec.getLsbD_or,
    BitVec.getLsbD_and, BitVec.getLsbD_extractLsb']
  interval_cases i <;> simp

/-- Likewise of an EXECUTE word (R95). -/
theorem encodeExecute_fields (w : Word) : encodeExecute (cmdPeer w) (cmdNxfer w) =
    (w &&& ~~~Row.execute.mask) ||| Row.execute.pattern := by
  apply BitVec.eq_of_getLsbD_eq
  intro i hi
  simp only [encodeExecute, cmdPeer, cmdNxfer, Row.execute, BitVec.getLsbD_append, BitVec.getLsbD_or,
    BitVec.getLsbD_and, BitVec.getLsbD_extractLsb']
  interval_cases i <;> simp

/-- Likewise of a CTRL word (R99): the row of XFER.SKIP tests its reserved bits and no other. -/
theorem encodeCtrl_fields (d : Td) : encodeCtrl (d.ctrl.getLsbD 0) (d.ctrl.getLsbD 1) d.transfer.args =
    (d.ctrl &&& ~~~Row.xferSkip.mask) ||| Row.xferSkip.pattern := by
  apply BitVec.eq_of_getLsbD_eq
  intro i hi
  simp only [encodeCtrl, Td.transfer, Transfer.args, Row.xferSkip, BitVec.getLsbD_append, BitVec.getLsbD_or,
    BitVec.getLsbD_and, BitVec.getLsbD_extractLsb']
  interval_cases i <;> simp

/-- The operands of an encoded CONFIGURE (R93). -/
theorem fields_encodeConfigure (p : BitVec 8) (c : BitVec 2) (b : BitVec 6) :
    cmdPeer (encodeConfigure p c b) = p ∧ cmdCs (encodeConfigure p c b) = c ∧ cmdBpw (encodeConfigure p c b) = b := by
  refine ⟨?_, ?_, ?_⟩ <;>
  · apply BitVec.eq_of_getLsbD_eq
    intro i hi
    simp only [cmdPeer, cmdCs, cmdBpw, encodeConfigure, BitVec.getLsbD_extractLsb', BitVec.getLsbD_append]
    interval_cases i <;> rfl

theorem cmdPeer_encodeRelease (p : BitVec 8) : cmdPeer (encodeRelease p) = p := by
  apply BitVec.eq_of_getLsbD_eq
  intro i hi
  simp only [cmdPeer, encodeRelease, BitVec.getLsbD_extractLsb', BitVec.getLsbD_append]
  interval_cases i <;> rfl

/-- The operands of an encoded EXECUTE (R95). -/
theorem fields_encodeExecute (p n : BitVec 8) :
    cmdPeer (encodeExecute p n) = p ∧ cmdNxfer (encodeExecute p n) = n := by
  refine ⟨?_, ?_⟩ <;>
  · apply BitVec.eq_of_getLsbD_eq
    intro i hi
    simp only [cmdPeer, cmdNxfer, encodeExecute, BitVec.getLsbD_extractLsb', BitVec.getLsbD_append]
    interval_cases i <;> rfl

/-- The fields of an encoded CTRL word (R99). -/
theorem fields_encodeCtrl (txp rxp : Bool) (a : XferArgs) :
    (encodeCtrl txp rxp a).getLsbD 0 = txp ∧ (encodeCtrl txp rxp a).getLsbD 1 = rxp ∧
      (encodeCtrl txp rxp a).extractLsb' 8 6 = a.bpw ∧ (encodeCtrl txp rxp a).extractLsb' 16 16 = a.delay := by
  refine ⟨?_, ?_, ?_, ?_⟩
  · simp only [encodeCtrl, BitVec.getLsbD_append]; cases txp <;> rfl
  · simp only [encodeCtrl, BitVec.getLsbD_append]; cases rxp <;> rfl
  all_goals
    apply BitVec.eq_of_getLsbD_eq
    intro i hi
    simp only [encodeCtrl, BitVec.getLsbD_extractLsb', BitVec.getLsbD_append]
    interval_cases i <;> rfl

/-- The words of a descriptor (R98). -/
def Td.words (d : Td) : List Word := [d.ctrl, d.len, d.txaddr, d.rxaddr, d.speed]

/-- The descriptor of a transfer, its reserved bits 0 (R98, R99). -/
def Transfer.td (t : Transfer) : Td := ⟨encodeCtrl t.txp t.rxp t.args, t.len, t.txaddr, t.rxaddr, t.speed⟩

theorem Transfer.transfer_td (t : Transfer) : t.td.transfer = t := by
  obtain ⟨htx, hrx, hbpw, hdelay⟩ := fields_encodeCtrl t.txp t.rxp t.args
  rw [Td.transfer, Transfer.td, htx, hrx, hbpw, hdelay]
  rfl

theorem Transfer.reservedClear_td (t : Transfer) : t.td.reservedClear = true :=
  Row.hits_of_rowMatch (Laws.RowMatch.xferSkip t.txp t.rxp t.args) rfl rfl

/-- A descriptor without reserved bits is that of its transfer: no other bit is lost (R98, R99). -/
theorem Td.td_transfer {d : Td} (h : d.reservedClear = true) : d.transfer.td = d := by
  have hctrl : encodeCtrl (d.ctrl.getLsbD 0) (d.ctrl.getLsbD 1) d.transfer.args = d.ctrl :=
    (encodeCtrl_fields d).trans (Row.eq_of_hits h).symm
  exact congrArg (Td.mk · d.len d.txaddr d.rxaddr d.speed) hctrl

/-- The kind of a transfer, case by case (R100). -/
theorem Transfer.instr_cases (t : Transfer) :
    (t.len = 0#32 ∧ t.instr = some (.xferSkip t.txp t.rxp t.args)) ∨
    (t.len ≠ 0#32 ∧ t.txp = true ∧ t.instr = some (.xferTx t.rxp t.len t.args)) ∨
    (t.len ≠ 0#32 ∧ t.txp = false ∧ t.rxp = true ∧ t.instr = some (.xferRx t.len t.args)) ∨
    (t.len ≠ 0#32 ∧ t.txp = false ∧ t.rxp = false ∧ t.instr = none) := by
  unfold Transfer.instr
  by_cases hl : t.len = 0#32
  · simp [hl]
  · cases t.txp <;> cases t.rxp <;> simp [hl]

/-- The words of a transfer's instruction are those of its descriptor. -/
theorem encode_of_instr {t : Transfer} {i : Instr} (h : t.instr = some i) : encode i = t.td.words := by
  obtain ⟨hl, e⟩ | ⟨-, htx, e⟩ | ⟨-, htx, hrx, e⟩ | ⟨-, -, -, e⟩ := t.instr_cases <;> rw [e] at h <;> cases h
  · rw [Transfer.td, hl]; rfl
  · rw [Transfer.td, htx]; rfl
  · rw [Transfer.td, htx, hrx]; rfl

/-- What the descriptor decoder takes: no reserved bit, and a kind (R100, R103). -/
theorem decodeDescriptor_eq_ok_iff {d : Td} {i : Instr} :
    decodeDescriptor d = .ok i ↔ d.reservedClear = true ∧ d.transfer.instr = some i := by
  unfold decodeDescriptor
  cases d.reservedClear <;> cases d.transfer.instr <;> simp

/-- A transfer's instruction decodes from its words. -/
theorem decodeWords_encode_of_instr {t : Transfer} {i : Instr} (h : t.instr = some i) :
    decodeWords (encode i) = .ok i := by
  rw [encode_of_instr h]
  exact decodeDescriptor_eq_ok_iff.2 ⟨t.reservedClear_td, by rwa [t.transfer_td]⟩

/-- Settles O1: a command by its row and its fields, a descriptor by the transfer it stands for. -/
theorem decodeOfEncodedInstructionIsTheInstruction : Obligations.DecodeOfEncodedInstructionIsTheInstruction := by
  intro i hwf henc
  cases i with
  | configure p c b =>
    obtain ⟨hp, hc, hb⟩ := fields_encodeConfigure p c b
    have hrow := Row.hits_of_rowMatch (Laws.RowMatch.configure p c b) rfl rfl
    exact decodeCommand_eq_ok_iff.2 (.inl ⟨hrow, rfl, by rw [hp, hc, hb]⟩)
  | release p =>
    have hrow := Row.hits_of_rowMatch (Laws.RowMatch.release p) rfl rfl
    exact decodeCommand_eq_ok_iff.2 (.inr (.inl ⟨hrow, rfl, by rw [cmdPeer_encodeRelease]⟩))
  | execute p n base =>
    obtain ⟨hp, hn⟩ := fields_encodeExecute p n
    have hrow := Row.hits_of_rowMatch (Laws.RowMatch.execute p n base) rfl rfl
    exact decodeCommand_eq_ok_iff.2 (.inr (.inr ⟨hrow, by rw [hp, hn]⟩))
  | xferTx rxp len a =>
    obtain ⟨hlen, -⟩ : len ≠ 0#32 ∧ a.wf len = true := by simpa [Instr.wf] using hwf
    exact decodeWords_encode_of_instr (t := txTransfer rxp len a) (if_neg hlen)
  | xferRx len a =>
    obtain ⟨hlen, -⟩ : len ≠ 0#32 ∧ a.wf len = true := by simpa [Instr.wf] using hwf
    exact decodeWords_encode_of_instr (t := rxTransfer len a) (if_neg hlen)
  | xferSkip txp rxp a => exact decodeWords_encode_of_instr (t := skipTransfer txp rxp a) (if_pos rfl)
  | _ => cases henc

/-- Settles O2: the words that decode are the operand bits over the row's pattern, which is what the encoder gives. -/
theorem encodeOfDecodedWordsIsThoseWords : Obligations.EncodeOfDecodedWordsIsThoseWords := by
  intro ws i h
  unfold decodeWords at h
  split at h
  · next cmd arg =>
    obtain ⟨hrow, rfl, rfl⟩ | ⟨hrow, rfl, rfl⟩ | ⟨hrow, rfl⟩ := decodeCommand_eq_ok_iff.1 h
    · rw [encode, encodeConfigure_fields, ← Row.eq_of_hits hrow]
    · rw [encode, encodeRelease_fields, ← Row.eq_of_hits hrow]
    · rw [encode, encodeExecute_fields, ← Row.eq_of_hits hrow]
  · obtain ⟨hclear, hinstr⟩ := decodeDescriptor_eq_ok_iff.1 h
    rw [encode_of_instr hinstr, Td.td_transfer hclear, Td.words]
  · cases h

/-! ## The kinds of a descriptor (R100) -/

/-- The test of two rows at once. -/
def Row.both (r r' : Row) : Row := ⟨r.mask ||| r'.mask, r.pattern ||| r'.pattern⟩

/-- The test of one bit. -/
def Row.bit (i : Nat) (b : Bool) : Row := ⟨BitVec.twoPow 32 i, if b then BitVec.twoPow 32 i else 0#32⟩

/-- Rows that test different bits are tested at once as they are one by one. -/
theorem Row.hits_both {r r' : Row} (hd : r.mask &&& r'.mask = 0#32) (hp : r.pattern &&& r.mask = r.pattern)
    (hp' : r'.pattern &&& r'.mask = r'.pattern) {w : Word} :
    (r.both r').hits w = true ↔ r.hits w = true ∧ r'.hits w = true := by
  have hd' : r'.mask &&& r.mask = 0#32 := by rw [BitVec.and_comm, hd]
  have hz : r.pattern &&& r'.mask = 0#32 := by rw [← hp, BitVec.and_assoc, hd, BitVec.and_zero]
  have hz' : r'.pattern &&& r.mask = 0#32 := by rw [← hp', BitVec.and_assoc, hd', BitVec.and_zero]
  simp only [Row.hits_iff, Row.both]
  constructor
  · intro h
    have hand (x : Word) :
        w &&& ((r.mask &&& x) ||| (r'.mask &&& x)) = (r.pattern &&& x) ||| (r'.pattern &&& x) := by
      rw [← BitVec.and_or_distrib_right, ← BitVec.and_assoc, h, BitVec.and_or_distrib_right]
    exact ⟨by simpa [hd', hp, hz'] using hand r.mask, by simpa [hd, hp', hz] using hand r'.mask⟩
  · rintro ⟨h, h'⟩
    rw [BitVec.and_or_distrib_left, h, h']

theorem Row.hits_bit (w : Word) {i : Nat} (hi : i < 32) (b : Bool) :
    (Row.bit i b).hits w = true ↔ w.getLsbD i = b := by
  have hne : BitVec.twoPow 32 i ≠ 0#32 := fun h => by
    have hbit := congrArg (·.getLsbD i) h
    simp [hi] at hbit
  rw [Row.hits_iff, Row.bit, BitVec.and_twoPow]
  cases b <;> cases w.getLsbD i <;> simp [hne, hne.symm]

/-- The row of XFER.TX tests TXP beside the reserved bits. -/
theorem Row.hits_xferTx_iff {w : Word} :
    Row.xferTx.hits w = true ↔ Row.xferSkip.hits w = true ∧ w.getLsbD 0 = true := by
  have hrow : Row.xferTx = Row.xferSkip.both (.bit 0 true) := by decide
  rw [hrow, Row.hits_both (by decide) (by decide) (by decide), Row.hits_bit w (by decide)]

/-- The row of XFER.RX tests TXP and RXP beside the reserved bits. -/
theorem Row.hits_xferRx_iff {w : Word} : Row.xferRx.hits w = true ↔
    Row.xferSkip.hits w = true ∧ w.getLsbD 0 = false ∧ w.getLsbD 1 = true := by
  have hrow : Row.xferRx = Row.xferSkip.both ((Row.bit 0 false).both (.bit 1 true)) := by decide
  rw [hrow, Row.hits_both (by decide) (by decide) (by decide), Row.hits_both (by decide) (by decide) (by decide),
    Row.hits_bit w (by decide), Row.hits_bit w (by decide)]

theorem Transfer.instr_isTx_iff (t : Transfer) :
    (∃ r l a, t.instr = some (.xferTx r l a)) ↔ t.txp = true ∧ t.len ≠ 0#32 := by
  obtain ⟨hl, e⟩ | ⟨hl, htx, e⟩ | ⟨hl, htx, -, e⟩ | ⟨hl, htx, -, e⟩ := t.instr_cases <;> simp [*]

theorem Transfer.instr_isRx_iff (t : Transfer) :
    (∃ l a, t.instr = some (.xferRx l a)) ↔ (t.txp = false ∧ t.rxp = true) ∧ t.len ≠ 0#32 := by
  obtain ⟨hl, e⟩ | ⟨hl, htx, e⟩ | ⟨hl, htx, hrx, e⟩ | ⟨hl, htx, hrx, e⟩ := t.instr_cases <;> simp [*]

theorem Transfer.instr_isSkip_iff (t : Transfer) :
    (∃ x r a, t.instr = some (.xferSkip x r a)) ↔ t.len = 0#32 := by
  obtain ⟨hl, e⟩ | ⟨hl, -, e⟩ | ⟨hl, -, -, e⟩ | ⟨hl, -, -, e⟩ := t.instr_cases <;> simp [*]

/-- Settles O4: R100's cases, and its rows as tests of TXP and RXP beside the reserved bits. -/
theorem descriptorKindFollowsLengthAndBuffers : Obligations.DescriptorKindFollowsLengthAndBuffers := by
  constructor
  · intro t
    obtain ⟨hl, e⟩ | ⟨hl, htx, e⟩ | ⟨hl, htx, hrx, e⟩ | ⟨hl, htx, hrx, e⟩ := t.instr_cases <;> simp [*]
  · intro d
    have htx : Row.xferTx.hits d.ctrl = true ↔ d.ctrl &&& 0x0000C0FD#32 = 1#32 := Row.hits_iff
    have hrx : Row.xferRx.hits d.ctrl = true ↔ d.ctrl &&& 0x0000C0FF#32 = 2#32 := Row.hits_iff
    have hskip : Row.xferSkip.hits d.ctrl = true ↔ d.ctrl &&& 0x0000C0FC#32 = 0#32 := Row.hits_iff
    rw [← htx, ← hrx, ← hskip, Row.hits_xferTx_iff, Row.hits_xferRx_iff]
    simp only [decodeDescriptor_eq_ok_iff, exists_and_left, Transfer.instr_isTx_iff, Transfer.instr_isRx_iff,
      Transfer.instr_isSkip_iff, Td.reservedClear, Td.transfer, and_assoc, and_self]

/-! ## Words of the spec (95_test_vectors.md section 3.6) -/

/-- Settles O5: by evaluation. -/
theorem specWordsDecodeToTheirInstructions : Obligations.SpecWordsDecodeToTheirInstructions := by
  refine ⟨?_, ?_, ?_, ?_, ?_, ?_, ?_, ?_, ?_⟩ <;> rfl

/-! ## Units (R101, R156, R163) -/

theorem unitBytes_one {w : BitVec 6} (h : w.toNat ≤ 8) : unitBytes w = 1#3 := if_pos h

theorem unitBytes_two {w : BitVec 6} (h : 9 ≤ w.toNat) (h' : w.toNat ≤ 16) : unitBytes w = 2#3 := by
  rw [unitBytes, if_neg (by omega), if_pos h']

theorem unitBytes_four {w : BitVec 6} (h : 17 ≤ w.toNat) : unitBytes w = 4#3 := by
  rw [unitBytes, if_neg (by omega), if_neg (by omega)]

theorem toNat_unitCount (len : Word) (u : BitVec 3) : (unitCount len u).toNat = len.toNat / u.toNat := by
  have hlt : len.toNat / u.toNat < 2 ^ 32 := (Nat.div_le_self _ _).trans_lt len.isLt
  rw [unitCount, BitVec.toNat_ofNat, Nat.mod_eq_of_lt hlt]

theorem toNat_bytesProcessed (c : Word) (u : BitVec 3) : (bytesProcessed c u).toNat = c.toNat * u.toNat % 2 ^ 32 := by
  simp [bytesProcessed]

/-- Settles O33: the sizes at their boundaries, the count as the quotient. -/
theorem unitSizeFollowsTheWordLength : Obligations.UnitSizeFollowsTheWordLength := by
  intro w len _ _
  refine ⟨fun h => by rw [unitBytes_one h]; rfl, fun h h' => by rw [unitBytes_two h h']; rfl,
    fun h => by rw [unitBytes_four h]; rfl, toNat_unitCount len _, fun hmod => ?_⟩
  have hcount : (unitCount len (unitBytes w)).toNat * (unitBytes w).toNat = len.toNat := by
    rw [toNat_unitCount, Nat.div_mul_cancel (Nat.dvd_of_mod_eq_zero hmod)]
  refine ⟨hcount, BitVec.eq_of_toNat_eq ?_⟩
  rw [toNat_bytesProcessed, hcount, Nat.mod_eq_of_lt len.isLt]

end Sys2Proof

namespace Sys2Proof.Machine

/-! ## Ill-formed commands (R102, R111, R242) -/

/-- An idle engine answers a command the decoder rejects, the port freed (R50, R102). -/
theorem engineStep_illFormed {s : State} {c : Command} {e : DecodeError} (hq : s.ctl.seq = .idle)
    (hp : s.port = some c) (hd : decodeCommand c.cmd c.arg = .error e) :
    engineStep s = .next (answerIllFormed e s.takeCommand) := by
  simp [engineStep, fetch, fetchCommand, hq, hp, hd]

/-- At an idle engine CONFIGURE is its acceptance. -/
theorem exec_configure_idle (peer : BitVec 8) (cs : BitVec 2) (bpw : BitVec 6) {s : State} (hq : s.ctl.seq = .idle) :
    exec (.configure peer cs bpw) s = .next (acceptConfigure peer cs bpw s) := by
  simp [exec, execConfigure, hq]

theorem acceptConfigure_illegal (peer : BitVec 8) (cs : BitVec 2) {bpw : BitVec 6} (h : wordLengthLegal bpw = false)
    (s : State) : acceptConfigure peer cs bpw s = s.setSeq (.cfgRsp .einval) := by
  simp [acceptConfigure, h]

/-- Settles O6: the answer by the class of the error, and the operand checks of acceptance. -/
theorem illFormedCommandIsAnsweredInvalid : Obligations.IllFormedCommandIsAnsweredInvalid := by
  intro s hq
  refine ⟨fun c e hp hd => ?_, fun peer cs bpw hb => ?_, fun peer n base hb => ?_⟩
  · rw [engineStep_illFormed hq hp hd]
    obtain ⟨rfl, -⟩ | ⟨k, hk⟩ := decodeCommand_error hd
    · have hctl : { s.ctl with seq := .idle } = s.ctl := by rw [← hq]
      rw [if_pos rfl, answerIllFormed, DecodeError.cmdClass]
      simp only [State.respond, State.setSeq, State.emit, State.takeCommand, State.setPort, hctl]
    · have hne : e ≠ .reservedOpcode := by rintro rfl; cases hk
      rw [answerIllFormed, if_neg hne, hk]
      cases k <;> rfl
  · have hill : wordLengthLegal bpw = false := by rwa [Bool.eq_false_iff, ne_eq, wordLengthLegal_iff]
    rw [exec_configure_idle peer cs bpw hq, acceptConfigure_illegal peer cs hill]
    rfl
  · rw [exec_execute_idle peer n base hq]
    obtain ⟨-, e⟩ | ⟨_, hb', -⟩ | ⟨_, hb', -⟩ := acceptExecute_cases peer n base s
    · rw [e]; rfl
    · exact absurd hb' hb
    · exact absurd hb' hb

/-! ## The acceptance of EXECUTE (R103, R111, R180, R181) -/

/-- A message of well-formed descriptors and a valid list is accepted (R103, R182). -/
theorem messageAccepted_eq_true {recLen : BitVec 6} {tds : List Td}
    (h : ∀ d ∈ tds, d.ctrl &&& 0x0000C0FC#32 = 0#32 ∧ d.transfer.wellFormed recLen = true)
    (hval : validate (tds.map Td.transfer) = true) : messageAccepted recLen tds = true := by
  have hall : tds.all (fun d => d.reservedClear && d.transfer.wellFormed recLen) = true := by
    rw [List.all_eq_true]
    exact fun d hd => by simpa [Td.reservedClear, Row.hits, Row.xferSkip] using h d hd
  rw [messageAccepted, hall, hval, Bool.and_self]

/-- Settles O40: the accepting cases of acceptance and of the last fetch step. -/
theorem executeAcceptsAGoodMessage : Obligations.ExecuteAcceptsAGoodMessage := by
  refine ⟨fun peer n base k s hq hb hk hn => ?_, fun peer n base v ws s hq hv hlast hv' hws hwf hval => ?_⟩
  · rw [exec_execute_idle peer n base hq]
    obtain ⟨h, -⟩ | ⟨_, -, -, hn', -⟩ | ⟨k', -, hk', -, e⟩ := acceptExecute_cases peer n base s
    · simp [hb, hk] at h
    · exact absurd hn' hn
    · obtain rfl : k = k' := by simpa [hk] using hk'
      rw [e]
  · subst hv' hws
    rw [exec_execute_fetchDesc peer n base hq hv]
    obtain ⟨hne, -⟩ | ⟨-, e⟩ := fetchDescriptorWord_cases s
    · exact absurd hlast hne
    · have hacc := messageAccepted_eq_true hwf hval
      rw [e, fetchedWord, descWordAddr, hacc]
      rfl

/-! ## The words of the ports (R107, R240) -/

/-- The bits of a word put together count as a sum. -/
theorem toNat_append_eq_add {m n : Nat} (x : BitVec m) (y : BitVec n) :
    (x ++ y).toNat = x.toNat * 2 ^ n + y.toNat := by
  rw [BitVec.toNat_append, ← Nat.shiftLeft_add_eq_or_of_lt y.isLt, Nat.shiftLeft_eq]

/-- Settles O60: the words are appended fields, whose numbers add up. -/
theorem responseWordsCarryStatusAndHandle : Obligations.ResponseWordsCarryStatusAndHandle := by
  intro st h n
  refine ⟨rfl, ?_, ?_, rfl, rfl, rfl, rfl, rfl⟩
  · have hword : (rspWord st h).toNat = ((0 * 2 ^ 2 + h.toNat) * 2 ^ 4 + 0) * 2 ^ 4 + st.code.toNat := by
      simp only [rspWord, toNat_append_eq_add, BitVec.toNat_ofNat, Nat.zero_mod]
    omega
  · have hcpl : (cplWords st n).1 = st.code.zeroExtend 32 := by
      cases st <;> rfl
    rw [Event.portWords, hcpl, cplWords]

end Sys2Proof.Machine
end

section
/-!
PROOFS. The statements of family 40_register_interface: the Assert write, what exec and a row do to the caches, and the
coherency checker.
-/
namespace Sys2Proof.Machine

/-! ## The Assert row (R184) -/

/-- The Assert update sets bit 31 (R184). -/
theorem applyUpdates_assert (v : Word) : applyUpdates assertUpdate v = v ||| 0x80000000#32 := by
  have hmask : bitsMask (ConfField.lo .spien) (ConfField.width .spien) = 0x80000000#32 := by decide
  have hone : (1#32 <<< ConfField.lo .spien) &&& 0x80000000#32 = 0x80000000#32 := by decide
  simp only [applyUpdates, assertUpdate, List.foldl_cons, List.foldl_nil, setField, setBits, hmask, hone]
  ext i hi
  simp only [BitVec.getElem_or, BitVec.getElem_and, BitVec.getElem_not]
  cases (0x80000000#32 : Word)[i] <;> simp

/-- Settles O43: Assert is CONF.UPDATE with the cache set (`updateThen_cached`). -/
theorem assertWritesTheCacheWithSpienSet : Obligations.AssertWritesTheCacheWithSpienSet := by
  intro peer n base s hq hv hc hu
  refine ⟨_, _, ?_, rfl, rfl⟩
  have hctl : { s.ctl with seq := .assertWait, wait := .sample, upd := .none } =
      { s.ctl with seq := .assertWait, wait := .sample } := by rw [← hu]
  rw [exec_execute_busy _ _ _ (by simp [hq])]
  simp only [resumeExecute, hq]
  rw [State.onRecord_valid hv, assertWrite,
    updateThen_cached _ _ (s := s.setW { s.w with status := .ok, actual := 0#32 }) hu hc, applyUpdates_assert, ← hctl]
  rfl

/-! ## What exec does to the records -/

/-- One record after a row: as before, or, in W.slot, with the cache and the shadow just written (R122). -/
theorem ConfBy.get {s t : State} {o : Option Word} (h : ConfBy s t o) (k : Slot) :
    t.recs.get k = s.recs.get k ∨ (k = s.w.slot ∧ ∃ v, o = some v ∧
      t.recs.get k = { s.recs.get k with cache := v, cacheValid := true, shadow := v, shadowValid := true }) := by
  cases o with
  | none => exact .inl (by rw [h.1])
  | some v =>
    rw [h.recs, Recs.get_set]
    split
    · next hk => subst hk; exact .inr ⟨rfl, v, rfl, rfl⟩
    · exact .inl rfl

/-- A step of CONF.UPDATE writes what it writes, or nothing (R124). -/
theorem confUpdate_conf (us : List FieldUpdate) (s : State) : ConfBy s (confUpdate us s) (confValue us s) := by
  obtain ⟨v, r, hv, e⟩ | ⟨hv, -, e⟩ := confUpdate_cases us s <;> rw [hv, e] <;> exact ⟨rfl, rfl, rfl⟩

theorem regWrite_conf_written (v : Word) (s : State) : ConfBy s (regWrite .conf v s) (some v) := ⟨rfl, rfl, rfl⟩

theorem transferPio_conf (x : Transfer) (s : State) : ConfKept s (transferPio x s) := by
  have hpio : ConfKept s (pioStep x s.w.wl s) := ⟨by simp, by simp, by simp⟩
  simp only [transferPio, transferAccount]
  split
  · split
    · exact hpio.trans (afterTransfer_conf x _)
    · exact hpio.trans ⟨rfl, rfl, rfl⟩
  · exact hpio

/-- The next step of any transfer, in whatever row it is run: the records are kept, or CONF is written (R190). -/
theorem transferStep_conf {x : Transfer} {s t : State} (h : transferStep x s = .next t) : ∃ o, ConfBy s t o := by
  have hdelay (u : State) : ConfBy u (transferDelay x u) none := transferDelay_conf x u
  unfold transferStep at h
  split at h
  · obtain rfl : skipTransferStep x s = t := by simpa using h
    refine ⟨none, ?_⟩
    unfold skipTransferStep
    split
    · exact hdelay s
    all_goals
      split
      · exact nextTransfer_conf s
      · exact hdelay (enterDelay s)
  · obtain ⟨-, rfl⟩ := State.onRecord_next h
    unfold dataTransferStep
    split
    · exact ⟨_, transferConfWr_conf x s⟩
    · exact ⟨none, transferPio_conf x s⟩
    · exact ⟨none, hdelay s⟩
    all_goals exact ⟨_, (transferConfWr_conf x (transferHead x s)).of rfl rfl rfl rfl⟩

/-- Acceptance of CONFIGURE keeps the records and CONF, or changes one record (R221 to R226). -/
theorem acceptConfigure_recs (p : BitVec 8) (c : BitVec 2) (b : BitVec 6) {s : State} (hi : s.ctl.seq = .idle) :
    ConfKept s (acceptConfigure p c b s) ∨
      ∃ k r, RecChange s k r ∧ (acceptConfigure p c b s).recs = s.recs.set k r := by
  obtain ⟨_, -, e⟩ | ⟨k, hb, -, e⟩ | ⟨k, hb, hp, -, e⟩ := acceptConfigure_cases p c b s <;> rw [e]
  · exact .inl ⟨rfl, rfl, rfl⟩
  · exact .inr ⟨k, _, .reconfigured c hb, rfl⟩
  · exact .inr ⟨k, _, .created hi hp c hb, rfl⟩

theorem exec_release_idle (peer : BitVec 8) {s : State} (hq : s.ctl.seq = .idle) :
    exec (.release peer) s = .next (acceptRelease peer s) :=
  if_pos hq

/-- Acceptance of RELEASE keeps the records and CONF, or clears one record (R228). -/
theorem acceptRelease_recs (p : BitVec 8) (s : State) :
    ConfKept s (acceptRelease p s) ∨ ∃ k r, RecChange s k r ∧ (acceptRelease p s).recs = s.recs.set k r := by
  obtain ⟨k, -, e⟩ | ⟨-, e⟩ := acceptRelease_cases p s <;> rw [e]
  · exact .inr ⟨k, _, .released, rfl⟩
  · exact .inl ⟨rfl, rfl, rfl⟩

/-- Acceptance of EXECUTE keeps the records and CONF (R180). -/
theorem acceptExecute_conf (p n : BitVec 8) (base : Word) (s : State) : ConfKept s (acceptExecute p n base s) := by
  obtain ⟨-, e⟩ | ⟨k, -, -, -, e⟩ | ⟨k, -, -, -, e⟩ := acceptExecute_cases p n base s <;> rw [e] <;> exact ⟨rfl, rfl, rfl⟩

/-- A host command at a busy engine is held, or is the one in progress and goes on (R50). -/
theorem exec_command_busy {i : Instr} {s : State} (hi : s.ctl.seq ≠ .idle)
    (hc : (∃ p c b, i = .configure p c b) ∨ (∃ p, i = .release p) ∨ ∃ p n b, i = .execute p n b) :
    exec i s = .next s ∨ exec i s = engineStep s := by
  rw [engineStep_busy hi]
  obtain ⟨p, c, b, rfl⟩ | ⟨p, rfl⟩ | ⟨p, n, b, rfl⟩ := hc
  · rw [exec_configure_busy _ _ _ hi]
    cases hq : s.ctl.seq <;> simp [resumeConfigure, resume, hq]
  · rw [exec_release_busy _ hi]
    cases hq : s.ctl.seq <;> simp [resumeRelease, resume, hq]
  · rw [exec_execute_busy _ _ _ hi]
    cases hq : s.ctl.seq <;> simp [resumeExecute, resume, hq]

/-- A host command at a busy engine keeps the records and CONF, or writes CONF. -/
theorem exec_command_busy_conf {i : Instr} {s t : State} (hi : s.ctl.seq ≠ .idle)
    (hc : (∃ p c b, i = .configure p c b) ∨ (∃ p, i = .release p) ∨ ∃ p n b, i = .execute p n b)
    (h : exec i s = .next t) : ∃ o, ConfBy s t o := by
  obtain hheld | hrow := exec_command_busy hi hc
  · obtain rfl : s = t := by simpa [hheld] using h
    exact ⟨none, rfl, rfl, rfl⟩
  · exact ⟨_, (engineStep_row (hrow ▸ h)).conf hi⟩

/-- Everything exec of an instruction can do to the records: keep them, write CONF through W.slot, or, accepting a
command, change one record (R122, R221, R228). -/
theorem exec_recs {i : Instr} {s t : State} (h : exec i s = .next t) :
    (∃ o, ConfBy s t o) ∨ ∃ k r, RecChange s k r ∧ t.recs = s.recs.set k r := by
  cases i with
  | configure p c b =>
    by_cases hi : s.ctl.seq = .idle
    · rw [exec_configure_idle _ _ _ hi, Host.Outcome.next.injEq] at h
      rw [← h]
      exact (acceptConfigure_recs p c b hi).imp_left fun hkept => ⟨none, hkept⟩
    · exact .inl (exec_command_busy_conf hi (.inl ⟨p, c, b, rfl⟩) h)
  | release p =>
    by_cases hi : s.ctl.seq = .idle
    · rw [exec_release_idle _ hi, Host.Outcome.next.injEq] at h
      rw [← h]
      exact (acceptRelease_recs p s).imp_left fun hkept => ⟨none, hkept⟩
    · exact .inl (exec_command_busy_conf hi (.inr (.inl ⟨p, rfl⟩)) h)
  | execute p n base =>
    by_cases hi : s.ctl.seq = .idle
    · rw [exec_execute_idle _ _ _ hi, Host.Outcome.next.injEq] at h
      rw [← h]
      exact .inl ⟨none, acceptExecute_conf p n base s⟩
    · exact .inl (exec_command_busy_conf hi (.inr (.inr ⟨p, n, base, rfl⟩)) h)
  | xferTx rxp len a => exact .inl (transferStep_conf h)
  | xferRx len a => exact .inl (transferStep_conf h)
  | xferSkip txp rxp a => exact .inl (transferStep_conf (x := skipTransfer txp rxp a) h)
  | regRead r =>
    obtain ⟨-, rfl⟩ := State.onRecord_next h
    exact .inl ⟨none, by simp, by simp, by simp⟩
  | regWrite r v =>
    obtain ⟨-, rfl⟩ := State.onRecord_next h
    by_cases hr : r = .conf
    · exact .inl ⟨some v, hr ▸ regWrite_conf_written v s⟩
    · rw [regWrite_other v hr]
      exact .inl ⟨none, rfl, rfl, rfl⟩
  | confUpdate us =>
    obtain ⟨-, rfl⟩ := State.onRecord_next h
    exact .inl ⟨_, confUpdate_conf us s⟩
  | waitBit b =>
    obtain ⟨-, rfl⟩ := State.onRecord_next h
    exact .inl ⟨none, by simp, by simp, by simp⟩
  | pioRun x wl =>
    obtain ⟨-, rfl⟩ := State.onRecord_next h
    exact .inl ⟨none, by simp, by simp, by simp⟩
  | delay d =>
    obtain rfl : delayStep d s = t := by simpa [exec, execDelay] using h
    exact .inl ⟨none, by simp, by simp, by simp⟩
  | yield =>
    obtain rfl : yieldOp s = t := by simpa [exec, execYield] using h
    exact .inl ⟨none, rfl, rfl, rfl⟩

/-! ## COH_OK (R128) -/

theorem State.cohOk_iff (s : State) : s.cohOk = true ↔ ∀ k, (s.recs.get k).coherent = true := by
  simp only [State.cohOk, Bool.and_eq_true]
  refine ⟨fun ⟨⟨⟨h0, h1⟩, h2⟩, h3⟩ k => ?_, fun h => ⟨⟨⟨h .s0, h .s1⟩, h .s2⟩, h .s3⟩⟩
  cases k <;> assumption

/-- A record a row puts into a slot is coherent where the slot's old one was: its cache is kept with its shadow, cleared
with it, or written with it (R126). -/
theorem RecChange.coherent {s : State} {k : Slot} {r : Rec} (h : RecChange s k r)
    (hk : (s.recs.get k).coherent = true) : r.coherent = true := by
  cases h with
  | reconfigured cs hb => exact hk
  | created hi hp cs hb => simp [Rec.coherent]
  | released => simp [Rec.coherent]
  | written hk hv => simp [Rec.coherent]

theorem RecChange.cohOk {s t : State} {k : Slot} {r : Rec} (h : RecChange s k r) (e : t.recs = s.recs.set k r)
    (hs : s.cohOk = true) : t.cohOk = true := by
  rw [State.cohOk_iff] at hs ⊢
  intro j
  rw [e, Recs.get_set]
  split
  · exact h.coherent (hs k)
  · exact hs j

theorem ConfBy.cohOk {s t : State} {o : Option Word} (h : ConfBy s t o) (hs : s.cohOk = true) : t.cohOk = true := by
  rw [State.cohOk_iff] at hs ⊢
  intro k
  obtain e | ⟨-, v, -, e⟩ := h.get k <;> rw [e]
  · exact hs k
  · simp [Rec.coherent]

/-- Every instruction keeps COH_OK (R126, R128). -/
theorem exec_cohOk {i : Instr} {s t : State} (h : exec i s = .next t) (hs : s.cohOk = true) : t.cohOk = true := by
  obtain ⟨o, hconf⟩ | ⟨k, r, hchange, e⟩ := exec_recs h
  · exact hconf.cohOk hs
  · exact hchange.cohOk e hs

/-- Every row keeps COH_OK (R126, R128). -/
theorem EngineRow.cohOk {s t : State} (h : EngineRow s t) (hs : s.cohOk = true) : t.cohOk = true := by
  obtain e | ⟨k, r, hchange, e⟩ := h.recs
  · rwa [State.cohOk, e]
  · exact hchange.cohOk e hs

/-! ## Where a step can fault (R121, R129) -/

theorem State.onRecord_fault {s t : State} {f : Fault} (h : s.onRecord t = .fault f) :
    f = .recordNotValid ∧ s.record.valid = false := by
  cases hv : s.record.valid with
  | true => simp [State.onRecord_valid hv] at h
  | false =>
    rw [State.onRecord_invalid hv, Host.Outcome.fault.injEq] at h
    exact ⟨h.symm, rfl⟩

theorem loopStep_fault {s : State} {f : Fault} (h : loopStep s = .fault f) :
    f = .recordNotValid ∧ s.record.valid = false := by
  unfold loopStep at h
  split at h
  · unfold transferStep at h
    split at h
    · cases h
    · exact State.onRecord_fault h
  · exact State.onRecord_fault h

theorem resume_fault {s : State} {f : Fault} (h : resume s = .fault f) :
    f = .recordNotValid ∧ s.ctl.seq.usesRecord = true ∧ s.record.valid = false := by
  cases hq : s.ctl.seq with
  | cfgWr | fetchDesc | assertWr | assertWait | deassertWr =>
    simp only [resume, resumeConfigure, resumeExecute, hq] at h
    obtain ⟨hf, hv⟩ := State.onRecord_fault h
    exact ⟨hf, rfl, hv⟩
  | xferHead | xferConfWr | xferPio | xferDelay =>
    simp only [resume, resumeExecute, hq] at h
    obtain ⟨hf, hv⟩ := loopStep_fault h
    exact ⟨hf, rfl, hv⟩
  | _ => simp [resume, resumeConfigure, resumeRelease, resumeExecute, hq] at h

/-- An idle engine does not fault: it waits, answers or accepts. -/
theorem engineStep_idle {s : State} (hi : s.ctl.seq = .idle) : ∃ t, engineStep s = .next t := by
  cases hp : s.port with
  | none => exact ⟨s, by simp [engineStep, fetch, fetchCommand, hi, hp]⟩
  | some c =>
    cases hd : decodeCommand c.cmd c.arg with
    | error e => exact ⟨_, engineStep_illFormed hi hp hd⟩
    | ok i =>
      have hi' : s.takeCommand.ctl.seq = .idle := hi
      rw [engineStep_command hi hp hd]
      obtain ⟨p, cs, b, rfl⟩ | ⟨p, rfl⟩ | ⟨p, n, b, rfl⟩ := decodeCommand_ok hd
      · exact ⟨_, exec_configure_idle p cs b hi'⟩
      · exact ⟨_, exec_release_idle p hi'⟩
      · exact ⟨_, exec_execute_idle p n b hi'⟩

/-- A row faults only where it runs on the record of W.slot and there is none (R121). -/
theorem engineStep_fault {s : State} {f : Fault} (h : engineStep s = .fault f) :
    f = .recordNotValid ∧ s.ctl.seq.usesRecord = true ∧ s.record.valid = false := by
  by_cases hi : s.ctl.seq = .idle
  · obtain ⟨t, ht⟩ := engineStep_idle hi
    simp [ht] at h
  · rw [engineStep_busy hi] at h
    exact resume_fault h

/-- With COH_OK the checker passes every row, so a fault of the step is a fault of its row (R129). -/
theorem step_fault {s : State} {f : Fault} (hs : s.cohOk = true) (h : step s = .fault f) :
    engineStep s.arrive = .fault f := by
  unfold step at h
  split at h
  · cases h
  · cases he : engineStep s.arrive with
    | next t =>
      have ht : t.cohOk = true := (engineStep_row he).cohOk hs
      simp [he, checkCoherency, ht] at h
    | fault g => simpa [he, checkCoherency] using h
    | refused r => simp [he, checkCoherency] at h

/-- Settles O25: what exec does to the records (`exec_recs`), and that with COH_OK only a row faults, for want of a
record. -/
theorem everyOperationKeepsTheCachesCoherent : Obligations.EveryOperationKeepsTheCachesCoherent := by
  refine ⟨fun i s t hs h => exec_cohOk h hs, fun s hs h => ?_⟩
  obtain ⟨hf, -⟩ := engineStep_fault (step_fault hs h)
  cases hf

/-- Settles O28: a row that runs on a record has one, and the checker passes it. -/
theorem noStepFaults : Obligations.NoStepFaults := by
  intro s f hr hs h
  obtain ⟨-, huses, hinvalid⟩ := engineStep_fault (step_fault hs h)
  obtain ⟨-, hvalid, -⟩ := hr
  have hv : s.record.valid = true := hvalid huses
  exact absurd (hv.symm.trans hinvalid) (by decide)

end Sys2Proof.Machine
end

section
/-!
PROOFS. The statements of family 40_register_interface: what a step keeps of the running record, and of the others.
-/
namespace Sys2Proof.Machine

/-! ## The running record -/

/-- No row after acceptance changes W.slot. -/
theorem EngineRow.slot {s t : State} (h : EngineRow s t) (hi : s.ctl.seq ≠ .idle) : t.w.slot = s.w.slot := by
  by_cases hf : s.ctl.seq = .fetchDesc
  · rw [h.fetch_eq hf]
    obtain ⟨-, e⟩ | ⟨-, e⟩ := fetchDescriptorWord_cases s <;> rw [e]
  · exact (h.frame hi hf).slot

theorem ConfBy.valid {s t : State} {o : Option Word} (h : ConfBy s t o) (k : Slot) :
    (t.recs.get k).valid = (s.recs.get k).valid := by
  obtain e | ⟨-, v, -, e⟩ := h.get k <;> rw [e]

theorem ConfBy.cacheValid {s t : State} {o : Option Word} (h : ConfBy s t o) (k : Slot)
    (hk : (s.recs.get k).cacheValid = true) : (t.recs.get k).cacheValid = true := by
  obtain e | ⟨-, v, -, e⟩ := h.get k <;> rw [e]
  exact hk

theorem ConfBy.other {s t : State} {o : Option Word} (h : ConfBy s t o) {k : Slot} (hk : k ≠ s.w.slot) :
    t.recs.get k = s.recs.get k := by
  obtain e | ⟨hslot, -⟩ := h.get k
  · exact e
  · exact absurd hslot hk

/-! ## Global coherence (R127) -/

/-- A write of CONF makes its slot globally coherent (R127 a). -/
theorem ConfWritten.globallyCoherent {s t : State} {v : Word} (h : ConfWritten s t v) :
    t.globallyCoherent s.w.slot = true := by
  simp [State.globallyCoherent, h.recs, h.hwConf, h.hwConfValid]

theorem ConfKept.globallyCoherent {s t : State} (h : ConfKept s t) (k : Slot) :
    t.globallyCoherent k = s.globallyCoherent k := by
  obtain ⟨hrecs, hconf, hvalid⟩ := h
  simp only [State.globallyCoherent, hrecs, hconf, hvalid]

/-- The rows from the Assert write to the response (R127 c). -/
def SeqState.runs (q : SeqState) : Prop := q.asserted = true ∨ q = .finalCpl ∨ q = .finalRsp

/-- The run is entered only by the Assert write (R198). -/
theorem SeqState.runs_of_nexts {q q' : SeqState} (h : q' ∈ q.nexts) (hq : q'.runs) : q.runs ∨ q = .assertWr := by
  cases q with
  | fetchDesc =>
    have hfetch : q' = .fetchDesc ∨ q' = .assertWr ∨ q' = .rejRsp := by simpa [SeqState.nexts] using h
    obtain rfl | rfl | rfl := hfetch <;> simp [SeqState.runs, SeqState.asserted] at hq
  | _ => simp_all [SeqState.nexts, SeqState.runs, SeqState.asserted]

/-- The Assert row that does not write CONF stays (R16, R124). -/
theorem assertWrite_seq_of_read {s : State} (h : confValue assertUpdate s = none) :
    (assertWrite s).ctl.seq = s.ctl.seq := by
  obtain ⟨v, r, hv, -⟩ | ⟨-, -, e⟩ := updateThen_cases assertUpdate (fun t => (t.setSeq .assertWait).setWait .sample)
    (s.setW { s.w with status := .ok, actual := 0#32 })
  · have hwrite : confValue assertUpdate s = some v := hv
    simp [h] at hwrite
  · rw [assertWrite, e]; rfl

theorem EngineRow.assertWr_eq {s t : State} (h : EngineRow s t) (hq : s.ctl.seq = .assertWr) : t = assertWrite s := by
  cases h with
  | assertWr => rfl
  | _ => simp_all

/-- A row after acceptance that leads into the run without a write of CONF is in it already (R127 c). -/
theorem EngineRow.runs_of_kept {s t : State} (h : EngineRow s t) (hi : s.ctl.seq ≠ .idle) (hq : t.ctl.seq.runs)
    (hv : confRow s = none) : s.ctl.seq.runs := by
  obtain hrun | hassert := SeqState.runs_of_nexts (h.nextSeq hi) hq
  · exact hrun
  · have hstay : (assertWrite s).ctl.seq = s.ctl.seq := assertWrite_seq_of_read (by simpa [confRow, hassert] using hv)
    rwa [h.assertWr_eq hassert, hstay] at hq

theorem EngineRow.not_runs_of_idle {s t : State} (h : EngineRow s t) (hi : s.ctl.seq = .idle) : ¬t.ctl.seq.runs := by
  obtain ⟨hq, -⟩ := h.idle_effect hi
  simp only [List.mem_cons, List.not_mem_nil, or_false] at hq
  rcases hq with hq | hq | hq | hq | hq | hq | hq | hq <;> simp [hq, SeqState.runs, SeqState.asserted]

/-- A row keeps the run globally coherent: it writes CONF through W.slot, or keeps the records in the run. -/
theorem EngineRow.runGloballyCoherent {s t : State} (h : EngineRow s t) (hs : s.RunGloballyCoherent) :
    t.RunGloballyCoherent := by
  intro hq
  by_cases hi : s.ctl.seq = .idle
  · exact absurd hq (h.not_runs_of_idle hi)
  have hconf : ConfBy s t (confRow s) := h.conf hi
  rw [h.slot hi]
  cases hv : confRow s with
  | some v => rw [hv] at hconf; exact hconf.globallyCoherent
  | none =>
    rw [hv] at hconf
    rw [hconf.globallyCoherent]
    exact hs (h.runs_of_kept hi hq hv)

/-- Settles O26: REG.WRITE of CONF sets the cache and HW_CONF to one value, and a row of the run keeps both or writes
them so. -/
theorem runningMessageStaysGloballyCoherent : Obligations.RunningMessageStaysGloballyCoherent := by
  refine ⟨fun s t v h => ?_, fun s t hs h => (step_row h).runGloballyCoherent hs⟩
  obtain ⟨-, rfl⟩ := State.onRecord_next h
  exact (regWrite_conf_written v s).globallyCoherent

/-! ## Records ready -/

@[simp] theorem waitStep_upd (b : StatFlag) (s : State) : (waitStep b s).ctl.upd = s.ctl.upd := by
  obtain ⟨x, h⟩ := waitStep_ctl b s
  simp [h]

@[simp] theorem delayStep_upd (d : BitVec 16) (s : State) : (delayStep d s).ctl.upd = s.ctl.upd := by
  obtain ⟨x, h⟩ := delayStep_ctl d s
  simp [h]

@[simp] theorem gotoPio_upd (p : PioState) (s : State) : (gotoPio p s).ctl.upd = s.ctl.upd := by simp [gotoPio_ctl]

theorem pioWait_upd (b : StatFlag) {ok timeout : State → State} (s : State)
    (hok : ∀ u, (ok u).ctl.upd = u.ctl.upd) (htimeout : ∀ u, (timeout u).ctl.upd = u.ctl.upd) :
    (pioWait b ok timeout s).ctl.upd = s.ctl.upd := by
  simp only [pioWait]
  split <;> [split; skip] <;> simp [hok, htimeout]

/-- PIO.RUN has no CONF.UPDATE of its own (R157). -/
@[simp] theorem pioStep_upd (x : Transfer) (wl : BitVec 6) (s : State) : (pioStep x wl s).ctl.upd = s.ctl.upd := by
  unfold pioStep
  split
  · simp [pioEntry]
  · exact pioWait_upd .txrdy s (fun _ => rfl) fun _ => rfl
  · rfl
  · simp [pioTxWr, pioCount]
  · simp [pioRxDummy]
  · exact pioWait_upd .rxrdy s (fun _ => rfl) fun _ => rfl
  · simp [pioRxRd]
  · simp [pioRxMemWr, pioCount]
  · exact pioWait_upd .eot s (fun _ => rfl) fun _ => rfl
  · rfl

@[simp] theorem nextTransfer_upd (s : State) : (nextTransfer s).ctl.upd = s.ctl.upd := by
  obtain ⟨_, _, _, _, h, -⟩ := nextTransfer_frame s
  rw [h]

@[simp] theorem afterTransfer_upd (x : Transfer) (s : State) : (afterTransfer x s).ctl.upd = s.ctl.upd := by
  obtain ⟨_, _, _, _, h, -⟩ := afterTransfer_frame x s
  rw [h]

@[simp] theorem enterLoop_upd (s : State) : (enterLoop s).ctl.upd = s.ctl.upd := by
  obtain ⟨_, _, _, _, h, -⟩ := selectTransfer_frame (s.setW { s.w with xi := 0#8 })
  rw [enterLoop, h]
  rfl

@[simp] theorem transferDelay_upd (x : Transfer) (s : State) : (transferDelay x s).ctl.upd = s.ctl.upd := by
  simp only [transferDelay]
  split <;> simp

@[simp] theorem assertWait_upd (s : State) : (Machine.assertWait s).ctl.upd = s.ctl.upd := by
  simp only [Machine.assertWait]
  split <;> [split; skip] <;> simp [State.takeExit]

@[simp] theorem transferPio_upd (x : Transfer) (s : State) : (transferPio x s).ctl.upd = s.ctl.upd := by
  simp only [transferPio, transferAccount]
  split <;> [split; skip] <;> simp [State.takeExit]

@[simp] theorem fetchDescriptorWord_upd (s : State) : (fetchDescriptorWord s).ctl.upd = s.ctl.upd := by
  obtain ⟨-, e⟩ | ⟨-, e⟩ := fetchDescriptorWord_cases s <;> rw [e]

/-- A row that is a CONF.UPDATE with the cache set leaves none half done (R124). -/
theorem updateThen_upd (us : List FieldUpdate) {next : State → State} {s : State} (hu : s.ctl.upd = .none)
    (hc : s.record.cacheValid = true) (hnext : ∀ u, (next u).ctl.upd = u.ctl.upd) :
    (updateThen us next s).ctl.upd = .none := by
  rw [updateThen_cached us next hu hc, hnext]
  rfl

theorem transferConfWr_upd (x : Transfer) {s : State} (hu : s.ctl.upd = .none) (hc : s.record.cacheValid = true) :
    (transferConfWr x s).ctl.upd = .none :=
  updateThen_upd _ hu hc fun u => by simp [pioEntry]

theorem deassertWrite_upd {s : State} (hu : s.ctl.upd = .none) (hc : s.record.cacheValid = true) :
    (deassertWrite s).ctl.upd = .none :=
  updateThen_upd deassertUpdate (next := (State.setSeq · .finalCpl)) hu hc fun _ => rfl

theorem assertWrite_upd {s : State} (hu : s.ctl.upd = .none) (hc : s.record.cacheValid = true) :
    (assertWrite s).ctl.upd = .none :=
  updateThen_upd assertUpdate (next := fun t => (t.setSeq .assertWait).setWait .sample)
    (s := s.setW { s.w with status := .ok, actual := 0#32 }) hu hc fun _ => rfl

/-- No row leaves a CONF.UPDATE half done (R124 b). -/
theorem EngineRow.upd {s t : State} (h : EngineRow s t) (hr : s.RecordsReady) : t.ctl.upd = .none := by
  have hu : s.ctl.upd = .none := hr.1
  by_cases hi : s.ctl.seq = .idle
  · obtain ⟨-, -, -, -, hctl⟩ := h.accept_frame hi
    rw [hctl]
    exact hu
  have hcache {q : SeqState} (hq : s.ctl.seq = q) (hm : q.inMessage = true) : s.record.cacheValid = true :=
    hr.cacheValid (by rw [hq]; exact hm)
  cases h with
  | wait h => exact absurd h hi
  | illFormed h => exact absurd h hi
  | configure h => exact absurd h hi
  | release h => exact absurd h hi
  | execute h => exact absurd h hi
  | cfgWr h hv => simpa [configureWrite] using hu
  | fetchDesc h hv => simpa using hu
  | assertWr h hv => exact assertWrite_upd hu (hcache h rfl)
  | assertWait h hv => simpa using hu
  | loopEnd h hc hv =>
    refine deassertWrite_upd (s := s.setSeq .deassertWr) hu ?_
    obtain h | h | h | h := h <;> exact hcache h rfl
  | skipHead h hc hl => split <;> simpa [enterDelay] using hu
  | @head h x hc hl hv => exact transferConfWr_upd x (s := transferHead x s) hu (hcache h rfl)
  | @confWr h x hc hl hv => exact transferConfWr_upd x hu (hcache h rfl)
  | pio h hc hl hv => simpa using hu
  | delay h hc => simpa using hu
  | deassertWr h hv => exact deassertWrite_upd hu (hcache h rfl)
  | _ => exact hu

/-- A row that runs on a record comes from one that does (R198). -/
theorem SeqState.usesRecord_of_nexts {q q' : SeqState} (h : q' ∈ q.nexts) (hq : q'.usesRecord = true) :
    q.usesRecord = true := by
  cases q <;> simp_all [SeqState.nexts, SeqState.usesRecord]

/-- Accepting a command keeps the records ready: CONFIGURE and EXECUTE latch the slot of a record (R121, R222). -/
theorem EngineRow.recordsReady_idle {s t : State} (h : EngineRow s t) (hi : s.ctl.seq = .idle) (hr : s.RecordsReady) :
    t.RecordsReady := by
  have hupd : t.ctl.upd = .none := h.upd hr
  have hcache (k : Slot) (hk : (s.recs.get k).valid = true) : (s.recs.get k).cacheValid = true := by
    obtain ⟨-, -, hall⟩ := hr
    simpa [hi] using hall k hk
  -- one slot changed, to a record whose cache is set
  have hset {k : Slot} {r : Rec} (hr : r.valid = true → r.cacheValid = true) (j : Slot)
      (hj : ((s.recs.set k r).get j).valid = true) : ((s.recs.set k r).get j).cacheValid = true := by
    by_cases hjk : j = k
    · subst hjk
      simpa using hr (by simpa using hj)
    · rw [Recs.get_set_other _ _ hjk] at hj ⊢
      exact hcache j hj
  obtain rfl | ⟨-, ⟨q, hq, rfl⟩ | rfl | ⟨p, c, b, k, -, hk, rfl⟩ | ⟨p, c, b, k, -, -, -, rfl⟩ | ⟨p, k, -, rfl⟩ |
    ⟨p, n, base, k, -, hk, -, rfl⟩ | ⟨p, n, base, k, -, hk, -, rfl⟩⟩ := h.accept hi
  · exact hr
  · refine ⟨hupd, fun huses => ?_, fun j hj => .inl (hcache j hj)⟩
    rcases hq with rfl | rfl | rfl | rfl <;> cases huses
  · exact ⟨hupd, nofun, fun j hj => .inl (hcache j hj)⟩
  · have hvalid : (s.recs.get k).valid = true := (Recs.lookup_some hk).1
    refine ⟨hupd, fun _ => by simpa [State.record] using hvalid, fun j hj => .inl ?_⟩
    exact hset (r := { s.recs.get k with cs := c, wordLen := b }) (hcache k) j hj
  · refine ⟨hupd, fun _ => by simp [State.record], fun j hj => ?_⟩
    by_cases hjk : j = k
    · exact .inr ⟨rfl, hjk⟩
    · rw [Recs.get_set_other _ _ hjk] at hj ⊢
      exact .inl (hcache j hj)
  · exact ⟨hupd, nofun, fun j hj => .inl (hset (by simp) j hj)⟩
  · exact ⟨hupd, nofun, fun j hj => .inl (hcache j hj)⟩
  · exact ⟨hupd, fun _ => (Recs.lookup_some hk).1, fun j hj => .inl (hcache j hj)⟩

/-- A row keeps the records ready: W.slot keeps its record, and the CONF write of CONFIGURE sets its cache (R131). -/
theorem EngineRow.recordsReady {s t : State} (h : EngineRow s t) (hr : s.RecordsReady) : t.RecordsReady := by
  by_cases hi : s.ctl.seq = .idle
  · exact h.recordsReady_idle hi hr
  have hupd := h.upd hr
  obtain ⟨-, huses, hall⟩ := hr
  have hconf : ConfBy s t (confRow s) := h.conf hi
  refine ⟨hupd, fun hq => ?_, fun k hk => .inl ?_⟩
  · rw [State.record, h.slot hi, hconf.valid]
    exact huses (SeqState.usesRecord_of_nexts (h.nextSeq hi) hq)
  · obtain hset | ⟨hq, rfl⟩ := hall k (hconf.valid k ▸ hk)
    · exact hconf.cacheValid k hset
    · have hv : confRow s = some (confInit s.record.wordLen s.record.cs) := by simp [confRow, hq]
      rw [hv] at hconf
      rw [hconf.recs, Recs.get_set_same]

/-- Settles O27: acceptance latches a valid record, and a row after it keeps the records or sets a cache. -/
theorem stepKeepsRecordsReady : Obligations.StepKeepsRecordsReady :=
  fun _ _ hs h => (step_row h).recordsReady hs

/-! ## The other records (R259, R262) -/

/-- Settles O29: an accepted command changes the slot that `lookup` or `free` answers, a row after it that of W.slot. -/
theorem otherRecordsAreLeftAlone : Obligations.OtherRecordsAreLeftAlone := by
  intro s t k
  refine ⟨fun p c b hi h hv hp => ?_, fun p hi h hv hp => ?_, fun p n base hi h => ?_, fun hi hk h => ?_⟩
  · rw [exec_configure_idle _ _ _ hi, Host.Outcome.next.injEq] at h
    rw [← h]
    obtain ⟨_, -, e⟩ | ⟨j, -, hj, e⟩ | ⟨j, -, -, hj, e⟩ := acceptConfigure_cases p c b s <;> rw [e]
    · rfl
    · exact Recs.get_set_other _ _ fun hkj => hp (hkj ▸ (Recs.lookup_some hj).2)
    · refine Recs.get_set_other _ _ fun hkj => ?_
      simp [hkj, Recs.free_some hj] at hv
  · rw [exec_release_idle _ hi, Host.Outcome.next.injEq] at h
    rw [← h]
    obtain ⟨j, hj, e⟩ | ⟨-, e⟩ := acceptRelease_cases p s <;> rw [e]
    · exact Recs.get_set_other _ _ fun hkj => hp (hkj ▸ (Recs.lookup_some hj).2)
    · rfl
  · rw [exec_execute_idle _ _ _ hi, Host.Outcome.next.injEq] at h
    rw [← h, (acceptExecute_conf p n base s).1]
  · exact ConfBy.other ((step_row h).conf hi) hk

end Sys2Proof.Machine
end

section
/-!
PROOFS. The statements of family 41_status_wait: the rows of WAIT.BIT whole, the deadline before a final read, and the
waits of a PIO run.
-/
namespace Sys2Proof.Machine

/-! ## The rows of WAIT.BIT (R148) -/

/-- One read of STAT, whole (R141): the word is returned and latched in W.s. -/
theorem readStat_eq (s : State) : readStat s = { s with
    ret := s.win.stat
    trace := .busRd (s.record.base + 0x08#32) 0x08#32 s.win.stat :: s.trace
    w := { s.w with s := s.win.stat } } := by
  rw [readStat, regRead_other (by decide)]
  rfl

/-- A wait that is not running, or at W_SAMPLE, latches the time and the bit. -/
theorem waitStep_sample (b : StatFlag) {s : State} (h : s.ctl.wait = .none ∨ s.ctl.wait = .sample) :
    waitStep b s = { s with
      w := { s.w with bit := b, t0 := s.now }, trace := .sample :: s.trace, ctl := { s.ctl with wait := .poll } } := by
  obtain h | h := h <;> simp only [waitStep, h] <;> rfl

/-- A poll tests the bit first, then the deadline (R253). -/
theorem waitStep_poll (b : StatFlag) {s : State} (h : s.ctl.wait = .poll) : waitStep b s = { s with
    ret := s.win.stat
    trace := .busRd (s.record.base + 0x08#32) 0x08#32 s.win.stat :: s.trace
    w := { s.w with s := s.win.stat, wres := if b.isSet s.win.stat then .ok else s.w.wres }
    ctl := { s.ctl with
      wait := if b.isSet s.win.stat then .none else if 1000000 ≤ s.now - s.w.t0 then .final else .yield } } := by
  simp only [waitStep, h, waitPoll, readStat_eq]
  by_cases hset : b.isSet s.win.stat = true
  · simp only [if_pos hset]
    rfl
  · by_cases hlate : 1000000 ≤ s.now - s.w.t0 <;>
      simp [hset, hlate, State.expired, Config.waitTimeoutTicks, State.setWait]

/-- W_YIELD is one event, then the next poll (R145). -/
theorem waitStep_yield (b : StatFlag) {s : State} (h : s.ctl.wait = .yield) :
    waitStep b s = { s with trace := .yield :: s.trace, ctl := { s.ctl with wait := .poll } } := by
  simp only [waitStep, h]
  rfl

/-- The final read decides (R143). -/
theorem waitStep_final (b : StatFlag) {s : State} (h : s.ctl.wait = .final) : waitStep b s = { s with
    ret := s.win.stat
    trace := .busRd (s.record.base + 0x08#32) 0x08#32 s.win.stat :: s.trace
    w := { s.w with s := s.win.stat, wres := if b.isSet s.win.stat then .ok else .timeout }
    ctl := { s.ctl with wait := .none } } := by
  simp only [waitStep, h, waitFinal, readStat_eq]
  rfl

/-- Settles O30: WAIT.BIT on a valid record is `waitStep`, whose rows are the four equations above. -/
theorem waitBitAndYieldFollowTheirControlTable : Obligations.WaitBitAndYieldFollowTheirControlTable := by
  refine ⟨fun s => rfl, fun b s hv => ?_⟩
  rw [exec_waitBit b hv]
  exact ⟨fun h => congrArg Host.Outcome.next (waitStep_sample b h),
    fun h => congrArg Host.Outcome.next (waitStep_poll b h),
    fun h => congrArg Host.Outcome.next (waitStep_yield b h),
    fun h => congrArg Host.Outcome.next (waitStep_final b h)⟩

/-! ## The deadline (R142, R143) -/

/-- A wait that returns read the bit set and returns OK, or was at its final read, the bit clear, and returns
TIMEOUT. -/
theorem waitStep_returns {b : StatFlag} {s : State} (h : (waitStep b s).ctl.wait = .none) :
    (b.isSet s.win.stat = true ∧ (waitStep b s).w.wres = .ok) ∨
    (s.ctl.wait = .final ∧ b.isSet s.win.stat = false ∧ (waitStep b s).w.wres = .timeout) := by
  cases hw : s.ctl.wait with
  | none => simp [waitStep_sample b (.inl hw)] at h
  | sample => simp [waitStep_sample b (.inr hw)] at h
  | yield => simp [waitStep_yield b hw] at h
  | poll =>
    by_cases hset : b.isSet s.win.stat = true
    · exact .inl ⟨hset, (waitStep_bit_set b (.inl hw) hset).2⟩
    · simp only [waitStep_poll b hw, if_neg hset] at h
      split at h <;> cases h
  | final =>
    cases hset : b.isSet s.win.stat with
    | true => exact .inl ⟨rfl, (waitStep_bit_set b (.inr hw) hset).2⟩
    | false => exact .inr ⟨rfl, rfl, (waitStep_final_clear b hw hset).2⟩

theorem State.FinalAfterDeadline.of_ne {s : State} (h : s.ctl.wait ≠ .final) : s.FinalAfterDeadline :=
  fun hw => absurd hw h

/-- Only a poll leads to the final read, and only past the deadline (R142). -/
theorem waitStep_finalAfterDeadline (b : StatFlag) (s : State) : (waitStep b s).FinalAfterDeadline := by
  cases hw : s.ctl.wait with
  | none => exact .of_ne (by simp [waitStep_sample b (.inl hw)])
  | sample => exact .of_ne (by simp [waitStep_sample b (.inr hw)])
  | yield => exact .of_ne (by simp [waitStep_yield b hw])
  | final => exact .of_ne (by simp [waitStep_final b hw])
  | poll =>
    rw [waitStep_poll b hw]
    intro hfinal
    by_contra hlt
    have hearly : ¬1000000 ≤ s.now - s.w.t0 := hlt
    simp only [if_neg hearly] at hfinal
    split at hfinal <;> cases hfinal

/-- The Assert wait is a step of WAIT.BIT; what follows its return leaves WAIT and the times alone (R185). -/
theorem assertWait_finalAfterDeadline (s : State) : (Machine.assertWait s).FinalAfterDeadline := by
  have hstep := waitStep_finalAfterDeadline .eot s
  simp only [Machine.assertWait]
  split
  · split
    · obtain ⟨_, _, _, _, e, -⟩ := selectTransfer_frame
        ((waitStep .eot s).setW { (waitStep .eot s).w with xi := 0#8 })
      rw [enterLoop, e]
      exact hstep
    · exact hstep
  · exact hstep

/-- A PIO row that waits: the step of its wait, or what follows the return, which begins no final read. -/
theorem pioWait_finalAfterDeadline (b : StatFlag) {ok timeout : State → State} (s : State)
    (hok : ∀ u : State, u.ctl.wait = .none → (ok u).ctl.wait ≠ .final)
    (htimeout : ∀ u : State, u.ctl.wait = .none → (timeout u).ctl.wait ≠ .final) :
    (pioWait b ok timeout s).FinalAfterDeadline := by
  simp only [pioWait]
  split
  · next hw =>
    split
    · exact .of_ne (hok _ hw)
    · exact .of_ne (htimeout _ hw)
  · exact waitStep_finalAfterDeadline b s

/-- Going to a PIO state begins no final read. -/
theorem gotoPio_wait_ne_final (p : PioState) {s : State} (h : s.ctl.wait = .none) :
    (gotoPio p s).ctl.wait ≠ .final := by
  rw [gotoPio_ctl]
  dsimp only
  split
  · decide
  · simp [h]

theorem pioStep_finalAfterDeadline (x : Transfer) (wl : BitVec 6) {s : State} (h : s.ctl.pioWaits) :
    (pioStep x wl s).FinalAfterDeadline := by
  have hnone (hp : s.ctl.pio.waits = false) : s.ctl.wait = .none := not_not.mp fun hne => by
    simp [h.mp hne] at hp
  have hbreak (u : State) (_ : u.ctl.wait = .none) : (u.takeExit .pioBreak).ctl.wait ≠ .final := by
    simp [State.takeExit]
  unfold pioStep
  split <;> rename_i hp
  · exact .of_ne (gotoPio_wait_ne_final _ (hnone (by rw [hp]; rfl)))
  · exact pioWait_finalAfterDeadline _ s (fun u hw => by simp [hw]) hbreak
  · exact .of_ne (by simp [pioTxMemRd, hnone (by rw [hp]; rfl)])
  · exact .of_ne (gotoPio_wait_ne_final _ (by simpa using hnone (by rw [hp]; rfl)))
  · exact .of_ne (gotoPio_wait_ne_final _ (by simpa using hnone (by rw [hp]; rfl)))
  · exact pioWait_finalAfterDeadline _ s (fun u hw => by simp [hw]) hbreak
  · exact .of_ne (by simp [pioRxRd, hnone (by rw [hp]; rfl)])
  · exact .of_ne (gotoPio_wait_ne_final _ (by simpa using hnone (by rw [hp]; rfl)))
  · exact pioWait_finalAfterDeadline _ s (fun u hw => by simp [pioReturn, hw]) (fun u hw => by simp [hw])
  · exact .of_ne (by simp [pioReturn, hnone (by rw [hp]; rfl)])

/-- The account of a finished run leaves WAIT and the times alone (R191, R192). -/
theorem transferPio_finalAfterDeadline (x : Transfer) {s : State} (h : s.ctl.pioWaits) :
    (transferPio x s).FinalAfterDeadline := by
  have hstep := pioStep_finalAfterDeadline x s.w.wl h
  simp only [transferPio, transferAccount]
  split
  · split
    · obtain ⟨_, _, _, _, e, -⟩ := afterTransfer_frame x ((pioStep x s.w.wl s).setW
        { (pioStep x s.w.wl s).w with actual := (pioStep x s.w.wl s).w.actual + (pioStep x s.w.wl s).w.nRet })
      rw [e]
      exact hstep
    · exact hstep
  · exact hstep

/-- A row that is a CONF.UPDATE begins no final read where what follows its write begins none. -/
theorem updateThen_wait_ne_final (us : List FieldUpdate) {next : State → State} {s : State} (hw : s.ctl.wait = .none)
    (hnext : ∀ u : State, u.ctl.wait = .none → (next u).ctl.wait ≠ .final) :
    (updateThen us next s).ctl.wait ≠ .final := by
  obtain ⟨v, r, -, e⟩ | ⟨-, -, e⟩ := updateThen_cases us next s <;> rw [e]
  · exact hnext _ hw
  · simp [confRead, hw]

/-- A well-formed tuple has a wait running only in the Assert wait and in a PIO run (R43). -/
theorem Ctl.wf.seq_of_wait {c : Ctl} (h : c.wf) (hw : c.wait ≠ .none) : c.seq = .assertWait ∨ c.seq = .xferPio := by
  obtain ⟨-, hpio, -, hwait⟩ := h
  refine (hwait.mp hw).imp_right fun hwaits => hpio.mp fun hp => ?_
  simp [hp, PioState.waits] at hwaits

/-- The rows that lead to a control state with a wait in it (R198). -/
theorem SeqState.waits_of_nexts {q q' : SeqState} (h : q' ∈ q.nexts) (hq : q' = .assertWait ∨ q' = .xferPio) :
    q = .assertWr ∨ q = .assertWait ∨ q = .xferHead ∨ q = .xferConfWr ∨ q = .xferPio := by
  obtain rfl | rfl := hq <;> cases q <;> simp_all [SeqState.nexts]

/-- A row leaves a final read to come only past the deadline: a wait is running only after an Assert or a PIO row, and
these begin one by a poll alone. -/
theorem EngineRow.finalAfterDeadline {s t : State} (h : EngineRow s t) (hm : s.MessageChecked) (hs : s.ctl.wf) :
    t.FinalAfterDeadline := by
  by_cases hw : t.ctl.wait = .none
  · exact .of_ne (by simp [hw])
  have hseq := (h.ctl_wf hm hs).seq_of_wait hw
  by_cases hi : s.ctl.seq = .idle
  · obtain ⟨-, -, -, -, hctl⟩ := h.accept_frame hi
    exact absurd (by rw [hctl]; exact (hs.quiet (by rw [hi]; rfl)).2.1) hw
  have hfrom := SeqState.waits_of_nexts (h.nextSeq hi) hseq
  have hnone {q : SeqState} (hq : s.ctl.seq = q) (hstill : q.still = true) : s.ctl.wait = .none :=
    (hs.quiet (by rw [hq]; exact hstill)).2.1
  cases h with
  | assertWr h hv =>
    exact .of_ne (updateThen_wait_ne_final assertUpdate
      (s := s.setW { s.w with status := .ok, actual := 0#32 }) (hnone h rfl) fun u _ => by simp)
  | assertWait h hv => exact assertWait_finalAfterDeadline s
  | loopEnd h hc hv =>
    obtain h | h := h
    · exact absurd h hs.1
    · exact absurd hc (hm.current_ne_none h)
  | @skipHead h x hc hl =>
    obtain h | h := h
    · exact absurd h hs.1
    · exact absurd hl (hm.len_ne_zero h hc)
  | head h => exact absurd h hs.1
  | @confWr h x hc hl hv =>
    exact .of_ne (updateThen_wait_ne_final _ (hnone h rfl) fun u hu => gotoPio_wait_ne_final _ hu)
  | @pio h x hc hl hv =>
    obtain ⟨-, -, -, hwait⟩ := hs
    exact transferPio_finalAfterDeadline x (by simpa [Ctl.pioWaits, h] using hwait)
  | _ => simp_all

/-- Settles O31: the rows keep the deadline (`EngineRow.finalAfterDeadline`), and a wait returns from a read of the bit
set or from its final read (`waitStep_returns`). -/
theorem timeoutOnlyAfterTheDeadlineWithTheBitClear : Obligations.TimeoutOnlyAfterTheDeadlineWithTheBitClear := by
  refine ⟨fun s t hs hm _ h => (step_row h).finalAfterDeadline hm hs, fun b s t hdeadline _ h hw => ?_⟩
  obtain ⟨-, rfl⟩ := State.onRecord_next h
  obtain ⟨hset, hres⟩ | ⟨hfinal, hclear, hres⟩ := waitStep_returns hw
  · exact ⟨by simp [hres], fun _ => hset⟩
  · exact ⟨fun _ => ⟨hfinal, hdeadline hfinal, hclear⟩, by simp [hres]⟩

/-! ## The waits of a PIO run (R158, R160, R162, R163, R167) -/

theorem exec_pioRun (x : Transfer) (wl : BitVec 6) {s : State} (hv : s.record.valid = true) :
    exec (.pioRun x wl) s = .next (pioStep x wl s) :=
  State.onRecord_valid hv

theorem pioStep_txWait (x : Transfer) (wl : BitVec 6) {s : State} (h : s.ctl.pio = .txWait) :
    pioStep x wl s = pioWait .txrdy (State.setPio · .txMemRd) (State.takeExit · .pioBreak) s := by
  simp only [pioStep, h]

theorem pioStep_rxWait (x : Transfer) (wl : BitVec 6) {s : State} (h : s.ctl.pio = .rxWait) :
    pioStep x wl s = pioWait .rxrdy (State.setPio · .rxRd) (State.takeExit · .pioBreak) s := by
  simp only [pioStep, h]

theorem pioStep_eotWait (x : Transfer) (wl : BitVec 6) {s : State} (h : s.ctl.pio = .eotWait) :
    pioStep x wl s = pioWait .eot pioReturn (State.setPio · .eotLog) s := by
  simp only [pioStep, h]

section
variable (b : StatFlag) (ok timeout : State → State)

/-- A waiting row is a step of WAIT.BIT and, where that returned, what follows it. -/
theorem pioWait_eq (s : State) : pioWait b ok timeout s =
    if (waitStep b s).ctl.wait ≠ .none then waitStep b s
    else if (waitStep b s).w.wres = .ok then ok (waitStep b s)
    else timeout (waitStep b s) := by
  rw [ite_not]
  rfl

/-- A read that shows the bit set leads a waiting row on. -/
theorem pioWait_bit_set {s : State} (h : s.ctl.wait = .poll ∨ s.ctl.wait = .final) (hb : b.isSet s.win.stat = true) :
    pioWait b ok timeout s = ok (waitStep b s) := by
  obtain ⟨hw, hres⟩ := waitStep_bit_set b h hb
  simp [pioWait_eq, hw, hres]

/-- A final read that shows the bit clear takes the exit of a waiting row. -/
theorem pioWait_final_clear {s : State} (h : s.ctl.wait = .final) (hb : b.isSet s.win.stat = false) :
    pioWait b ok timeout s = timeout (waitStep b s) := by
  obtain ⟨hw, hres⟩ := waitStep_final_clear b h hb
  simp [pioWait_eq, hw, hres]

end

/-- A wait leaves the registers of the run alone (R141). -/
theorem waitStep_pioRegisters (b : StatFlag) (s : State) : (waitStep b s).w.c = s.w.c ∧
    (waitStep b s).w.unit = s.w.unit ∧ (waitStep b s).w.count = s.w.count ∧ (waitStep b s).w.u = s.w.u := by
  obtain ⟨_, _, _, _, e⟩ := waitStep_w b s
  rw [e]
  exact ⟨rfl, rfl, rfl, rfl⟩

/-- A wait that returns stops WAIT and leaves the rest of the control state alone (R148). -/
theorem waitStep_ctl_of_returns {b : StatFlag} {s : State} (h : (waitStep b s).ctl.wait = .none) :
    (waitStep b s).ctl = { s.ctl with wait := .none } := by
  obtain ⟨_, e⟩ := waitStep_ctl b s
  rw [e] at h ⊢
  simpa using h

/-- A poll and a final read are one read of STAT, whose word is in W.s (R141). -/
theorem waitStep_reads (b : StatFlag) {s : State} (h : s.ctl.wait = .poll ∨ s.ctl.wait = .final) :
    (waitStep b s).w.s = s.win.stat ∧
      (waitStep b s).trace = .busRd (s.record.base + 0x08#32) 0x08#32 s.win.stat :: s.trace := by
  obtain h | h := h
  · rw [waitStep_poll b h]
    exact ⟨rfl, rfl⟩
  · rw [waitStep_final b h]
    exact ⟨rfl, rfl⟩

/-- Settles O36: each waiting row is `pioWait` on its bit (`pioWait_eq`), and where it leads follows from the read
(`pioWait_bit_set`, `pioWait_final_clear`). -/
theorem pioWaitsLeadOnOrEndTheRun : Obligations.PioWaitsLeadOnOrEndTheRun := by
  intro x wl s hv
  simp only [exec_pioRun x wl hv, Host.Outcome.next.injEq, exists_eq_left']
  have hset (b : StatFlag) (h : s.ctl.wait = .poll ∨ s.ctl.wait = .final) (hb : b.isSet s.win.stat = true) :=
    waitStep_ctl_of_returns (waitStep_bit_set b h hb).1
  have hclear (b : StatFlag) (h : s.ctl.wait = .final) (hb : b.isSet s.win.stat = false) :=
    waitStep_ctl_of_returns (waitStep_final_clear b h hb).1
  refine ⟨fun b hb => ⟨waitStep b s, exec_waitBit b hv, ?_⟩,
    fun h => ⟨fun hp hb => ?_, fun hp hb => ?_, fun hp hb => ?_⟩,
    fun h => ⟨fun hp hb => ?_, fun hp hb => ?_, fun hp hb => ?_⟩, fun hp => ?_⟩
  · obtain ⟨hc, hunit, hcount, hu⟩ := waitStep_pioRegisters b s
    refine ⟨hc, hunit, hcount, hu, waitStep_pio b s, waitStep_reads b, ?_⟩
    obtain ⟨hp, rfl⟩ | ⟨hp, rfl⟩ | ⟨hp, rfl⟩ := hb
    · rw [pioStep_txWait x wl hp, pioWait_eq]; rfl
    · rw [pioStep_rxWait x wl hp, pioWait_eq]; rfl
    · rw [pioStep_eotWait x wl hp, pioWait_eq]; rfl
  · rw [pioStep_txWait x wl hp, pioWait_bit_set .txrdy _ _ h hb, State.setPio_ctl, hset .txrdy h hb]
  · rw [pioStep_rxWait x wl hp, pioWait_bit_set .rxrdy _ _ h hb, State.setPio_ctl, hset .rxrdy h hb]
  · obtain ⟨hc, hunit, -⟩ := waitStep_pioRegisters .eot s
    rw [pioStep_eotWait x wl hp, pioWait_bit_set .eot _ _ h hb, pioReturn, State.setPio_ctl, State.setW_ctl,
      hset .eot h hb]
    exact ⟨rfl, congrArg₂ bytesProcessed hc hunit⟩
  · rw [pioStep_txWait x wl hp, pioWait_final_clear .txrdy _ _ h hb]
    exact ⟨by simp [State.takeExit, hclear .txrdy h hb], (waitStep_pioRegisters .txrdy s).1⟩
  · rw [pioStep_rxWait x wl hp, pioWait_final_clear .rxrdy _ _ h hb]
    exact ⟨by simp [State.takeExit, hclear .rxrdy h hb], (waitStep_pioRegisters .rxrdy s).1⟩
  · rw [pioStep_eotWait x wl hp, pioWait_final_clear .eot _ _ h hb, State.setPio_ctl, hclear .eot h hb]
  · simp only [pioStep, hp]
    rfl

end Sys2Proof.Machine
end

section
/-!
PROOFS. The statements of family 42_pio_transfer: the rows of PIO.RUN whole, the frame of a run, and its counters.
-/
namespace Sys2Proof.Machine

/-! ## The rows of PIO.RUN (R158, R159, R160, R167) -/

/-- A run that is not going on starts (R157). -/
theorem pioStep_none (x : Transfer) (wl : BitVec 6) {s : State} (h : s.ctl.pio = .none) :
    pioStep x wl s = pioEntry x wl s := by
  simp only [pioStep, h]

theorem pioStart_txWait {x : Transfer} {count : Word} (htx : x.txp = true) (hcount : count ≠ 0#32) :
    pioStart x count = .txWait := by
  simp [pioStart, htx, hcount]

theorem pioStart_rxDummy {x : Transfer} {count : Word} (htx : x.txp = false) (hrx : x.rxp = true)
    (hcount : count ≠ 0#32) : pioStart x count = .rxDummy := by
  simp [pioStart, htx, hrx, hcount]

theorem pioStart_eotWait {x : Transfer} {count : Word} (h : (x.txp = false ∧ x.rxp = false) ∨ count = 0#32) :
    pioStart x count = .eotWait := by
  obtain ⟨htx, hrx⟩ | hcount := h
  · simp [pioStart, htx, hrx]
  · simp [pioStart, hcount]

/-- Settles O34: the entry of a run, whole (`pioEntry_eq`), with the row it starts in by `pioStart`. -/
theorem pioRunStartsInItsDirection : Obligations.PioRunStartsInItsDirection := by
  intro x wl s hv hp
  refine ⟨_, exec_pioRun x wl hv, ?_⟩
  rw [pioStep_none x wl hp, pioEntry_eq]
  refine ⟨rfl, rfl, rfl, fun htx hcount => ?_, fun htx hrx hcount => ?_, fun hnone => ?_⟩
  · simp [pioStart_txWait htx hcount]
  · simp [pioStart_rxDummy htx hrx hcount]
  · simp [pioStart_eotWait hnone]

/-- Row TX_MEMRD: one unit read from the source buffer (R158). -/
theorem pioStep_txMemRd (x : Transfer) (wl : BitVec 6) {s : State} (h : s.ctl.pio = .txMemRd) :
    pioStep x wl s = { s with
      ret := s.mem.readLE (unitAddr x.txaddr s.w.c s.w.unit) s.w.unit.toNat
      w := { s.w with u := s.mem.readLE (unitAddr x.txaddr s.w.c s.w.unit) s.w.unit.toNat }
      ctl := { s.ctl with pio := .txWr }
      trace := .memRd (unitAddr x.txaddr s.w.c s.w.unit) s.w.unit.toNat
        (s.mem.readLE (unitAddr x.txaddr s.w.c s.w.unit) s.w.unit.toNat) :: s.trace } := by
  simp only [pioStep, h, pioTxMemRd, memRead_eq]
  rfl

/-- Counting a unit, whole: on to the next one's first row, or to the trailing wait (R157, R167). -/
theorem pioCount_eq (first : PioState) (s : State) : pioCount first s = { s with
    w := { s.w with c := s.w.c + 1#32 }
    ctl := (gotoPio (if s.w.c + 1#32 < s.w.count then first else .eotWait) s).ctl } := by
  simp only [pioCount, pioNext, gotoPio_eq]
  rfl

/-- A write of TXD is one bus write (R122, R159). -/
theorem regWrite_txd_eq (v : Word) (s : State) : regWrite .txd v s = { s with
    win := { s.win with txd := v }
    trace := .busWr (s.record.base + 0x18#32) 0x18#32 v :: s.trace } := rfl

/-- Row TX_WR: the unit written to TXD and counted (R158, R159). -/
theorem pioStep_txWr (x : Transfer) (wl : BitVec 6) {s : State} (h : s.ctl.pio = .txWr) :
    pioStep x wl s = { s with
      win := { s.win with txd := s.w.u }
      trace := .busWr (s.record.base + 0x18#32) 0x18#32 s.w.u :: s.trace
      w := { s.w with c := s.w.c + 1#32 }
      ctl := { s.ctl with pio := if s.w.c + 1#32 < s.w.count then .txWait else .eotWait, wait := .sample } } := by
  simp only [pioStep, h, pioTxWr, regWrite_txd_eq, pioCount_eq, gotoPio_ctl]
  split <;> simp

/-- Row RX_DUMMY: 0 written to TXD (R160). -/
theorem pioStep_rxDummy (x : Transfer) (wl : BitVec 6) {s : State} (h : s.ctl.pio = .rxDummy) :
    pioStep x wl s = { s with
      win := { s.win with txd := 0#32 }
      trace := .busWr (s.record.base + 0x18#32) 0x18#32 0#32 :: s.trace
      ctl := { s.ctl with pio := .rxWait, wait := .sample } } := by
  simp only [pioStep, h]
  rfl

/-- Row RX_RD: RXD read into W.u (R160). -/
theorem pioStep_rxRd (x : Transfer) (wl : BitVec 6) {s : State} (h : s.ctl.pio = .rxRd) :
    pioStep x wl s = { s with
      ret := s.win.rxd
      w := { s.w with u := s.win.rxd }
      trace := .busRd (s.record.base + 0x20#32) 0x20#32 s.win.rxd :: s.trace
      ctl := { s.ctl with pio := .rxMemWr } } := by
  simp only [pioStep, h]
  rfl

/-- Row RX_MEMWR: the low bytes of the unit stored in the destination buffer, and the unit counted (R160). -/
theorem pioStep_rxMemWr (x : Transfer) (wl : BitVec 6) {s : State} (h : s.ctl.pio = .rxMemWr) :
    pioStep x wl s = { s with
      mem := s.mem.writeLE (unitAddr x.rxaddr s.w.c s.w.unit) s.w.u s.w.unit.toNat
      trace := .memWr (unitAddr x.rxaddr s.w.c s.w.unit) s.w.unit.toNat (lowBytes s.w.unit.toNat s.w.u) :: s.trace
      w := { s.w with c := s.w.c + 1#32 }
      ctl := { s.ctl with
        pio := if s.w.c + 1#32 < s.w.count then .rxDummy else .eotWait
        wait := if s.w.c + 1#32 < s.w.count then s.ctl.wait else .sample } } := by
  simp only [pioStep, h, pioRxMemWr, memWrite, State.setMem, State.emit, pioCount_eq, gotoPio_ctl]
  split <;> simp

/-- Row EOT_LOG: the run logs the timeout and returns (R163). -/
theorem pioStep_eotLog (x : Transfer) (wl : BitVec 6) {s : State} (h : s.ctl.pio = .eotLog) :
    pioStep x wl s = { s with
      trace := .log .postEotTimeout :: s.trace
      w := { s.w with nRet := bytesProcessed s.w.c s.w.unit }
      ctl := { s.ctl with pio := .none } } := by
  simp only [pioStep, h]
  rfl

/-- Settles O35: the five rows that move a unit, whole. -/
theorem pioDataRowsMoveOneUnit : Obligations.PioDataRowsMoveOneUnit := by
  intro x wl s hv
  rw [exec_pioRun x wl hv]
  exact ⟨fun hp => ⟨_, rfl, congrArg Host.Outcome.next (pioStep_txMemRd x wl hp)⟩,
    fun hp => congrArg Host.Outcome.next (pioStep_txWr x wl hp),
    fun hp => congrArg Host.Outcome.next (pioStep_rxDummy x wl hp),
    fun hp => congrArg Host.Outcome.next (pioStep_rxRd x wl hp),
    fun hp => congrArg Host.Outcome.next (pioStep_rxMemWr x wl hp)⟩

/-! ## The frame of a run (R157, R165, R169) -/

/-- What holds of a step of the wait, and of what follows its return, holds of a waiting row. -/
theorem pioWait_of {P : State → Prop} {b : StatFlag} {ok timeout : State → State} {s : State}
    (hstay : P (waitStep b s)) (hok : P (ok (waitStep b s))) (htimeout : P (timeout (waitStep b s))) :
    P (pioWait b ok timeout s) := by
  rw [pioWait_eq]
  split <;> [skip; split] <;> assumption

/-- What PIO.RUN leaves alone beside the registers of `Work.SameMessage`: W.v and every window register but TXD (R29,
R157, "Not written"). -/
structure State.PioKept (s t : State) : Prop where
  v : t.w.v = s.w.v
  conf : t.win.conf = s.win.conf
  stat : t.win.stat = s.win.stat
  fctl : t.win.fctl = s.win.fctl
  rxd : t.win.rxd = s.win.rxd

theorem State.PioKept.of_eq {s t u : State} (h : s.PioKept t) (hv : u.w.v = t.w.v) (hwin : u.win = t.win) :
    s.PioKept u := by
  obtain ⟨hv', hconf, hstat, hfctl, hrxd⟩ := h
  constructor <;> simp only [hv, hwin, hv', hconf, hstat, hfctl, hrxd]

theorem waitStep_pioKept (b : StatFlag) (s : State) : s.PioKept (waitStep b s) := by
  obtain ⟨_, _, _, _, e⟩ := waitStep_w b s
  constructor <;> simp [e]

theorem pioStep_kept (x : Transfer) (wl : BitVec 6) (s : State) : s.PioKept (pioStep x wl s) := by
  cases hp : s.ctl.pio with
  | none =>
    rw [pioStep_none x wl hp, pioEntry_eq]
    constructor <;> rfl
  | txWait =>
    have h := waitStep_pioKept .txrdy s
    rw [pioStep_txWait x wl hp]
    exact pioWait_of h (h.of_eq rfl rfl) (h.of_eq rfl rfl)
  | txMemRd =>
    rw [pioStep_txMemRd x wl hp]
    constructor <;> rfl
  | txWr =>
    rw [pioStep_txWr x wl hp]
    constructor <;> rfl
  | rxDummy =>
    rw [pioStep_rxDummy x wl hp]
    constructor <;> rfl
  | rxWait =>
    have h := waitStep_pioKept .rxrdy s
    rw [pioStep_rxWait x wl hp]
    exact pioWait_of h (h.of_eq rfl rfl) (h.of_eq rfl rfl)
  | rxRd =>
    rw [pioStep_rxRd x wl hp]
    constructor <;> rfl
  | rxMemWr =>
    rw [pioStep_rxMemWr x wl hp]
    constructor <;> rfl
  | eotWait =>
    have h := waitStep_pioKept .eot s
    rw [pioStep_eotWait x wl hp]
    exact pioWait_of h (h.of_eq rfl rfl) (h.of_eq rfl rfl)
  | eotLog =>
    rw [pioStep_eotLog x wl hp]
    constructor <;> rfl

/-- The rows of the receive path (R160, R167). -/
def PioState.receives : PioState → Bool
  | .rxDummy | .rxWait | .rxRd | .rxMemWr => true
  | .none | .txWait | .txMemRd | .txWr | .eotWait | .eotLog => false

theorem PioState.receives_eq_false_iff (p : PioState) :
    p.receives = false ↔ p ≠ .rxDummy ∧ p ≠ .rxWait ∧ p ≠ .rxRd ∧ p ≠ .rxMemWr := by
  cases p <;> simp [PioState.receives]

/-- With a source buffer a run outside the receive path stays outside it: transmit has priority (R165). -/
theorem pioStep_stays_off_receive {x : Transfer} (wl : BitVec 6) {s : State} (htx : x.txp = true)
    (h : s.ctl.pio.receives = false) : (pioStep x wl s).ctl.pio.receives = false := by
  have hstay (b : StatFlag) : (waitStep b s).ctl.pio.receives = false := by rw [waitStep_pio, h]
  cases hp : s.ctl.pio with
  | none =>
    rw [pioStep_none x wl hp, pioEntry_eq]
    simp only [pioStart, htx, if_true]
    split <;> rfl
  | txWait =>
    rw [pioStep_txWait x wl hp]
    exact pioWait_of (P := fun u => u.ctl.pio.receives = false) (hstay _) rfl rfl
  | txMemRd => rw [pioStep_txMemRd x wl hp]; rfl
  | txWr =>
    rw [pioStep_txWr x wl hp]
    dsimp only
    split <;> rfl
  | eotWait =>
    rw [pioStep_eotWait x wl hp]
    exact pioWait_of (P := fun u => u.ctl.pio.receives = false) (hstay _) rfl rfl
  | eotLog => rw [pioStep_eotLog x wl hp]; rfl
  | _ => simp [hp, PioState.receives] at h

/-- Settles O37: what the rows keep (`pioStep_same`, `pioStep_kept`), where the receive path begins
(`pioStep_stays_off_receive`), and the one row that stores (`pioStep_mem`). -/
theorem pioRunFrame : Obligations.PioRunFrame := by
  intro x wl s u h
  obtain ⟨-, rfl⟩ := State.onRecord_next h
  obtain ⟨hslot, hmsg, hn, hxi, hstatus, hactual, hwl, houtcome, hdescBase, hwords⟩ := pioStep_same x wl s
  obtain ⟨hv, hconf, hstat, hfctl, hrxd⟩ := pioStep_kept x wl s
  have hmem (hp : s.ctl.pio ≠ .rxMemWr) : (pioStep x wl s).mem = s.mem := by rw [pioStep_mem, if_neg hp]
  refine ⟨fun htx hdummy hwait hrd hwr => ?_, pioStep_recs x wl s, pioStep_hwConf x wl s, pioStep_hwConfValid x wl s,
    pioStep_now x wl s, pioStep_port x wl s, pioStep_seq x wl s, pioStep_dly x wl s, pioStep_upd x wl s, hslot, hmsg, hn,
    hxi, hstatus, hactual, hv, hwl, houtcome, hdescBase, hwords, hconf, hstat, hfctl, hrxd, hmem, fun hp hwf y hy => ?_⟩
  · obtain ⟨hdummy', hwait', hrd', hwr'⟩ := (PioState.receives_eq_false_iff _).mp <|
      pioStep_stays_off_receive wl htx ((PioState.receives_eq_false_iff _).mpr ⟨hdummy, hwait, hrd, hwr⟩)
    exact ⟨hdummy', hwait', hrd', hwr', hmem hwr⟩
  · rw [pioStep_mem, if_pos hp]
    exact Mem.read_writeLE_outside hwf _ _ _ y hy

/-! ## The counters of a run (R156, R157, R163) -/

/-- The rows that move a unit. -/
def PioState.moves : PioState → Bool
  | .txWait | .txMemRd | .txWr | .rxDummy | .rxWait | .rxRd | .rxMemWr => true
  | .none | .eotWait | .eotLog => false

theorem PioState.moves_iff (p : PioState) : p.moves = true ↔ p = .txWait ∨ p = .txMemRd ∨ p = .txWr ∨ p = .rxDummy ∨
    p = .rxWait ∨ p = .rxRd ∨ p = .rxMemWr := by
  cases p <;> simp [PioState.moves]

/-- The counters of a run fit the transfer `x`, and in a row that moves a unit one is left (R156, R157). -/
structure State.Counts (x : Transfer) (s : State) : Prop where
  unit : s.w.unit = unitBytes s.w.wl
  count : s.w.count = unitCount x.len s.w.unit
  done : s.w.c.toNat ≤ s.w.count.toNat
  left : s.ctl.pio.moves = true → s.w.c.toNat < s.w.count.toNat

theorem State.pioCounted_iff (s : State) :
    s.PioCounted ↔ (s.ctl.seq = .xferPio → ∀ x, s.currentTransfer = some x → s.Counts x) := by
  refine forall_congr' fun _ => forall₂_congr fun x _ => ?_
  rw [← PioState.moves_iff]
  exact ⟨fun ⟨hu, hn, hdone, hleft⟩ => ⟨hu, hn, hdone, hleft⟩, fun h => ⟨h.unit, h.count, h.done, h.left⟩⟩

/-- The counters of the entry: none done, and a unit to move where a path begins (R157, R167). -/
theorem pioEntry_counts (x : Transfer) {wl : BitVec 6} {s : State} (hwl : s.w.wl = wl) :
    (pioEntry x wl s).Counts x := by
  rw [pioEntry_eq]
  refine ⟨by rw [hwl], rfl, Nat.zero_le _, fun hmoves => ?_⟩
  have hcount : unitCount x.len (unitBytes wl) ≠ 0#32 := fun h0 => by
    simp [pioStart_eotWait (.inr h0), PioState.moves] at hmoves
  exact Nat.pos_of_ne_zero fun h0 => hcount (BitVec.eq_of_toNat_eq h0)

section
variable {x : Transfer} {s t : State}

/-- The counters still fit where they are as before and no move of a unit begins. -/
theorem State.Counts.of_same (h : s.Counts x) (hwl : t.w.wl = s.w.wl) (hunit : t.w.unit = s.w.unit)
    (hcount : t.w.count = s.w.count) (hc : t.w.c = s.w.c)
    (hmoves : t.ctl.pio.moves = true → s.ctl.pio.moves = true) : t.Counts x := by
  obtain ⟨hu, hn, hdone, hleft⟩ := h
  exact ⟨by rw [hunit, hwl, hu], by rw [hcount, hunit, hn], by rw [hc, hcount]; exact hdone,
    fun hm => by rw [hc, hcount]; exact hleft (hmoves hm)⟩

/-- The counters fit after the unit that was left is counted, which does not wrap (R157). -/
theorem State.Counts.of_counted {first : PioState} (h : s.Counts x) (hm : s.ctl.pio.moves = true)
    (hw : t.w = { s.w with c := s.w.c + 1#32 })
    (hp : t.ctl.pio = if s.w.c + 1#32 < s.w.count then first else .eotWait) : t.Counts x := by
  obtain ⟨hu, hn, -, hleft⟩ := h
  have hlt := hleft hm
  refine ⟨by rw [hw, hu], by rw [hw, hn], ?_, fun hm' => ?_⟩
  · rw [hw, BitVec.toNat_add_of_lt (by simp; omega)]
    exact hlt
  · have hmore : s.w.c + 1#32 < s.w.count := by
      by_contra hge
      rw [hp, if_neg hge] at hm'
      cases hm'
    rw [hw]
    exact hmore

theorem waitStep_counts (b : StatFlag) (h : s.Counts x) : (waitStep b s).Counts x := by
  obtain ⟨hc, hunit, hcount, -⟩ := waitStep_pioRegisters b s
  exact h.of_same (waitStep_same b s).wl hunit hcount hc (by rw [waitStep_pio]; exact id)

/-- Every row of a run keeps its counters within the transfer's units (R157, R163). -/
theorem pioStep_counts (h : s.Counts x) : (pioStep x s.w.wl s).Counts x := by
  have hbreak (b : StatFlag) : ((waitStep b s).takeExit .pioBreak).Counts x :=
    (waitStep_counts b h).of_same rfl rfl rfl rfl nofun
  have hon (b : StatFlag) (p : PioState) (hm : s.ctl.pio.moves = true) : ((waitStep b s).setPio p).Counts x :=
    (waitStep_counts b h).of_same rfl rfl rfl rfl fun _ => by rw [waitStep_pio, hm]
  cases hp : s.ctl.pio with
  | none => rw [pioStep_none x _ hp]; exact pioEntry_counts x rfl
  | txWait =>
    rw [pioStep_txWait x _ hp]
    exact pioWait_of (waitStep_counts _ h) (hon _ _ (by rw [hp]; rfl)) (hbreak _)
  | txMemRd => rw [pioStep_txMemRd x _ hp]; exact h.of_same rfl rfl rfl rfl fun _ => by rw [hp]; rfl
  | txWr =>
    rw [pioStep_txWr x _ hp]
    exact h.of_counted (by rw [hp]; rfl) rfl rfl
  | rxDummy => rw [pioStep_rxDummy x _ hp]; exact h.of_same rfl rfl rfl rfl fun _ => by rw [hp]; rfl
  | rxWait =>
    rw [pioStep_rxWait x _ hp]
    exact pioWait_of (waitStep_counts _ h) (hon _ _ (by rw [hp]; rfl)) (hbreak _)
  | rxRd => rw [pioStep_rxRd x _ hp]; exact h.of_same rfl rfl rfl rfl fun _ => by rw [hp]; rfl
  | rxMemWr =>
    rw [pioStep_rxMemWr x _ hp]
    exact h.of_counted (by rw [hp]; rfl) rfl rfl
  | eotWait =>
    rw [pioStep_eotWait x _ hp]
    exact pioWait_of (waitStep_counts _ h) ((waitStep_counts _ h).of_same rfl rfl rfl rfl nofun)
      ((waitStep_counts _ h).of_same rfl rfl rfl rfl nofun)
  | eotLog => rw [pioStep_eotLog x _ hp]; exact h.of_same rfl rfl rfl rfl nofun

theorem State.PioCounted.of_ne (h : s.ctl.seq ≠ .xferPio) : s.PioCounted := fun hq => absurd hq h

/-- The Configuration update enters the run of its transfer, if it writes (R190). -/
theorem transferConfWr_pioCounted (hq : s.ctl.seq ≠ .xferPio) (hx : s.currentTransfer = some x) :
    (transferConfWr x s).PioCounted := by
  obtain ⟨v, r, -, e⟩ | ⟨-, -, e⟩ := updateThen_cases (transferUpdate x.txp s.w.wl s.record.cs)
    (fun r => pioEntry x r.w.wl (r.setSeq .xferPio)) s <;> rw [transferConfWr, e]
  · rw [State.pioCounted_iff]
    intro _ y hy
    have hxy : x = y := by rw [pioEntry_eq] at hy; exact Option.some.inj (hx.symm.trans hy)
    rw [← hxy]
    exact pioEntry_counts x rfl
  · exact .of_ne hq

/-- The PIO row is a step of the run, and where that returned the row leaves it (R191, R198). -/
theorem transferPio_pioCounted (h : s.Counts x) (hx : s.currentTransfer = some x) : (transferPio x s).PioCounted := by
  simp only [transferPio, transferAccount]
  split <;> [split; skip]
  · refine .of_ne fun hq => ?_
    have hseq := afterTransfer_seq x ((pioStep x s.w.wl s).setW
      { (pioStep x s.w.wl s).w with actual := (pioStep x s.w.wl s).w.actual + (pioStep x s.w.wl s).w.nRet })
    simp [hq] at hseq
  · exact .of_ne (by simp [State.takeExit])
  · rw [State.pioCounted_iff]
    intro _ y hy
    rw [(pioStep_same x s.w.wl s).currentTransfer, hx] at hy
    rw [← Option.some.inj hy]
    exact pioStep_counts h

/-- The rows that lead to the PIO row (R198). -/
theorem SeqState.xferPio_of_nexts {q : SeqState} (h : .xferPio ∈ q.nexts) :
    q = .xferHead ∨ q = .xferConfWr ∨ q = .xferPio := by
  cases q <;> simp_all [SeqState.nexts]

theorem EngineRow.pioCounted (h : EngineRow s t) (hs : s.PioCounted) : t.PioCounted := by
  by_cases hq : t.ctl.seq = .xferPio
  case neg => exact .of_ne hq
  by_cases hi : s.ctl.seq = .idle
  · have hseq := (h.idle_effect hi).1
    simp [hq] at hseq
  have hfrom := SeqState.xferPio_of_nexts (hq ▸ h.nextSeq hi)
  cases h with
  | loopEnd h hc hv =>
    obtain e | e := updateThen_seq deassertUpdate (State.setSeq · .finalCpl) (s.setSeq .deassertWr) .finalCpl
      (fun _ => rfl) <;> simp [deassertWrite, e] at hq
  | @skipHead h y hc hl =>
    split at hq
    · have hseq := nextTransfer_seq s
      simp [hq] at hseq
    · have hseq := transferDelay_seq y (s := enterDelay s) rfl
      simp [hq] at hseq
  | @head h y hc hl hv => exact transferConfWr_pioCounted (s := transferHead y s) (by simp [transferHead]) hc
  | @confWr h y hc hl hv => exact transferConfWr_pioCounted (by simp [h]) hc
  | @pio h y hc hl hv => exact transferPio_pioCounted (s.pioCounted_iff.mp hs h y hc) hc
  -- every other row starts outside the three of `hfrom`
  | _ => simp_all

end

/-- Settles O38: the run is entered with its counters set, and each of its rows keeps them (`EngineRow.pioCounted`). -/
theorem stepKeepsPioCounted : Obligations.StepKeepsPioCounted :=
  fun _ _ hs h => (step_row h).pioCounted hs

end Sys2Proof.Machine
end

section
/-!
PROOFS. The statements of family 43_message_sequencer: SPI-enable follows the chip-select window of a message.
-/
namespace Sys2Proof.Machine

/-! ## SPIEN in what the rows write (R184, R190, R195, R223) -/

theorem spien_assertUpdate (v : Word) : getField .spien (applyUpdates assertUpdate v) = 1#32 := by
  simp only [assertUpdate, applyUpdates, List.foldl_cons, List.foldl_nil, getField_setField_same]
  decide

theorem spien_deassertUpdate (v : Word) : getField .spien (applyUpdates deassertUpdate v) = 0#32 :=
  getField_setField_zero .spien v

/-- The update of a transfer is of TRM, WL and CSIDX. -/
theorem spien_transferUpdate (txp : Bool) (w : BitVec 6) (cs : BitVec 2) (v : Word) :
    getField .spien (applyUpdates (transferUpdate txp w cs) v) = getField .spien v := by
  simp [transferUpdate, applyUpdates, getField_setField_other]

theorem spien_confInit (w : BitVec 6) (cs : BitVec 2) : getField .spien (confInit w cs) = 0#32 := by
  simp only [confInit, applyUpdates, List.foldl_cons, List.foldl_nil, getField_setField_zero]

/-- With the records ready, a CONF.UPDATE of a message writes in its first step (R124). -/
theorem State.RecordsReady.confValue_eq {s : State} (hr : s.RecordsReady) (hm : s.ctl.seq.inMessage = true)
    (us : List FieldUpdate) : confValue us s = some (applyUpdates us s.record.cache) := by
  simp [confValue, hr.1, hr.cacheValid hm]

/-! ## Where the rows of the window lead (R198) -/

/-- The rows of the per-transfer loop (R198). -/
def SeqState.inLoop (q : SeqState) : Prop := q = .xferHead ∨ q = .xferConfWr ∨ q = .xferPio ∨ q = .xferDelay

theorem SeqState.inLoop.asserted {q : SeqState} (h : q.inLoop) : q.asserted = true := by
  obtain rfl | rfl | rfl | rfl := h <;> rfl

theorem SeqState.inLoop.inMessage {q : SeqState} (h : q.inLoop) : q.inMessage = true := by
  obtain rfl | rfl | rfl | rfl := h <;> rfl

/-- The selection of the next transfer stays between Assert and De-assert. -/
theorem SeqState.asserted_of_selection {q : SeqState} (h : q ∈ [.deassertWr, .xferDelay, SeqState.xferConfWr]) :
    q.asserted = true := by
  simp only [List.mem_cons, List.not_mem_nil, or_false] at h
  obtain rfl | rfl | rfl := h <;> rfl

theorem transferConfWr_asserted (x : Transfer) {s : State} (h : s.ctl.seq.asserted = true) :
    (transferConfWr x s).ctl.seq.asserted = true := by
  obtain e | e := transferConfWr_seq x s <;> rw [e]
  · rfl
  · exact h

theorem transferPio_asserted (x : Transfer) {s : State} (h : s.ctl.seq.asserted = true) :
    (transferPio x s).ctl.seq.asserted = true := by
  simp only [transferPio, transferAccount]
  split <;> [split; skip]
  · exact SeqState.asserted_of_selection (afterTransfer_seq x _)
  · rfl
  · simpa using h

/-- A row on a transfer stays between Assert and De-assert. -/
theorem EngineRow.asserted_of_transfer {s t : State} (h : EngineRow s t) (hq : s.ctl.seq.inLoop) {x : Transfer}
    (hx : s.currentTransfer = some x) : t.ctl.seq.asserted = true := by
  have ha := hq.asserted
  cases h with
  | @skipHead h y hc hl =>
    split
    · exact SeqState.asserted_of_selection (nextTransfer_seq s)
    · exact SeqState.asserted_of_selection (transferDelay_seq y (s := enterDelay s) rfl)
  | @head h y hc hl hv => exact transferConfWr_asserted y (s := transferHead y s) rfl
  | @confWr h y hc hl hv => exact transferConfWr_asserted y ha
  | @pio h y hc hl hv => exact transferPio_asserted y ha
  | @delay h y hc => exact SeqState.asserted_of_selection (transferDelay_seq y h)
  | loopEnd h hc hv => simp [hc] at hx
  -- every other row starts outside the loop
  | _ => simp_all [SeqState.inLoop]

/-- The rows that write De-assert: its own, and the loop with no transfer left (R195). -/
def State.Deasserts (s : State) : Prop :=
  s.ctl.seq = .deassertWr ∨ (s.ctl.seq.inLoop ∧ s.currentTransfer = none)

theorem State.Deasserts.inMessage {s : State} (h : s.Deasserts) : s.ctl.seq.inMessage = true := by
  obtain hq | ⟨hq, -⟩ := h
  · rw [hq]; rfl
  · exact hq.inMessage

theorem State.Deasserts.confRow_eq {s : State} (h : s.Deasserts) : confRow s = confValue deassertUpdate s := by
  obtain hq | ⟨hq | hq | hq | hq, hx⟩ := h
  · simp [confRow, hq]
  all_goals simp [confRow, hq, hx]

theorem deassertWrite_seq {s : State} (hu : s.ctl.upd = .none) (hc : s.record.cacheValid = true) :
    (deassertWrite s).ctl.seq = .finalCpl := by
  rw [deassertWrite, updateThen_cached deassertUpdate _ hu hc]; rfl

theorem assertWrite_seq {s : State} (hu : s.ctl.upd = .none) (hc : s.record.cacheValid = true) :
    (assertWrite s).ctl.seq = .assertWait := by
  rw [assertWrite, updateThen_cached assertUpdate _ (s := s.setW { s.w with status := .ok, actual := 0#32 }) hu hc]
  rfl

/-- The De-assert write leads out of the window, to the completion (R195). -/
theorem EngineRow.deasserts_seq {s t : State} (h : EngineRow s t) (hr : s.RecordsReady) (hq : s.Deasserts) :
    t.ctl.seq = .finalCpl := by
  have hc := hr.cacheValid hq.inMessage
  cases h with
  | deassertWr h hv => exact deassertWrite_seq hr.1 hc
  | loopEnd h hx hv => exact deassertWrite_seq (s := s.setSeq .deassertWr) hr.1 hc
  | _ => simp_all [State.Deasserts, SeqState.inLoop]

/-- A row outside Assert and De-assert that is on no transfer neither opens nor closes the window (R198). -/
theorem SeqState.asserted_of_nexts {q q' : SeqState} (h : q' ∈ q.nexts) (ha : q ≠ .assertWr) (hd : q ≠ .deassertWr)
    (hl : ¬q.inLoop) : q'.asserted = q.asserted := by
  cases q with
  | fetchDesc | assertWait =>
    simp only [SeqState.nexts, List.mem_cons, List.not_mem_nil, or_false] at h
    rcases h with rfl | rfl | rfl | rfl | rfl <;> rfl
  | _ => simp_all [SeqState.nexts, SeqState.asserted, SeqState.inLoop]

/-! ## SPIEN follows the window (R195, R199, R249) -/

/-- What a row writes to CONF has SPIEN as the control state it leads to asks; a row that writes none neither opens nor
closes the window. -/
def SpienFollows (s t : State) : Option Word → Prop
  | some v => getField .spien v = if t.ctl.seq.asserted = true then 1#32 else 0#32
  | none => t.ctl.seq.asserted = s.ctl.seq.asserted

/-- A row on a transfer writes no CONF, or the transfer's update of the cache (R190). -/
theorem confRow_of_transfer {s : State} (hr : s.RecordsReady) (hq : s.ctl.seq.inLoop) {x : Transfer}
    (hx : s.currentTransfer = some x) :
    confRow s = none ∨ ∃ w, confRow s = some (applyUpdates (transferUpdate x.txp w s.record.cs) s.record.cache) := by
  have hv := hr.confValue_eq hq.inMessage
  by_cases hl : x.len = 0#32
  · left
    obtain hq | hq | hq | hq := hq <;> simp [confRow, hq, hx, hl]
  · obtain hq | hq | hq | hq := hq
    · exact .inr ⟨effectiveWordLength x.bpw s.record.wordLen, by simp [confRow, hq, hx, hl, hv]⟩
    · exact .inr ⟨s.w.wl, by simp [confRow, hq, hx, hl, hv]⟩
    · exact .inl (by simp [confRow, hq, hx])
    · exact .inl (by simp [confRow, hq, hx])

/-- The running record's cache has SPIEN set while the per-transfer loop runs. -/
theorem State.RecordsReady.spien_cache {s : State} (hr : s.RecordsReady) (hs : s.SpienDisciplined)
    (hq : s.ctl.seq.inLoop) : getField .spien s.record.cache = 1#32 := by
  have ⟨_, huses, _⟩ := hr
  obtain ⟨hcaches, -⟩ := hs
  have hvalid : s.record.valid = true := huses (SeqState.usesRecord_of_inMessage hq.inMessage)
  exact (hcaches s.w.slot hvalid (hr.cacheValid hq.inMessage)).trans (if_pos ⟨hq.asserted, rfl⟩)

theorem EngineRow.spienFollows_of_transfer {s t : State} (h : EngineRow s t) (hr : s.RecordsReady)
    (hs : s.SpienDisciplined) (hq : s.ctl.seq.inLoop) {x : Transfer} (hx : s.currentTransfer = some x) :
    SpienFollows s t (confRow s) := by
  have ht : t.ctl.seq.asserted = true := h.asserted_of_transfer hq hx
  have hcache : getField .spien s.record.cache = 1#32 := hr.spien_cache hs hq
  obtain hv | ⟨w, hv⟩ := confRow_of_transfer hr hq hx <;> rw [hv]
  · exact ht.trans hq.asserted.symm
  · rw [SpienFollows, spien_transferUpdate, hcache, if_pos ht]

theorem EngineRow.spienFollows_of_deasserts {s t : State} (h : EngineRow s t) (hr : s.RecordsReady)
    (hq : s.Deasserts) : SpienFollows s t (confRow s) := by
  rw [hq.confRow_eq, hr.confValue_eq hq.inMessage, SpienFollows, spien_deassertUpdate, h.deasserts_seq hr hq]
  rfl

theorem EngineRow.spienFollows_of_assertWr {s t : State} (h : EngineRow s t) (hr : s.RecordsReady)
    (hq : s.ctl.seq = .assertWr) : SpienFollows s t (confRow s) := by
  have hm : s.ctl.seq.inMessage = true := by rw [hq]; rfl
  have hrow : confRow s = confValue assertUpdate s := by simp [confRow, hq]
  rw [hrow, hr.confValue_eq hm, SpienFollows, spien_assertUpdate, h.assertWr_eq hq,
    assertWrite_seq hr.1 (hr.cacheValid hm)]
  rfl

/-- Every row after acceptance: Assert, De-assert, a transfer's, the CONF write of CONFIGURE, or one that writes no
CONF. -/
theorem EngineRow.spienFollows {s t : State} (h : EngineRow s t) (hi : s.ctl.seq ≠ .idle) (hr : s.RecordsReady)
    (hs : s.SpienDisciplined) : SpienFollows s t (confRow s) := by
  by_cases hassert : s.ctl.seq = .assertWr
  · exact h.spienFollows_of_assertWr hr hassert
  by_cases hdeassert : s.ctl.seq = .deassertWr
  · exact h.spienFollows_of_deasserts hr (.inl hdeassert)
  by_cases hloop : s.ctl.seq.inLoop
  · cases hx : s.currentTransfer with
    | none => exact h.spienFollows_of_deasserts hr (.inr ⟨hloop, hx⟩)
    | some x => exact h.spienFollows_of_transfer hr hs hloop hx
  have hkept : t.ctl.seq.asserted = s.ctl.seq.asserted :=
    SeqState.asserted_of_nexts (h.nextSeq hi) hassert hdeassert hloop
  by_cases hcfg : s.ctl.seq = .cfgWr
  · have hrow : confRow s = some (confInit s.record.wordLen s.record.cs) := by simp [confRow, hcfg]
    rw [hrow, SpienFollows, spien_confInit, hkept, hcfg]
    rfl
  · have hrow : confRow s = none := by
      cases hq : s.ctl.seq <;> simp_all [confRow, SeqState.inLoop]
    rw [hrow]
    exact hkept

/-- A row that keeps CONF and the window keeps the discipline. -/
theorem ConfKept.spienDisciplined {s t : State} (h : ConfKept s t) (hslot : t.w.slot = s.w.slot)
    (ha : t.ctl.seq.asserted = s.ctl.seq.asserted) (hs : s.SpienDisciplined) : t.SpienDisciplined := by
  obtain ⟨hrecs, hconf, hvalid⟩ := h
  unfold State.SpienDisciplined
  rwa [hrecs, hconf, hvalid, hslot, ha]

/-- A write of CONF with SPIEN as the window asks keeps the discipline: no other slot has SPIEN set. -/
theorem ConfWritten.spienDisciplined {s t : State} {v : Word} (h : ConfWritten s t v) (hslot : t.w.slot = s.w.slot)
    (hv : getField .spien v = if t.ctl.seq.asserted = true then 1#32 else 0#32) (hs : s.SpienDisciplined) :
    t.SpienDisciplined := by
  refine ⟨fun k hk hc => ?_, fun _ => by rw [h.hwConf, hv]⟩
  by_cases hkslot : k = s.w.slot
  · simp [h.recs, hslot, hkslot, hv]
  · rw [h.recs, Recs.get_set_other _ _ hkslot] at hk hc ⊢
    simpa [hslot, hkslot] using hs.1 k hk hc

/-- Accepting a command sets no cache and writes no CONF, and none is set with SPIEN while the engine is idle. -/
theorem EngineRow.spienDisciplined_idle {s t : State} (h : EngineRow s t) (hi : s.ctl.seq = .idle)
    (hs : s.SpienDisciplined) : t.SpienDisciplined := by
  have ht : ¬t.ctl.seq.asserted = true := fun ha => h.not_runs_of_idle hi (.inl ha)
  have hcaches (k : Slot) : (s.recs.get k).valid = true → (s.recs.get k).cacheValid = true →
      getField .spien (s.recs.get k).cache = 0#32 := by
    simpa [hi, SeqState.asserted] using hs.1 k
  obtain ⟨hconf, hvalid, -⟩ := h.accept_frame hi
  refine ⟨fun k => ?_, ?_⟩
  · rw [if_neg fun hk => ht hk.1]
    refine h.forall_recs (P := fun _ r => r.valid = true → r.cacheValid = true → getField .spien r.cache = 0#32) hcaches
      (fun j r hchange => ?_) k
    cases hchange with
    | reconfigured cs hb => exact hcaches j
    | created hidle hp cs hb => simp
    | released => simp
    | written hj hv => simp [confRow, hi] at hv
  · rw [hconf, hvalid, if_neg ht]
    simpa [hi, SeqState.asserted] using hs.2

theorem EngineRow.spienDisciplined {s t : State} (h : EngineRow s t) (hr : s.RecordsReady) (hs : s.SpienDisciplined) :
    t.SpienDisciplined := by
  by_cases hi : s.ctl.seq = .idle
  · exact h.spienDisciplined_idle hi hs
  have hconf : ConfBy s t (confRow s) := h.conf hi
  have hspien := h.spienFollows hi hr hs
  cases hv : confRow s with
  | none =>
    rw [hv] at hconf hspien
    exact hconf.spienDisciplined (h.slot hi) hspien hs
  | some v =>
    rw [hv] at hconf hspien
    exact hconf.spienDisciplined (h.slot hi) hspien hs

/-- Settles O51: Assert, De-assert and the CONF write of CONFIGURE set SPIEN as the state they lead to asks, a transfer's
update keeps it, and every other row keeps CONF and the window. -/
theorem stepKeepsSpienDisciplined : Obligations.StepKeepsSpienDisciplined :=
  fun _ _ hr hs h => (step_row h).spienDisciplined hr hs

end Sys2Proof.Machine
end

section
/-!
PROOFS. The statements of family 44_device_setup: the initial Configuration value, the acceptance of CONFIGURE and
RELEASE, and the run of a CONFIGURE.
-/
namespace Sys2Proof

open Machine

/-! ## The initial Configuration value (R223) -/

/-- The bits of the initial value: WL at 4, CSIDX at 14, and every other bit 0 (R23, R223). -/
theorem confInit_eq_append (w : BitVec 6) (c : BitVec 2) :
    confInit w c = 0#16 ++ c ++ 0#2 ++ (wlValue w).truncate 8 ++ 0#4 := by
  apply BitVec.eq_of_getLsbD_eq
  intro i hi
  simp only [confInit, applyUpdates, List.foldl_cons, List.foldl_nil, setField, getLsbD_setBits hi, ConfField.lo,
    ConfField.width, Config.confInitOther, BitVec.getLsbD_append]
  interval_cases i <;> simp

theorem toNat_wlValue {w : BitVec 6} (h : wordLengthLegal w = true) : (wlValue w).toNat = w.toNat - 1 := by
  obtain ⟨hlo, -⟩ := (wordLengthLegal_iff w).mp h
  rw [wlValue, BitVec.toNat_sub, BitVec.toNat_setWidth, BitVec.toNat_ofNat]
  omega

theorem toNat_confInit {w : BitVec 6} (h : wordLengthLegal w = true) (c : BitVec 2) :
    (confInit w c).toNat = (w.toNat - 1) * 16 + c.toNat * 16384 := by
  obtain ⟨hlo, hhi⟩ := (wordLengthLegal_iff w).mp h
  have hwl : ((wlValue w).truncate 8).toNat = w.toNat - 1 := by
    rw [BitVec.truncate, BitVec.toNat_setWidth, toNat_wlValue h]
    omega
  have hsum : (confInit w c).toNat = (((0 * 2 ^ 2 + c.toNat) * 2 ^ 2 + 0) * 2 ^ 8 + (w.toNat - 1)) * 2 ^ 4 + 0 := by
    simp only [confInit_eq_append, toNat_append_eq_add, hwl, BitVec.toNat_ofNat, Nat.zero_mod]
  omega

/-- Clearing a field keeps every field that is 0 (R12). -/
theorem getField_setField_zero_of_zero (f g : ConfField) {v : Word} (h : getField g v = 0#32) :
    getField g (setField f v 0#32) = 0#32 := by
  by_cases hgf : g = f
  · rw [hgf, getField_setField_zero]
  · rw [getField_setField_other hgf, h]

/-- The CSIDX field holds the chip select (R23). -/
theorem toNat_getField_csidx (v : Word) (c : BitVec 2) :
    (getField .csidx (setField .csidx v (c.zeroExtend 32))).toNat = c.toNat := by
  rw [getField_setField_same, toNat_and_bitsOnes (by decide), BitVec.toNat_setWidth]
  simp only [ConfField.width]
  omega

/-- WL and CSIDX take their values, and every other field is 0 (R223). -/
theorem confInit_fields {w : BitVec 6} (h : wordLengthLegal w = true) (c : BitVec 2) :
    (getField .wl (confInit w c)).toNat = w.toNat - 1 ∧ (getField .csidx (confInit w c)).toNat = c.toNat ∧
      ∀ f, f ≠ .wl → f ≠ .csidx → getField f (confInit w c) = 0#32 := by
  simp only [confInit, applyUpdates, List.foldl_cons, List.foldl_nil, Config.confInitOther]
  refine ⟨?_, ?_, fun f hwl hcs => ?_⟩
  · iterate 4 rw [getField_setField_other (by decide)]
    exact toNat_getField_wl h _
  · iterate 3 rw [getField_setField_other (by decide)]
    exact toNat_getField_csidx _ c
  · iterate 3 apply getField_setField_zero_of_zero
    rw [getField_setField_other hcs, getField_setField_other hwl, getField_zero]

/-- Settles O54: the number by the value's bits (`confInit_eq_append`), the fields by the updates that make it up. -/
theorem initialConfigurationValue : Obligations.InitialConfigurationValue := by
  intro w c hlo hhi
  have hw : wordLengthLegal w = true := (wordLengthLegal_iff w).mpr ⟨hlo, hhi⟩
  exact ⟨toNat_confInit hw c, confInit_fields hw c⟩

end Sys2Proof

namespace Sys2Proof.Machine

/-! ## The lowest free slot (R225) -/

/-- The slots stand in the order of their handles. -/
theorem Slot.all_eq_append (k : Slot) : ∃ lower higher : List Slot,
    Slot.all = lower ++ k :: higher ∧ ∀ j ∈ lower, j.handle < k.handle := by
  cases k with
  | s0 => exact ⟨[], [.s1, .s2, .s3], rfl, by decide⟩
  | s1 => exact ⟨[.s0], [.s2, .s3], rfl, by decide⟩
  | s2 => exact ⟨[.s0, .s1], [.s3], rfl, by decide⟩
  | s3 => exact ⟨[.s0, .s1, .s2], [], rfl, by decide⟩

/-- A slot that is free, with every slot below it in use, is the one a new record takes. -/
theorem Recs.free_eq_some {rs : Recs} {k : Slot} (hk : (rs.get k).valid = false)
    (hlow : ∀ j : Slot, j.handle < k.handle → (rs.get j).valid = true) : rs.free = some k := by
  obtain ⟨lower, higher, hall, hlower⟩ := Slot.all_eq_append k
  refine List.find?_eq_some_iff_append.2 ⟨by simp [hk], lower, higher, hall, fun j hj => ?_⟩
  simp [hlow j (hlower j hj)]

theorem Recs.free_eq_none {rs : Recs} (h : ∀ k : Slot, (rs.get k).valid = true) : rs.free = none :=
  List.find?_eq_none.2 fun k _ => by simp [h k]

/-! ## The acceptance of CONFIGURE (R221 to R226) -/

theorem acceptConfigure_known {peer : BitVec 8} {bpw : BitVec 6} {k : Slot} {s : State}
    (hb : wordLengthLegal bpw = true) (hk : s.recs.lookup peer = some k) (cs : BitVec 2) :
    acceptConfigure peer cs bpw s = { s with
      recs := s.recs.set k { s.recs.get k with cs := cs, wordLen := bpw }
      w := { s.w with slot := k }, ctl := { s.ctl with seq := .cfgWr } } := by
  simp only [acceptConfigure, hb, if_true, hk]
  rfl

theorem acceptConfigure_new {peer : BitVec 8} {bpw : BitVec 6} {k : Slot} {s : State}
    (hb : wordLengthLegal bpw = true) (hp : s.recs.lookup peer = none) (hk : s.recs.free = some k) (cs : BitVec 2) :
    acceptConfigure peer cs bpw s = { s with
      recs := s.recs.set k { s.recs.get k with
        valid := true, peer := peer, base := s.windowBase, phys := s.windowPhys, cs := cs, wordLen := bpw
        cacheValid := false, shadowValid := false }
      w := { s.w with slot := k }, ctl := { s.ctl with seq := .cfgWr } } := by
  simp only [acceptConfigure, hb, if_true, hp, hk]
  cases k <;> rfl

theorem acceptConfigure_full {peer : BitVec 8} {bpw : BitVec 6} {s : State} (hb : wordLengthLegal bpw = true)
    (hp : s.recs.lookup peer = none) (hfull : s.recs.free = none) (cs : BitVec 2) :
    acceptConfigure peer cs bpw s = s.setSeq (.cfgRsp .enomem) := by
  simp only [acceptConfigure, hb, if_true, hp, hfull]

/-- Settles O55: acceptance by what `lookup` and `free` answer. -/
theorem configureCreatesOrReusesOneRecord : Obligations.ConfigureCreatesOrReusesOneRecord := by
  intro peer cs bpw k s hq hlo hhi
  have hb : wordLengthLegal bpw = true := (wordLengthLegal_iff bpw).mpr ⟨hlo, hhi⟩
  rw [exec_configure_idle peer cs bpw hq]
  refine ⟨fun hnew hk hlow => ?_, fun hdistinct hk hpeer => ?_, fun hfull => ?_⟩
  · rw [acceptConfigure_new hb (Recs.lookup_eq_none_iff.2 hnew) (Recs.free_eq_some hk hlow)]
  · rw [acceptConfigure_known hb (hdistinct.lookup_eq_some_iff.2 ⟨hk, hpeer⟩)]
  · rw [acceptConfigure_full hb (Recs.lookup_eq_none_iff.2 fun j _ => (hfull j).2)
      (Recs.free_eq_none fun j => (hfull j).1)]
    rfl

/-! ## RELEASE (R228 to R231) -/

theorem exec_release_response (peer : BitVec 8) {st : Status} {s : State} (hq : s.ctl.seq = .relRsp st) :
    exec (.release peer) s = .next (s.respond st 0#2) := by
  rw [exec_release_busy peer (by simp [hq])]
  simp only [resumeRelease, hq]

/-- Settles O58: acceptance by what `lookup` answers, then the response row. -/
theorem releaseClearsThePeersRecordThenResponds : Obligations.ReleaseClearsThePeersRecordThenResponds := by
  intro peer s
  refine ⟨fun k hq hdistinct hk hpeer => ?_, fun hq hnone => ?_, fun st hq => exec_release_response peer hq⟩
  · have hlookup : s.recs.lookup peer = some k := hdistinct.lookup_eq_some_iff.2 ⟨hk, hpeer⟩
    rw [exec_release_idle peer hq]
    obtain ⟨j, hj, e⟩ | ⟨hj, -⟩ := acceptRelease_cases peer s
    · obtain rfl : k = j := by simpa [hlookup] using hj
      rw [e]
    · simp [hlookup] at hj
  · rw [exec_release_idle peer hq]
    obtain ⟨j, hj, -⟩ | ⟨-, e⟩ := acceptRelease_cases peer s
    · simp [Recs.lookup_eq_none_iff.2 hnone] at hj
    · rw [e]; rfl

/-! ## The run of a CONFIGURE (R221 to R227, R231) -/

/-- The launch conditions are met (R52, R68) and COH_OK holds (R128): a step is the row of the engine. -/
def State.Launched (s : State) : Prop :=
  s.attached = true ∧ s.windowBase.toNat % 8 = 0 ∧ s.cohOk = true

theorem State.Launched.step_eq {s t : State} (hs : s.Launched) (h : engineStep s.arrive = .next t) :
    step s = .next t ∧ t.Launched := by
  obtain ⟨ha, hb, hcoh⟩ := hs
  have hrow := engineStep_row h
  have ht : t.cohOk = true := hrow.cohOk hcoh
  obtain ⟨hbase, hattached⟩ := hrow.window
  refine ⟨step_next_iff.2 ⟨launchRefusal_of_attached ha hb, h, ht⟩, ?_, ?_, ht⟩
  · rw [hattached, arrive_attached_of ha]
  · rw [hbase, arrive_windowBase_of ha, hb]

/-- A run starts with a step of the machine. -/
theorem core_run_succ {s t : State} (h : step s = .next t) (n : Nat) :
    Host.Core.run Sys2Proof.core (n + 1) s = Host.Core.run Sys2Proof.core n t := by
  have hcore : Host.Core.step Sys2Proof.core s = .next t := h
  simp only [Host.Core.run, hcore]

theorem decodeCommand_encodeConfigure (peer : BitVec 8) (cs : BitVec 2) {bpw : BitVec 6}
    (hb : wordLengthLegal bpw = true) :
    decodeCommand (encodeConfigure peer cs bpw) 0#32 = .ok (.configure peer cs bpw) :=
  decodeOfEncodedInstructionIsTheInstruction (.configure peer cs bpw) hb rfl

/-- An accepted CONFIGURE latches the slot, whose record, old or new, is the peer's with the operands written. -/
theorem acceptConfigure_latches {peer : BitVec 8} {bpw : BitVec 6} {k : Slot} {s : State}
    (hb : wordLengthLegal bpw = true)
    (hk : s.recs.lookup peer = some k ∨ (s.recs.lookup peer = none ∧ s.recs.free = some k)) (cs : BitVec 2) :
    ∃ r : Rec, r.valid = true ∧ r.peer = peer ∧ r.cs = cs ∧ r.wordLen = bpw ∧
      acceptConfigure peer cs bpw s = { s with
        recs := s.recs.set k r, w := { s.w with slot := k }, ctl := { s.ctl with seq := .cfgWr } } := by
  obtain hk | ⟨hp, hk⟩ := hk
  · obtain ⟨hvalid, hpeer⟩ := Recs.lookup_some hk
    exact ⟨{ s.recs.get k with cs := cs, wordLen := bpw }, hvalid, hpeer, rfl, rfl, acceptConfigure_known hb hk cs⟩
  · exact ⟨_, rfl, rfl, rfl, rfl, acceptConfigure_new hb hp hk cs⟩

theorem engineStep_cfgWr {s : State} (hq : s.ctl.seq = .cfgWr) (hv : s.record.valid = true) :
    engineStep s = .next (configureWrite s) := by
  rw [engineStep_busy (by simp [hq])]
  simp only [resume, resumeConfigure, hq, State.onRecord_valid hv]

theorem engineStep_cfgRsp {st : Status} {s : State} (hq : s.ctl.seq = .cfgRsp st) :
    engineStep s = .next (s.respond st (configureHandle st s)) := by
  rw [engineStep_busy (by simp [hq])]
  simp only [resume, resumeConfigure, hq]

/-- The acceptance step of CONFIGURE (R50, R221, R231), without an event (log 2). -/
theorem step_acceptConfigure {peer : BitVec 8} {cs : BitVec 2} {bpw : BitVec 6} {k : Slot} {s : State}
    (hs : s.Launched) (hq : s.ctl.seq = .idle) (hb : wordLengthLegal bpw = true)
    (hport : s.port = some ⟨encodeConfigure peer cs bpw, 0#32⟩)
    (hk : s.recs.lookup peer = some k ∨ (s.recs.lookup peer = none ∧ s.recs.free = some k)) :
    ∃ (u : State) (r : Rec), step s = .next u ∧ u.Launched ∧
      (r.valid = true ∧ r.peer = peer ∧ r.cs = cs ∧ r.wordLen = bpw) ∧
      u.ctl = { s.ctl with seq := .cfgWr } ∧ u.recs = s.recs.set k r ∧ u.w = { s.w with slot := k } ∧
      u.trace = s.trace := by
  obtain ⟨r, hvalid, hpeer, hcs, hlen, e⟩ := acceptConfigure_latches (s := s.arrive.takeCommand) hb hk cs
  have hrow : engineStep s.arrive = .next (acceptConfigure peer cs bpw s.arrive.takeCommand) := by
    rw [engineStep_command (s := s.arrive) hq (arrive_port_of hport) (decodeCommand_encodeConfigure peer cs hb)]
    exact exec_configure_idle peer cs bpw hq
  obtain ⟨hstep, hu⟩ := hs.step_eq hrow
  rw [e] at hstep hu
  exact ⟨_, r, hstep, hu, ⟨hvalid, hpeer, hcs, hlen⟩, rfl, rfl, rfl, rfl⟩

/-- The two steps of CONFIGURE after acceptance (R223, R227, R231): the CONF write, then the response. -/
theorem step_configureWrite_respond {s : State} (hs : s.Launched) (hq : s.ctl.seq = .cfgWr)
    (hvalid : s.record.valid = true) {v : Word} (hv : v = confInit s.record.wordLen s.record.cs) :
    ∃ u t : State, step s = .next u ∧ step u = .next t ∧ t.ctl = { s.ctl with seq := .idle } ∧
      t.recs = s.recs.set s.w.slot
        { s.record with cache := v, cacheValid := true, shadow := v, shadowValid := true } ∧
      t.w = { s.w with v := v } ∧
      t.trace = .rsp .ok s.w.slot.handle :: .busWr s.record.base 0x00#32 v :: s.trace := by
  subst hv
  obtain ⟨hwrite, hu⟩ := hs.step_eq (engineStep_cfgWr (s := s.arrive) hq hvalid)
  rw [configureWrite_eq] at hwrite hu
  obtain ⟨hrespond, -⟩ := hu.step_eq (engineStep_cfgRsp (st := .ok) rfl)
  exact ⟨_, _, hwrite, hrespond, rfl, rfl, rfl, rfl⟩

/-- Settles O57: the acceptance step, then the two rows after it, whatever the other agents do before each. -/
theorem configureRunsToItsResponseInThreeSteps : Obligations.ConfigureRunsToItsResponseInThreeSteps := by
  intro peer cs bpw k s ha hbase hcoh hq hlo hhi hport hk
  have hb : wordLengthLegal bpw = true := (wordLengthLegal_iff bpw).mpr ⟨hlo, hhi⟩
  obtain ⟨u, r, haccept, hu, ⟨hvalid, hpeer, hcs, hlen⟩, huctl, hurecs, huw, hutrace⟩ :=
    step_acceptConfigure ⟨ha, hbase, hcoh⟩ hq hb hport hk
  have hrecord : u.record = r := by simp [State.record, hurecs, huw]
  obtain ⟨v, t, hwrite, hrespond, hctl, hrecs, hw, htrace⟩ :=
    step_configureWrite_respond (v := confInit bpw cs) hu (by rw [huctl]) (by rw [hrecord, hvalid])
      (by rw [hrecord, hlen, hcs])
  rw [huw, hurecs, hrecord] at hrecs
  have hget (j : Slot) : t.recs.get j = if j = k then
      { r with cache := confInit bpw cs, cacheValid := true, shadow := confInit bpw cs, shadowValid := true }
      else s.recs.get j := by
    rw [hrecs, Recs.get_set, Recs.get_set]
    split <;> rfl
  have hidle : { s.ctl with seq := .idle } = s.ctl := by rw [← hq]
  have hrun : Host.Core.run Sys2Proof.core 3 s = .next t := by
    rw [core_run_succ haccept, core_run_succ hwrite, core_run_succ hrespond]
    rfl
  refine ⟨t, hrun, by rw [hctl, huctl, hidle], ?_⟩
  simp +contextual [hget, hw, htrace, hrecord, huw, hutrace, hvalid, hpeer, hcs, hlen]

end Sys2Proof.Machine
end
